-- ==== Sys2Proof/Word.lean ====
section
/-! DEFINITION. The bit-vector widths of the block (00_scope.md R8, R11; 10_state.md R20, R31). -/

namespace Sys2Proof

/-- A byte has 8 bits (20_memory.md R60). -/
abbrev Byte := BitVec 8
/-- The 16-bit registers: `frame_counter`, `crc_reg`, `delay_cnt`, `snap_volt`, `snap_speed`. -/
abbrev Half := BitVec 16
/-- The 32-bit signed snapshot fields: latitude, longitude, altitude. -/
abbrev Word := BitVec 32
/-- The 4-bit generator positions `bit_idx` and `sym_idx`. -/
abbrev Nibble := BitVec 4
/-- The 7-bit control word `CW` (30_encoding.md R80). -/
abbrev ControlWord := BitVec 7

end Sys2Proof
end

