-- ==== Sys2Proof/Config.lean ====
section
/-! DEFINITION. The parameters of an instance (00_scope.md R8), the record of the input ports
(10_state.md R35 to R37), and the one free value of the model: what the environment drives. -/

namespace Sys2Proof

/-- `DATA_BITS`, 7 or 8 (00_scope.md R8). -/
inductive DataBits where
  | seven
  | eight
deriving DecidableEq, Repr

/-- The number that `DATA_BITS` is. -/
def DataBits.toNat : DataBits → Nat
  | .seven => 7
  | .eight => 8

/-- `FSK_SELECT`, the FSK mode the cycle enters after `Rtty` (00_scope.md R8). -/
inductive FskSelect where
  | fsk4
  | fsk2
deriving DecidableEq, Repr

/-- The implementation parameters of 00_scope.md R8, one field each.
No step writes them (70_reset_and_hazards.md R273). -/
structure Params where
  /-- `CALLSIGN` -/
  callsign : List Byte
  /-- `PRE_START_BITS`, 0 to 255 -/
  preStartBits : Byte
  /-- `RTTY_MARK_DEV`, 0 to 255 -/
  rttyMarkDev : Byte
  /-- `TX_DELAY_TICKS`, 0 to 65535 -/
  txDelayTicks : Half
  /-- `SYMBOL_RATE_HZ`; no rule reads it (70_reset_and_hazards.md R274) -/
  symbolRateHz : Nat
  /-- `LED_ALT_THRESHOLD_M`, 0 to 2147483 -/
  ledAltThresholdM : Nat
  /-- `FSK_FRAME`; `FSK_LEN` is its length -/
  fskFrame : List Byte
  /-- `DATA_BITS` -/
  dataBits : DataBits
  /-- `RTTY_END_REQUERY` -/
  rttyEndRequery : Bool
  /-- `FSK_MSB_FIRST` -/
  fskMsbFirst : Bool
  /-- `FSK_SELECT` -/
  fskSelect : FskSelect
  /-- `NOFIX_ZERO_ALT` -/
  nofixZeroAlt : Bool
deriving DecidableEq, Repr

/-- A byte that a callsign may hold: 0x21 to 0x7E, and none of `,` `*` `$` (00_scope.md R8). -/
def legalCallsignByte (b : Byte) : Bool :=
  0x21#8 ≤ b && b ≤ 0x7E#8 && b != 0x2C#8 && b != 0x2A#8 && b != 0x24#8

/-- The legal ranges of 00_scope.md R8 that the field types do not already say. -/
def Params.legal (p : Params) : Bool :=
  1 ≤ p.callsign.length && p.callsign.length ≤ 15 && p.callsign.all legalCallsignByte
    && p.fskFrame.length ≤ 128 && p.ledAltThresholdM ≤ 2147483 && 1 ≤ p.symbolRateHz

/-- The record `get_last_fix` returns, as the `gps_*` ports carry it (10_state.md R36). -/
structure GpsFix where
  fix : Byte
  lat : Word
  lon : Word
  alt : Word
  speed : Half
  sats : Byte
  hh : Byte
  mm : Byte
  ss : Byte
deriving DecidableEq, Repr, Inhabited

/-- The input ports as they stand at one clock edge (10_state.md R35 to R37). -/
structure Ports where
  rst : Bool
  tick : Bool
  seqEn : Bool
  disableArmed : Bool
  gps : GpsFix
  volt : Half
  temp : Byte
deriving DecidableEq, Repr, Inhabited

/-- A free value: what the environment drives at the n-th edge where no `script` says it (log 2).
Nothing constrains it, as nothing constrains the environment (10_state.md R35). -/
opaque Config.environment : Nat → Ports

/-- Every input port at 0: the line `IDLE` of 30_encoding.md R99, with an all-zero record. -/
def Ports.idle : Ports where
  rst := false
  tick := false
  seqEn := false
  disableArmed := false
  gps := { fix := 0, lat := 0, lon := 0, alt := 0, speed := 0, sats := 0, hh := 0, mm := 0, ss := 0 }
  volt := 0
  temp := 0

/-- The instance that `State.reset` carries: the defaults of 00_scope.md R8, and for the six parameters
without one a value of the model's (DESIGN CHOICE, log 1). No statement rests on it. -/
def Config.nominal : Params where
  callsign := [0x54#8, 0x45#8, 0x53#8, 0x54#8]
  preStartBits := 2
  rttyMarkDev := 3
  txDelayTicks := 3
  symbolRateHz := 50
  ledAltThresholdM := 1000
  fskFrame := [0x1B#8, 0xE4#8]
  dataBits := .eight
  rttyEndRequery := false
  fskMsbFirst := true
  fskSelect := .fsk4
  nofixZeroAlt := false

end Sys2Proof
end

