-- ==== Sys2Proof/Syntax.lean ====
section
/-! DEFINITION. The operations of the block as syntax: one constructor per row of spec/opcode_table.json
(30_encoding.md R83, R85), the modes (R82) and the results of the generators (R86, R87). -/

namespace Sys2Proof

/-- The transmission phase (10_state.md R21; codes in 30_encoding.md R82). -/
inductive ModeState where
  | startup
  | rtty
  | fsk4
  | fsk2
deriving DecidableEq, Repr

/-- The formats of the operation map (30_encoding.md R81, R85). -/
inductive Format where
  /-- reset decoder -/
  | r
  /-- tick decoder -/
  | t
  /-- sequencer decoder -/
  | s
  /-- micro-operation index -/
  | m
deriving DecidableEq, Repr

/-- One operation. A control-word operation keeps the letter fields of its pattern, which take no part
in the selection (30_encoding.md R83); a micro-operation keeps the operand its caller passes. -/
inductive Instr where
  /-- `1 t s o e mm` -/
  | reset (tick seqEn txOn txEnable : Bool) (mode : ModeState)
  /-- `0 0 s o e mm` -/
  | tickNone (seqEn txOn txEnable : Bool) (mode : ModeState)
  /-- `0 1 s 0 e mm` -/
  | tickIdle (seqEn txEnable : Bool) (mode : ModeState)
  /-- `0 1 s 1 e 00` -/
  | tickRsvd (seqEn txEnable : Bool)
  /-- `0 1 s 1 e 01` -/
  | tickRtty (seqEn txEnable : Bool)
  /-- `0 1 s 1 e 10` -/
  | tickFsk4 (seqEn txEnable : Bool)
  /-- `0 1 s 1 e 11` -/
  | tickFsk2 (seqEn txEnable : Bool)
  /-- `0 t 0 o e mm` -/
  | seqNone (tick txOn txEnable : Bool) (mode : ModeState)
  /-- `0 t 1 0 1 00` -/
  | seqStartup (tick : Bool)
  /-- `0 t 1 0 1 01` -/
  | seqFsk (tick : Bool)
  /-- `0 t 1 0 1 1m` -/
  | seqWrap (tick m : Bool)
  /-- `0 t 1 1 e mm`: the wait while a packet is on air -/
  | seqWaitTransmitting (tick txEnable : Bool) (mode : ModeState)
  /-- `0 t 1 0 0 mm`: the wait during the inter-packet delay -/
  | seqWaitDelay (tick : Bool) (mode : ModeState)
  /-- index 0 -/
  | crcInit
  /-- index 1 -/
  | crcByte (b : Byte)
  /-- index 2; `s` ends before its first `NUL` (40_crc16.md R113) -/
  | crcStr (s : List Byte)
  /-- index 3 -/
  | rttyNext (b : Byte)
  /-- index 4 -/
  | fsk4Next (b : Byte)
  /-- index 5 -/
  | fsk2Next (b : Byte)
  /-- index 6 -/
  | snapCapture
  /-- index 7 -/
  | fmtRtty
  /-- index 8 -/
  | fmtFsk
  /-- index 9 -/
  | arm
  /-- index 10 -/
  | endPacket
  /-- index 11 -/
  | devWrite (v : Byte)
  /-- index 12 -/
  | delayStep
deriving DecidableEq, Repr

/-- What `RTTY.NEXT` returns (30_encoding.md R86). -/
inductive RttyResult where
  /-- space -/
  | zero
  /-- mark -/
  | one
  /-- end of character -/
  | fin
deriving DecidableEq, Repr

/-- What `FSK4.NEXT` and `FSK2.NEXT` return (30_encoding.md R87). -/
inductive FskResult where
  | symbol (sym : BitVec 2)
  | noSym
deriving DecidableEq, Repr

end Sys2Proof
end

