-- ==== Sys2Proof/WellFormed.lean ====
section
/-! DEFINITION. Well-formed operations. The field types carry every other bound of the encodings. -/

namespace Sys2Proof

/-- The operand of `CRC.STR` does not include its first `NUL`, so it holds none (40_crc16.md R113).
No other operand has a check. -/
def Instr.wf : Instr → Bool
  | .crcStr s => s.all (· != 0)
  | .reset _ _ _ _ _ | .tickNone _ _ _ _ | .tickIdle _ _ _ | .tickRsvd _ _ | .tickRtty _ _ | .tickFsk4 _ _
  | .tickFsk2 _ _ | .seqNone _ _ _ _ | .seqStartup _ | .seqFsk _ | .seqWrap _ _ | .seqWaitTransmitting _ _ _
  | .seqWaitDelay _ _ | .crcInit | .crcByte _ | .rttyNext _ | .fsk4Next _ | .fsk2Next _ | .snapCapture
  | .fmtRtty | .fmtFsk | .arm | .endPacket | .devWrite _ | .delayStep => true

end Sys2Proof
end

