-- ==== Sys2Proof/Decode.lean ====
section
/-! DEFINITION. The codes of 30_encoding.md: the control word and its three decoders (R80, R81, R83), the
micro-operation indices (R85), the mode and result codes (R82, R86, R87); then the encoder, and the words
as spec/opcode_table.json numbers them. -/

namespace Sys2Proof

/-! ## Codes -/

/-- The 2-bit code of a mode (30_encoding.md R82). -/
def ModeState.code : ModeState → BitVec 2
  | .startup => 0
  | .rtty => 1
  | .fsk4 => 2
  | .fsk2 => 3

/-- The mode a 2-bit code names (30_encoding.md R82). -/
def ModeState.ofCode (m : BitVec 2) : ModeState :=
  if m = 0 then .startup else if m = 1 then .rtty else if m = 2 then .fsk4 else .fsk2

/-- The 2-bit code of an RTTY result; 3 is never returned (30_encoding.md R86). -/
def RttyResult.code : RttyResult → BitVec 2
  | .zero => 0
  | .one => 1
  | .fin => 2

/-- The 3-bit code `{nosym, sym[1:0]}` of an FSK result (30_encoding.md R87). -/
def FskResult.code : FskResult → BitVec 3
  | .symbol sym => 0#1 ++ sym
  | .noSym => 1#1 ++ 0#2

/-- Bits 1:0 of an FSK result's code (30_encoding.md R87). -/
def FskResult.sym (r : FskResult) : BitVec 2 := r.code.extractLsb' 0 2

/-! ## The control word -/

/-- `CW = {rst, tick, seq_en, tx_on, tx_enable, mode[1:0]}` (30_encoding.md R80). -/
def packCw (rst tick seqEn txOn txEnable : Bool) (mode : ModeState) : ControlWord :=
  BitVec.ofBool rst ++ BitVec.ofBool tick ++ BitVec.ofBool seqEn ++ BitVec.ofBool txOn ++ BitVec.ofBool txEnable
    ++ mode.code

/-- Field `rst`, bit 6. -/
def cwRst (cw : ControlWord) : Bool := cw.getLsbD 6
/-- Field `tick`, bit 5. -/
def cwTick (cw : ControlWord) : Bool := cw.getLsbD 5
/-- Field `seq_en`, bit 4. -/
def cwSeqEn (cw : ControlWord) : Bool := cw.getLsbD 4
/-- Field `tx_on`, bit 3. -/
def cwTxOn (cw : ControlWord) : Bool := cw.getLsbD 3
/-- Field `tx_enable`, bit 2. -/
def cwTxEnable (cw : ControlWord) : Bool := cw.getLsbD 2
/-- Field `mode`, bits 1:0. -/
def cwMode (cw : ControlWord) : ModeState := ModeState.ofCode (cw.extractLsb' 0 2)

/-- Why bytes do not decode. -/
inductive Reject where
  /-- there is no byte to decode -/
  | noBytes
  /-- bit 7 of a control byte is 1: a control word has 7 bits -/
  | controlBit7
  /-- the reset decoder was given a control word with `rst = 0` -/
  | rstClear
  /-- the tick or the sequencer decoder was given a control word with `rst = 1` -/
  | rstSet
  /-- micro-operation index 13 to 15 (30_encoding.md R85: unused) -/
  | unusedIndex
  /-- a micro-operation index has 4 bits: bits 7:4 of its byte are not 0 -/
  | notAnIndex
  /-- the operand byte is missing -/
  | missingOperand
  /-- the operand string has no `NUL` -/
  | unterminated
deriving DecidableEq, Repr

/-- Format R: `rst = 1` performs `RESET` (30_encoding.md R81). -/
def decodeResetCw (cw : ControlWord) : Except Reject Instr :=
  if cwRst cw then .ok (.reset (cwTick cw) (cwSeqEn cw) (cwTxOn cw) (cwTxEnable cw) (cwMode cw)) else .error .rstClear

/-- Format T: with `rst = 0`, one tick operation from `tick`, `tx_on` and `mode` (30_encoding.md R81, R83). -/
def decodeTickCw (cw : ControlWord) : Except Reject Instr :=
  if cwRst cw then .error .rstSet
  else if !cwTick cw then .ok (.tickNone (cwSeqEn cw) (cwTxOn cw) (cwTxEnable cw) (cwMode cw))
  else if !cwTxOn cw then .ok (.tickIdle (cwSeqEn cw) (cwTxEnable cw) (cwMode cw))
  else match cwMode cw with
    | .startup => .ok (.tickRsvd (cwSeqEn cw) (cwTxEnable cw))
    | .rtty => .ok (.tickRtty (cwSeqEn cw) (cwTxEnable cw))
    | .fsk4 => .ok (.tickFsk4 (cwSeqEn cw) (cwTxEnable cw))
    | .fsk2 => .ok (.tickFsk2 (cwSeqEn cw) (cwTxEnable cw))

/-- Format S: with `rst = 0`, one sequencer operation from `seq_en`, `tx_on`, `tx_enable` and `mode`
(30_encoding.md R81, R83). -/
def decodeSeqCw (cw : ControlWord) : Except Reject Instr :=
  if cwRst cw then .error .rstSet
  else if !cwSeqEn cw then .ok (.seqNone (cwTick cw) (cwTxOn cw) (cwTxEnable cw) (cwMode cw))
  else if cwTxOn cw then .ok (.seqWaitTransmitting (cwTick cw) (cwTxEnable cw) (cwMode cw))
  else if !cwTxEnable cw then .ok (.seqWaitDelay (cwTick cw) (cwMode cw))
  else match cwMode cw with
    | .startup => .ok (.seqStartup (cwTick cw))
    | .rtty => .ok (.seqFsk (cwTick cw))
    | .fsk4 => .ok (.seqWrap (cwTick cw) false)
    | .fsk2 => .ok (.seqWrap (cwTick cw) true)

/-- The operations a clock edge performs, in order: `RESET` alone, or the tick operation and then the
sequencer operation, both selected from the same control word (30_encoding.md R81, 60_exceptions.md R238). -/
def decodeEdge (cw : ControlWord) : List Instr :=
  match decodeResetCw cw, decodeTickCw cw, decodeSeqCw cw with
  | .ok i, _, _ => [i]
  | .error _, .ok t, .ok q => [t, q]
  | .error _, _, _ => []

/-! ## Bytes -/

/-- The string before the first `NUL`, and what follows the `NUL`. -/
def splitAtNul : List Byte → Option (List Byte × List Byte)
  | [] => none
  | b :: rest =>
    if b = 0 then some ([], rest)
    else match splitAtNul rest with
      | some (s, tail) => some (b :: s, tail)
      | none => none

/-- A control word in a byte: bits 6:0, bit 7 is 0. -/
def controlByte (cw : ControlWord) : Byte := 0#1 ++ cw

/-- The control word of a control byte. -/
def controlWordOf (b : Byte) : ControlWord := b.extractLsb' 0 7

/-- Run one of the control-word decoders on the first byte. -/
def decodeControl (dec : ControlWord → Except Reject Instr) : List Byte → Except Reject (Instr × List Byte)
  | [] => .error .noBytes
  | b :: rest =>
    if b.getLsbD 7 then .error .controlBit7
    else match dec (controlWordOf b) with
      | .ok i => .ok (i, rest)
      | .error e => .error e

/-- A micro-operation: its index (30_encoding.md R85) in the first byte, then its operand, a byte or a
string that a `NUL` ends. The operand's place is the model's own (DESIGN CHOICE, log 4). -/
def decodeMicro : List Byte → Except Reject (Instr × List Byte)
  | [] => .error .noBytes
  | idx :: rest =>
    match idx.toNat, rest with
    | 0, r => .ok (.crcInit, r)
    | 1, b :: r => .ok (.crcByte b, r)
    | 2, r => match splitAtNul r with
      | some (s, tail) => .ok (.crcStr s, tail)
      | none => .error .unterminated
    | 3, b :: r => .ok (.rttyNext b, r)
    | 4, b :: r => .ok (.fsk4Next b, r)
    | 5, b :: r => .ok (.fsk2Next b, r)
    | 6, r => .ok (.snapCapture, r)
    | 7, r => .ok (.fmtRtty, r)
    | 8, r => .ok (.fmtFsk, r)
    | 9, r => .ok (.arm, r)
    | 10, r => .ok (.endPacket, r)
    | 11, b :: r => .ok (.devWrite b, r)
    | 12, r => .ok (.delayStep, r)
    | n, _ => if n ≤ 12 then .error .missingOperand else if n ≤ 15 then .error .unusedIndex else .error .notAnIndex

/-- The decoder of a format, total on any bytes: the operation and the bytes after it, or why not. -/
def decode : Format → List Byte → Except Reject (Instr × List Byte)
  | .r => decodeControl decodeResetCw
  | .t => decodeControl decodeTickCw
  | .s => decodeControl decodeSeqCw
  | .m => decodeMicro

/-! ## The encoder -/

/-- The format of an operation (30_encoding.md R83, R85). -/
def Instr.format : Instr → Format
  | .reset _ _ _ _ _ => .r
  | .tickNone _ _ _ _ | .tickIdle _ _ _ | .tickRsvd _ _ | .tickRtty _ _ | .tickFsk4 _ _ | .tickFsk2 _ _ => .t
  | .seqNone _ _ _ _ | .seqStartup _ | .seqFsk _ | .seqWrap _ _ | .seqWaitTransmitting _ _ _ | .seqWaitDelay _ _ => .s
  | .crcInit | .crcByte _ | .crcStr _ | .rttyNext _ | .fsk4Next _ | .fsk2Next _ | .snapCapture | .fmtRtty | .fmtFsk
  | .arm | .endPacket | .devWrite _ | .delayStep => .m

/-- The bytes of an operation: its pattern of 30_encoding.md R83 in one control byte, or its index of R85
and its operand. -/
def encode : Instr → List Byte
  | .reset t s o e m => [controlByte (packCw true t s o e m)]
  | .tickNone s o e m => [controlByte (packCw false false s o e m)]
  | .tickIdle s e m => [controlByte (packCw false true s false e m)]
  | .tickRsvd s e => [controlByte (packCw false true s true e .startup)]
  | .tickRtty s e => [controlByte (packCw false true s true e .rtty)]
  | .tickFsk4 s e => [controlByte (packCw false true s true e .fsk4)]
  | .tickFsk2 s e => [controlByte (packCw false true s true e .fsk2)]
  | .seqNone t o e m => [controlByte (packCw false t false o e m)]
  | .seqStartup t => [controlByte (packCw false t true false true .startup)]
  | .seqFsk t => [controlByte (packCw false t true false true .rtty)]
  | .seqWrap t m => [controlByte (packCw false t true false true (if m then .fsk2 else .fsk4))]
  | .seqWaitTransmitting t e m => [controlByte (packCw false t true true e m)]
  | .seqWaitDelay t m => [controlByte (packCw false t true false false m)]
  | .crcInit => [0]
  | .crcByte b => [1, b]
  | .crcStr s => 2 :: (s ++ [0])
  | .rttyNext b => [3, b]
  | .fsk4Next b => [4, b]
  | .fsk2Next b => [5, b]
  | .snapCapture => [6]
  | .fmtRtty => [7]
  | .fmtFsk => [8]
  | .arm => [9]
  | .endPacket => [10]
  | .devWrite v => [11, v]
  | .delayStep => [12]

/-! ## The operation map as a table -/

/-- A row of spec/opcode_table.json: an operation's first byte has `bits` where `mask` is 1. -/
structure OpRow where
  format : Format
  bits : Byte
  mask : Byte
deriving DecidableEq, Repr

/-- The row of an operation, `match` and `mask` copied from spec/opcode_table.json; a micro-operation's
index fills the low half of its byte. -/
def Instr.row : Instr → OpRow
  | .reset _ _ _ _ _ => ⟨.r, 0x40, 0x40⟩
  | .tickNone _ _ _ _ => ⟨.t, 0x00, 0x60⟩
  | .tickIdle _ _ _ => ⟨.t, 0x20, 0x68⟩
  | .tickRsvd _ _ => ⟨.t, 0x28, 0x6B⟩
  | .tickRtty _ _ => ⟨.t, 0x29, 0x6B⟩
  | .tickFsk4 _ _ => ⟨.t, 0x2A, 0x6B⟩
  | .tickFsk2 _ _ => ⟨.t, 0x2B, 0x6B⟩
  | .seqNone _ _ _ _ => ⟨.s, 0x00, 0x50⟩
  | .seqStartup _ => ⟨.s, 0x14, 0x5F⟩
  | .seqFsk _ => ⟨.s, 0x15, 0x5F⟩
  | .seqWrap _ _ => ⟨.s, 0x16, 0x5E⟩
  | .seqWaitTransmitting _ _ _ => ⟨.s, 0x18, 0x58⟩
  | .seqWaitDelay _ _ => ⟨.s, 0x10, 0x5C⟩
  | .crcInit => ⟨.m, 0x0, 0xF⟩
  | .crcByte _ => ⟨.m, 0x1, 0xF⟩
  | .crcStr _ => ⟨.m, 0x2, 0xF⟩
  | .rttyNext _ => ⟨.m, 0x3, 0xF⟩
  | .fsk4Next _ => ⟨.m, 0x4, 0xF⟩
  | .fsk2Next _ => ⟨.m, 0x5, 0xF⟩
  | .snapCapture => ⟨.m, 0x6, 0xF⟩
  | .fmtRtty => ⟨.m, 0x7, 0xF⟩
  | .fmtFsk => ⟨.m, 0x8, 0xF⟩
  | .arm => ⟨.m, 0x9, 0xF⟩
  | .endPacket => ⟨.m, 0xA, 0xF⟩
  | .devWrite _ => ⟨.m, 0xB, 0xF⟩
  | .delayStep => ⟨.m, 0xC, 0xF⟩

/-- A byte is one of a row's. -/
def OpRow.matches (r : OpRow) (b : Byte) : Bool := b &&& r.mask == r.bits

/-! ## The table's words -/

/-- `n` bytes of a number, the least significant first: a later byte's bits count on from an earlier one's. -/
def bytesOf : Nat → Nat → List Byte
  | 0, _ => []
  | n + 1, w => BitVec.ofNat 8 w :: bytesOf n (w / 256)

/-- A word of the table, as bytes: its own, then an operand byte or the `NUL` of an empty operand string,
which the table gives no bits and which are 0. -/
def tableBytes (nbits w : Nat) : List Byte := bytesOf ((nbits + 7) / 8) w ++ [0, 0]

/-- Whether a word of the table is a micro-operation's (DESIGN CHOICE, log 6): at 4 bits it is, at 7 bits it
is not, and in a whole byte it is one if its value is an index in use, 0 to 12. Read as a control word such a
byte has `rst`, `tick` and `seq_en` all 0 and selects nothing but `TICK.NONE` and `SEQ.NONE`. -/
def tableWordIsMicro (nbits w : Nat) : Bool := nbits ≤ 4 || (nbits != 7 && w ≤ 12)

/-- The one operation that a control word is taken for, of those its edge performs (log 6): `RESET`; else the
tick operation at a tick; else the sequencer operation where `seq_en` is 1; else `TICK.NONE`. -/
def decodeCwAsOne (cw : ControlWord) : Format :=
  if cwRst cw then .r else if cwTick cw then .t else if cwSeqEn cw then .s else .t

/-- The operation the decoder reads from a word of spec/opcode_table.json. -/
def decodeTableWord (nbits w : Nat) : Option Instr :=
  let bytes := tableBytes nbits w
  let format := if tableWordIsMicro nbits w then .m else decodeCwAsOne (BitVec.ofNat 7 w)
  match decode format bytes with
  | .ok (i, _) => some i
  | .error _ => none

end Sys2Proof
end

