-- ==== Sys2Proof/Machine/State.lean ====
section
/-! DEFINITION. The state of the block (10_state.md), the reasons a step can stop, and the state after
reset (10_state.md R52). -/

namespace Sys2Proof.Machine

/-- The buffer identity, register `buf_sel`: 0 selects `RTTY_BUF`, 1 selects `FSK_BUF` (10_state.md R22). -/
inductive BufSel where
  | rttyBuf
  | fskBuf
deriving DecidableEq, Repr

/-- The snapshot registers `snap_*` (10_state.md R31 to R33). -/
structure Snapshot where
  frame : Half
  temp : Byte
  volt : Half
  fix : Byte
  lat : Word
  lon : Word
  alt : Word
  speed : Half
  sats : Byte
  hh : Byte
  mm : Byte
  ss : Byte
  lock : Bool
  ledEn : Bool
deriving DecidableEq, Repr

/-- What a micro-operation returned to whoever ran it alone (log 5). -/
inductive MicroResult where
  | rtty (r : RttyResult)
  | fsk (r : FskResult)
  | crc (c : Half)
deriving DecidableEq, Repr

/-- The state: the registers of the block (10_state.md R20, with the output `dev_we` of R43), its buffer
space (20_memory.md R60), the input ports as they stand at the coming edge, the parameters, and the
model's own fields `script`, `edge`, `probe`, `result`. -/
structure State where
  /-- the parameters of the instance; no step writes them (log 1) -/
  params : Params
  /-- the input ports at the coming clock edge (10_state.md R35 to R37) -/
  ports : Ports
  /-- the ports at the edges after that, as far as they are written out (log 2) -/
  script : List Ports
  /-- how many edges have passed: the argument of the free value `Config.environment` (log 2) -/
  edge : Nat
  /-- the bytes at the micro-operation port, if one is to be run alone (log 4) -/
  probe : Option (List Byte)
  /-- what the last micro-operation run alone returned (log 5) -/
  result : Option MicroResult
  /-- `mode` (R21) -/
  mode : ModeState
  /-- `buf_sel` (R22) -/
  bufSel : BufSel
  /-- `pkt_len` (R23) -/
  pktLen : Byte
  /-- `frame_counter` (R24) -/
  frameCounter : Half
  /-- `crc_reg` (R25) -/
  crcReg : Half
  /-- `snap_*` (R31 to R33) -/
  snap : Snapshot
  /-- the buffer space: the bytes that are not 0x00, by address, rising (20_memory.md R60, R63) -/
  mem : List Host.Cell
  /-- `tx_on` (R27) -/
  txOn : Bool
  /-- `tx_enable` (R28) -/
  txEnable : Bool
  /-- `cursor` (R29) -/
  cursor : Byte
  /-- `delay_cnt` (R30) -/
  delayCnt : Half
  /-- `prestart_cnt` (R38) -/
  prestartCnt : Byte
  /-- `bit_idx` (R39) -/
  bitIdx : Nibble
  /-- `sym_idx` (R40) -/
  symIdx : Nibble
  /-- `dev_reg` (R42) -/
  devReg : Byte
  /-- `dev_we`, as it shows in the cycle after an edge (R43) -/
  devWe : Bool
  /-- `mark_led` (R44) -/
  markLed : Bool
  /-- `radio_en` (R46) -/
  radioEn : Bool
deriving DecidableEq, Repr

/-- Why the machine stops. -/
inductive Fault where
  /-- `fault AddressFault`: an access at a buffer offset of 128 or above (20_memory.md R65). Raised by the
  buffer reads of `TICK.RTTY`, `TICK.FSK4`, `TICK.FSK2` and the buffer writes of `FMT.RTTY`, `FMT.FSK`
  and the sequencer operations that call them. Safe: the spec gives the step no meaning. -/
  | addressFault
deriving DecidableEq, Repr

/-- Why a step has no meaning. -/
inductive Refusal where
  /-- raised by an arm of `exec` whose instruction has no meaning yet; none has it now. Safe. -/
  | notModelled (mnemonic : String)
  /-- raised by `TICK.RSVD`, a tick with `tx_on = 1` in `Startup`: a model refuses the step and names it
  (44_tick_engine.md R199). Safe. -/
  | tickRsvd
  /-- raised by `step` where the parameters are outside the ranges of 00_scope.md R8
  (93_implementation_defined.md U7: refuse). Safe. -/
  | illegalParameters
  /-- raised by `step` where the bytes at the model's own micro-operation port are no micro-operation
  (log 4). Safe: no hardware has the port. -/
  | undecodable (why : Reject)
  /-- raised by `step` where `FMT.RTTY` or `FMT.FSK` stands at the model's own micro-operation port while a
  packet is on air: a model that adds a writer of the buffers must keep 70_reset_and_hazards.md R266
  (log 15). Safe: the operation selected by a clock edge never meets it. -/
  | bufferOnAir
deriving DecidableEq, Repr

/-- The snapshot registers after reset (10_state.md R52): `snap_led_en` 1, every other one 0. -/
def Snapshot.reset : Snapshot where
  frame := 0
  temp := 0
  volt := 0
  fix := 0
  lat := 0
  lon := 0
  alt := 0
  speed := 0
  sats := 0
  hh := 0
  mm := 0
  ss := 0
  lock := false
  ledEn := true

/-- The state right after reset of the instance with parameters `p` (10_state.md R52), the environment
and the model's own fields at the values of logs 2 to 5. -/
def State.resetWith (p : Params) : State where
  params := p
  ports := Ports.idle
  script := []
  edge := 0
  probe := none
  result := none
  mode := .startup
  bufSel := .rttyBuf
  pktLen := 0
  frameCounter := 0
  crcReg := 0xFFFF
  snap := Snapshot.reset
  mem := []
  txOn := false
  txEnable := true
  cursor := 0
  delayCnt := 0
  prestartCnt := 0
  bitIdx := 0
  symIdx := 0
  devReg := 0
  devWe := false
  markLed := false
  radioEn := false

/-- The machine right after reset, of the instance `Config.nominal` (log 1). -/
def State.reset : State := State.resetWith Config.nominal

end Sys2Proof.Machine
end

