-- ==== Sys2Proof/Machine/Ops.lean ====
section
/-! DEFINITION. The shared operations: sequencing of outcomes, the buffer space (20_memory.md), and the
registers that several operations write: the deviation output, end of packet, the delay, arming, reset.
The block takes no exception (60_exceptions.md R230), so there is no exception entry and no return. -/

namespace Sys2Proof.Machine

/-- The outcome of an operation. -/
abbrev Res := Host.Outcome State Fault Refusal

/-- First one part, then the next on what it left; a stop stays a stop. -/
def andThen (o : Res) (f : State → Res) : Res :=
  match o with
  | .next s => f s
  | .fault r => .fault r
  | .refused r => .refused r

/-! ## The buffer space -/

/-- What an address that is not listed reads as: the reset value of a buffer byte (20_memory.md R63). -/
def unlistedByte : Byte := 0x00

/-- `MemRead(addr, 1)` (20_memory.md R63). -/
def memRead : List Host.Cell → Nat → Byte
  | [], _ => unlistedByte
  | (k, v) :: rest, a => if a = k then v else memRead rest a

/-- `MemWrite(addr, 1, v)` (20_memory.md R64), in the canonical form: rising addresses, and no entry for a
byte that an unlisted address reads as. -/
def memWrite : List Host.Cell → Nat → Byte → List Host.Cell
  | [], a, v => if v = unlistedByte then [] else [(a, v)]
  | (k, w) :: rest, a, v =>
    if a < k then if v = unlistedByte then (k, w) :: rest else (a, v) :: (k, w) :: rest
    else if a = k then if v = unlistedByte then rest else (a, v) :: rest
    else (k, w) :: memWrite rest a v

/-- The canonical form, above a lower bound of the addresses. -/
def wfFrom (lo : Nat) : List Host.Cell → Bool
  | [] => true
  | (k, v) :: rest => lo ≤ k && k < 256 && v != unlistedByte && wfFrom (k + 1) rest

/-- The canonical form of the buffer space: addresses 0x00 to 0xFF (20_memory.md R60) strictly rising, no
entry equal to what an unlisted address reads as. -/
def Memory.wf (m : List Host.Cell) : Bool := wfFrom 0 m

/-- `base(buf_sel)` (20_memory.md R61). -/
def BufSel.base : BufSel → Nat
  | .rttyBuf => 0x00
  | .fskBuf => 0x80

/-- `base(buf_sel) + offset`; an offset of 128 or more is no address (20_memory.md R61, R65). -/
def bufAddr (sel : BufSel) (offset : Nat) : Option Nat :=
  if offset < 128 then some (sel.base + offset) else none

/-- The byte at an offset of the selected buffer, or none where there is no such address. -/
def bufRead (s : State) (offset : Nat) : Option Byte :=
  match bufAddr s.bufSel offset with
  | some a => some (memRead s.mem a)
  | none => none

/-- Write bytes at an offset and the ones after it, in increasing offset (20_memory.md R67); none where an
offset is no address. -/
def bufWrite (m : List Host.Cell) (sel : BufSel) (offset : Nat) : List Byte → Option (List Host.Cell)
  | [] => some m
  | b :: rest =>
    match bufAddr sel offset with
    | some a => bufWrite (memWrite m a b) sel (offset + 1) rest
    | none => none

/-! ## Registers that several operations write -/

/-- At the start of a tick operation no `DEV_WRITE` has happened in it (10_state.md R43). -/
def clearDevWe (s : State) : State := { s with devWe := false }

/-- `DEV_WRITE(v)` (44_tick_engine.md R195). -/
def devWriteOp (v : Byte) (s : State) : State :=
  { s with
    devReg := if s.ports.disableArmed then s.devReg else v
    devWe := !s.ports.disableArmed }

/-- `mark_led <- v`, skipped while `disable_armed` is 1 (44_tick_engine.md R185, R197). -/
def setMarkLed (v : Bool) (s : State) : State :=
  { s with markLed := if s.ports.disableArmed then s.markLed else v }

/-- `END_PACKET` (44_tick_engine.md R196). -/
def endPacketOp (s : State) : State := { s with txOn := false, delayCnt := s.params.txDelayTicks }

/-- `DELAY.STEP` (44_tick_engine.md R198). -/
def delayStepOp (s : State) : State :=
  if !s.txOn && !s.txEnable then
    if s.delayCnt ≤ 1 then { s with delayCnt := 0, txEnable := true } else { s with delayCnt := s.delayCnt - 1 }
  else s

/-- `ARM` (45_sequencer.md R216). -/
def armOp (s : State) : State :=
  { s with
    txOn := true
    txEnable := false
    cursor := 0
    prestartCnt := s.params.preStartBits
    bitIdx := 0
    symIdx := 0
    radioEn := true }

/-- `RESET`: every register takes its reset value (70_reset_and_hazards.md R260); the parameters, the
environment's ports and the model's own fields are no registers of the block (R261). -/
def resetOp (s : State) : State :=
  { State.resetWith s.params with
    ports := s.ports
    script := s.script
    edge := s.edge
    probe := s.probe
    result := s.result }

/-- `mode <- m` (10_state.md R21). -/
def setMode (m : ModeState) (s : State) : State := { s with mode := m }

/-- What a micro-operation run alone returned (log 5). -/
def setResult (r : MicroResult) (s : State) : State := { s with result := some r }

/-- The request at the micro-operation port is taken (log 4). -/
def takeProbe (s : State) : State := { s with probe := none }

/-- The environment drives the ports for the next edge: the next entry of the script, else anything (log 2). -/
def advanceInputs (s : State) : State :=
  { s with
    ports := match s.script with
      | [] => Config.environment s.edge
      | p :: _ => p
    script := s.script.tail
    edge := s.edge + 1 }

end Sys2Proof.Machine
end

