-- ==== Sys2Proof/Machine/Operands.lean ====
section
/-! DEFINITION. Operand assembly: the control word (30_encoding.md R80), the deviation values (R88), the
bytes a tick operation reads, and the output ports (10_state.md R42 to R47). -/

namespace Sys2Proof.Machine

/-- The control word of the coming edge, from three ports and three registers (30_encoding.md R80). -/
def controlWord (s : State) : ControlWord :=
  packCw s.ports.rst s.ports.tick s.ports.seqEn s.txOn s.txEnable s.mode

/-- The byte at the cursor in the selected buffer (10_state.md R29). -/
def byteAtCursor (s : State) : Option Byte := bufRead s s.cursor.toNat

/-- The value written for a mark: `RTTY_MARK_DEV` (30_encoding.md R88). -/
def markDev (s : State) : Byte := s.params.rttyMarkDev

/-- The value written for a space: zero deviation (30_encoding.md R88). -/
def spaceDev : Byte := 0

/-- The value written for an FSK result: `zext_8` of its bits 1:0 (30_encoding.md R88). -/
def symbolDev (r : FskResult) : Byte := r.sym.zeroExtend 8

/-- The outputs of the block: `dev_reg`, `dev_we`, `mark_led`, `led_mark_o`, `radio_en`, and the status
outputs (10_state.md R42 to R47). -/
structure Outputs where
  devReg : Byte
  devWe : Bool
  markLed : Bool
  ledMarkO : Bool
  radioEn : Bool
  txOn : Bool
  txEnable : Bool
  mode : ModeState
  snapLock : Bool
  snapLedEn : Bool
  frameCounter : Half
  crcReg : Half
deriving DecidableEq, Repr

end Sys2Proof.Machine
end

