-- ==== Sys2Proof/Machine/Flags.lean ====
section
/-! DEFINITION. The one-bit conditions the rules compute. The block has no condition codes
(10_state.md R48). -/

namespace Sys2Proof.Machine

/-- The sequencer's guard `G`: not transmitting and ready to transmit (45_sequencer.md R215). -/
def guard (s : State) : Bool := !s.txOn && s.txEnable

/-- A GPS lock: the sampled fix quality is 3 or more (10_state.md R32, 43_formatter.md R151). -/
def lockOf (fix : Byte) : Bool := 3 ≤ fix

/-- The LED-enable flag of a stored altitude: 0 where it is above the threshold, in whole metres truncated
toward zero (10_state.md R33, 43_formatter.md R153). -/
def ledEnOf (thresholdM : Nat) (alt : Word) : Bool := !decide (Int.tdiv alt.toInt 1000 > thresholdM)

/-- `led_mark_o`, the combinational output `mark_led AND snap_led_en` (10_state.md R45). -/
def ledMarkO (s : State) : Bool := s.markLed && s.snap.ledEn

/-- The source's states of the RTTY generator (10_state.md R41). -/
inductive RttyPhase where
  | idlePreStart
  | dataBit
  | ending
deriving DecidableEq, Repr

/-- The generator's state, read off `prestart_cnt` and `bit_idx` (10_state.md R41). -/
def rttyPhase (s : State) : RttyPhase :=
  if s.prestartCnt ≠ 0 ∨ s.bitIdx = 0 then .idlePreStart
  else if s.bitIdx.toNat ≤ s.params.dataBits.toNat + 1 then .dataBit
  else .ending

/-- Every output of the block in a state (10_state.md R42 to R47). -/
def outputs (s : State) : Outputs where
  devReg := s.devReg
  devWe := s.devWe
  markLed := s.markLed
  ledMarkO := ledMarkO s
  radioEn := s.radioEn
  txOn := s.txOn
  txEnable := s.txEnable
  mode := s.mode
  snapLock := s.snap.lock
  snapLedEn := s.snap.ledEn
  frameCounter := s.frameCounter
  crcReg := s.crcReg

end Sys2Proof.Machine
end

