-- ==== Sys2Proof/Machine/Crc.lean ====
section
/-! DEFINITION. The CRC16 streaming checksum (40_crc16.md). -/

namespace Sys2Proof.Machine

/-- The initial register (40_crc16.md R110). -/
def crcInitial : Half := 0xFFFF

/-- The polynomial (40_crc16.md R115). -/
def crcPoly : Half := 0x1021

/-- `CRC.STEP(c)`: the top bit before the shift decides (40_crc16.md R112). -/
def crcStep (c : Half) : Half := if c.getLsbD 15 then (c <<< 1) ^^^ crcPoly else c <<< 1

/-- `n` steps, one after another. -/
def crcSteps : Nat → Half → Half
  | 0, c => c
  | n + 1, c => crcSteps n (crcStep c)

/-- The register after `CRC.BYTE(b)`: `b` into bits 15:8, then 8 steps (40_crc16.md R111). -/
def crcByteOf (c : Half) (b : Byte) : Half := crcSteps 8 (c ^^^ (b ++ 0#8))

/-- The register after `CRC.BYTE` on each byte in order (40_crc16.md R113, R114). -/
def crcOver : Half → List Byte → Half
  | c, [] => c
  | c, b :: rest => crcOver (crcByteOf c b) rest

/-- `CRC.STR` of a byte sequence delimited by its length (40_crc16.md R113). -/
def crcOf (bytes : List Byte) : Half := crcOver crcInitial bytes

/-- A byte sequence up to, and without, its first `NUL` (40_crc16.md R113). -/
def untilNul (bytes : List Byte) : List Byte := bytes.takeWhile (· != 0)

/-- `crc_reg <- c`. -/
def setCrc (c : Half) (s : State) : State := { s with crcReg := c }

/-- `CRC.INIT` (40_crc16.md R110). -/
def execCrcInit (s : State) : Res := .next (setCrc crcInitial s)

/-- `CRC.BYTE(b)` (40_crc16.md R111). -/
def execCrcByte (b : Byte) (s : State) : Res := .next (setCrc (crcByteOf s.crcReg b) s)

/-- `CRC.STR(s)`; it returns `crc_reg` (40_crc16.md R113). -/
def execCrcStr (bytes : List Byte) (s : State) : Res :=
  .next (setResult (.crc (crcOf (untilNul bytes))) (setCrc (crcOf (untilNul bytes)) s))

end Sys2Proof.Machine
end

