-- ==== Sys2Proof/Machine/Formatter.lean ====
section
/-! DEFINITION. Snapshot capture and the two packet formatters (43_formatter.md). -/

namespace Sys2Proof.Machine

/-! ## Snapshot capture -/

/-- The snapshot `SNAP.CAPTURE` takes of the data ports, `frame` being the counter already incremented
(43_formatter.md R150 to R153). -/
def snapshotOf (p : Params) (io : Ports) (frame : Half) : Snapshot :=
  let lock := lockOf io.gps.fix
  let alt := if lock || !p.nofixZeroAlt then io.gps.alt else 0
  { frame := frame
    temp := io.temp
    volt := io.volt
    fix := io.gps.fix
    lat := if lock then io.gps.lat else 0
    lon := if lock then io.gps.lon else 0
    alt := alt
    speed := io.gps.speed
    sats := io.gps.sats
    hh := io.gps.hh
    mm := io.gps.mm
    ss := io.gps.ss
    lock := lock
    ledEn := ledEnOf p.ledAltThresholdM alt }

/-- `SNAP.CAPTURE` (43_formatter.md R150). -/
def snapCaptureOp (s : State) : State :=
  { s with
    frameCounter := s.frameCounter + 1
    snap := snapshotOf s.params s.ports (s.frameCounter + 1) }

/-! ## Text helpers -/

/-- The ASCII code of a character (00_scope.md R11). -/
def ascii (c : Char) : Byte := BitVec.ofNat 8 c.toNat

/-- A decimal digit (43_formatter.md R155). -/
def digit (n : Nat) : Byte := BitVec.ofNat 8 (0x30 + n)

/-- The digits of `n`, at most as many as the fuel allows. -/
def decDigits : Nat → Nat → List Byte
  | 0, _ => []
  | fuel + 1, n => if n < 10 then [digit n] else decDigits fuel (n / 10) ++ [digit (n % 10)]

/-- `dec_u(n)`: decimal digits, most significant first, no leading zero (43_formatter.md R155). -/
def decU (n : Nat) : List Byte := decDigits (n + 1) n

/-- `dec_s(n)` (43_formatter.md R156). -/
def decS (n : Int) : List Byte := if 0 ≤ n then decU n.natAbs else ascii '-' :: decU n.natAbs

/-- `pad(n, w)`: zeros in front up to `w` characters, never cut (43_formatter.md R157). -/
def pad (n w : Nat) : List Byte := List.replicate (w - (decU n).length) (ascii '0') ++ decU n

/-- `abs32(v)` (00_scope.md R12). -/
def abs32 (x : Word) : Nat := x.toInt.natAbs

/-- `coord(x)` of a 1e7-scaled coordinate (43_formatter.md R158). -/
def coord (x : Word) : List Byte :=
  (if x.toInt < 0 then [ascii '-'] else []) ++ decU (abs32 x / 10000000) ++ [ascii '.']
    ++ pad (abs32 x % 10000000 / 1000) 4

/-- A nibble as an upper-case hexadecimal character (43_formatter.md R163). -/
def hexDigit (n : BitVec 4) : Byte := if n.toNat < 10 then digit n.toNat else BitVec.ofNat 8 (0x41 + (n.toNat - 10))

/-- `hex4(c)`: four nibbles, the most significant first (43_formatter.md R163). -/
def hex4 (c : Half) : List Byte :=
  [hexDigit (c.extractLsb' 12 4), hexDigit (c.extractLsb' 8 4), hexDigit (c.extractLsb' 4 4), hexDigit (c.extractLsb' 0 4)]

/-! ## The sentence -/

/-- The time field (43_formatter.md R162). -/
def timeField (n : Snapshot) : List Byte :=
  pad n.hh.toNat 2 ++ [ascii ':'] ++ pad n.mm.toNat 2 ++ [ascii ':'] ++ pad n.ss.toNat 2

/-- The altitude field: whole metres, truncated toward zero (43_formatter.md R160). -/
def altField (n : Snapshot) : List Byte := decS (Int.tdiv n.alt.toInt 1000)

/-- The voltage field (43_formatter.md R161). -/
def voltField (n : Snapshot) : List Byte := decU (n.volt.toNat * 10)

/-- The ten fields of the sentence body, in order (30_encoding.md R94, 43_formatter.md R158 to R164). -/
def bodyFields (callsign : List Byte) (n : Snapshot) : List (List Byte) :=
  [callsign, decU n.frame.toNat, timeField n, coord n.lat, coord n.lon, altField n, decU n.speed.toNat,
    decU n.sats.toNat, voltField n, decS n.temp.toInt]

/-- Fields joined by single commas (43_formatter.md R164). -/
def joinComma : List (List Byte) → List Byte
  | [] => []
  | [f] => f
  | f :: rest => f ++ ascii ',' :: joinComma rest

/-- `body` of the sentence grammar (30_encoding.md R94). -/
def sentenceBody (callsign : List Byte) (n : Snapshot) : List Byte := joinComma (bodyFields callsign n)

/-- The frame marker, five `$` (30_encoding.md R94). -/
def frameMarker : List Byte := List.replicate 5 (ascii '$')

/-- The sentence without its `NUL`: marker, body, `*`, checksum of the body, newline
(30_encoding.md R94, R95). -/
def sentence (callsign : List Byte) (n : Snapshot) : List Byte :=
  frameMarker ++ sentenceBody callsign n ++ [ascii '*'] ++ hex4 (crcOf (sentenceBody callsign n)) ++ [0x0A]

/-! ## The formatters -/

/-- `FMT.RTTY`: the checksum stays in `crc_reg`, the sentence and its `NUL` go to `RTTY_BUF`, which is
selected (43_formatter.md R165). -/
def fmtRttyOp (s : State) : Res :=
  match bufWrite s.mem .rttyBuf 0 (sentence s.params.callsign s.snap ++ [0x00]) with
  | some m => .next { s with crcReg := crcOf (sentenceBody s.params.callsign s.snap), mem := m, bufSel := .rttyBuf }
  | none => .fault .addressFault

/-- `FMT.FSK`: the test frame goes to `FSK_BUF`, its length to `pkt_len` (43_formatter.md R170). -/
def fmtFskOp (s : State) : Res :=
  match bufWrite s.mem .fskBuf 0 s.params.fskFrame with
  | some m => .next { s with mem := m, pktLen := BitVec.ofNat 8 s.params.fskFrame.length, bufSel := .fskBuf }
  | none => .fault .addressFault

/-- `SNAP.CAPTURE` (43_formatter.md R150). -/
def execSnapCapture (s : State) : Res := .next (snapCaptureOp s)

/-- `FMT.RTTY` (43_formatter.md R165). -/
def execFmtRtty (s : State) : Res := fmtRttyOp s

/-- `FMT.FSK` (43_formatter.md R170). -/
def execFmtFsk (s : State) : Res := fmtFskOp s

end Sys2Proof.Machine
end

