-- ==== Sys2Proof/Machine/Sequencer.lean ====
section
/-! DEFINITION. The sequencer (45_sequencer.md) and `RESET` (70_reset_and_hazards.md). -/

namespace Sys2Proof.Machine

/-- The mode that `FSK_SELECT` names (45_sequencer.md R212). -/
def fskMode : FskSelect → ModeState
  | .fsk4 => .fsk4
  | .fsk2 => .fsk2

/-- `RESET` (70_reset_and_hazards.md R260). -/
def execReset (s : State) : Res := .next (resetOp s)

/-- `SEQ.NONE` (45_sequencer.md R210). -/
def execSeqNone (s : State) : Res := .next s

/-- `SEQ.STARTUP`: capture, `mode <- Rtty`, format, arm, in order (45_sequencer.md R211). -/
def execSeqStartup (s : State) : Res :=
  andThen (fmtRttyOp (setMode .rtty (snapCaptureOp s))) (fun t => .next (armOp t))

/-- `SEQ.FSK`: `mode <- FSK_SELECT`, format, arm, in order (45_sequencer.md R212). -/
def execSeqFsk (s : State) : Res :=
  andThen (fmtFskOp (setMode (fskMode s.params.fskSelect) s)) (fun t => .next (armOp t))

/-- `SEQ.WRAP`: `mode <- Startup` (45_sequencer.md R213). -/
def execSeqWrap (s : State) : Res := .next (setMode .startup s)

/-- `SEQ.WAIT` while a packet is on air (45_sequencer.md R214). -/
def execSeqWaitTransmitting (s : State) : Res := .next s

/-- `SEQ.WAIT` during the inter-packet delay (45_sequencer.md R214). -/
def execSeqWaitDelay (s : State) : Res := .next s

/-- `ARM` (45_sequencer.md R216). -/
def execArm (s : State) : Res := .next (armOp s)

end Sys2Proof.Machine
end

