-- ==== Sys2Proof/Machine/Fsk.lean ====
section
/-! DEFINITION. The 4-level and 2-level FSK symbol mappers, `FSK4.NEXT` and `FSK2.NEXT`
(42_fsk_mappers.md). -/

namespace Sys2Proof.Machine

/-- The 2-bit field of `b` numbered `i` in sending order (42_fsk_mappers.md R137). -/
def fsk4Field (msbFirst : Bool) (b : Byte) (i : Nat) : BitVec 2 :=
  if msbFirst then b.extractLsb' (6 - 2 * i) 2 else b.extractLsb' (2 * i) 2

/-- The bit of `b` numbered `i` in sending order, as a 2-bit symbol (42_fsk_mappers.md R141). -/
def fsk2Field (msbFirst : Bool) (b : Byte) (i : Nat) : BitVec 2 :=
  if msbFirst then (b.extractLsb' (7 - i) 1).zeroExtend 2 else (b.extractLsb' i 1).zeroExtend 2

/-- A mapper of `count` symbols a byte: `NoSym` once they are exhausted, or if `sym_idx` is out of range
(42_fsk_mappers.md R135, R136, R139, R140); else the next symbol. -/
def mapperNext (count : Nat) (field : Bool → Byte → Nat → BitVec 2) (b : Byte) (s : State) : FskResult × State :=
  if count ≤ s.symIdx.toNat then (.noSym, { s with symIdx := 0 })
  else (.symbol (field s.params.fskMsbFirst b s.symIdx.toNat), { s with symIdx := s.symIdx + 1 })

/-- `FSK4.NEXT(b)` (42_fsk_mappers.md R135). -/
def fsk4NextOp : Byte → State → FskResult × State := mapperNext 4 fsk4Field

/-- `FSK2.NEXT(b)` (42_fsk_mappers.md R139). -/
def fsk2NextOp : Byte → State → FskResult × State := mapperNext 8 fsk2Field

/-- `FSK4.NEXT(b)` run alone: the result code goes to `result` (30_encoding.md R87, log 5). -/
def execFsk4Next (b : Byte) (s : State) : Res := .next (setResult (.fsk (fsk4NextOp b s).1) (fsk4NextOp b s).2)

/-- `FSK2.NEXT(b)` run alone: the result code goes to `result` (30_encoding.md R87, log 5). -/
def execFsk2Next (b : Byte) (s : State) : Res := .next (setResult (.fsk (fsk2NextOp b s).1) (fsk2NextOp b s).2)

end Sys2Proof.Machine
end

