-- ==== Sys2Proof/Machine/Rtty.lean ====
section
/-! DEFINITION. The RTTY bit-framer, `RTTY.NEXT` (41_rtty_framer.md). -/

namespace Sys2Proof.Machine

/-- `RTTY.NEXT(b)`: the result, and the state with `prestart_cnt` and `bit_idx` advanced. The sub-cases in
the order of 41_rtty_framer.md R120; a `bit_idx` out of range ends the character (R120, R125). -/
def rttyNextOp (b : Byte) (s : State) : RttyResult × State :=
  if s.prestartCnt ≠ 0 then (.one, { s with prestartCnt := s.prestartCnt - 1 })
  else if s.bitIdx = 0 then (.zero, { s with bitIdx := 1 })
  else if s.bitIdx.toNat ≤ s.params.dataBits.toNat then
    (if b.getLsbD (s.bitIdx.toNat - 1) then .one else .zero, { s with bitIdx := s.bitIdx + 1 })
  else if s.bitIdx.toNat = s.params.dataBits.toNat + 1 then (.one, { s with bitIdx := s.bitIdx + 1 })
  else (.fin, { s with bitIdx := 0 })

/-- `RTTY.NEXT(b)` run alone: the result code goes to `result` (30_encoding.md R86, log 5). -/
def execRttyNext (b : Byte) (s : State) : Res :=
  .next (setResult (.rtty (rttyNextOp b s).1) (rttyNextOp b s).2)

end Sys2Proof.Machine
end

