-- ==== Sys2Proof/Machine/Tick.lean ====
section
/-! DEFINITION. The tick engine (44_tick_engine.md): a modulation step, then `DELAY.STEP` (R194). -/

namespace Sys2Proof.Machine

/-- A mark: `DEV_WRITE(RTTY_MARK_DEV)` and `mark_led <- 1` (44_tick_engine.md R185). -/
def markSymbol (s : State) : State := setMarkLed true (devWriteOp (markDev s) s)

/-- A space: `DEV_WRITE(0)` and `mark_led <- 0` (44_tick_engine.md R185). -/
def spaceSymbol (s : State) : State := setMarkLed false (devWriteOp spaceDev s)

/-- `cursor <- cursor + 1`. -/
def advanceCursor (s : State) : State := { s with cursor := s.cursor + 1 }

/-- What `TICK.RTTY` does on the generator's `End`: advance, then end the packet at a `NUL`, and otherwise
query again in the same tick only if `RTTY_END_REQUERY` (44_tick_engine.md R184, R186). `offset` is the
offset of the advanced cursor. -/
def rttyCharacterEnd (offset : Nat) (s : State) : Res :=
  match bufRead s offset with
  | none => .fault .addressFault
  | some b2 =>
    if b2 = 0 then .next (endPacketOp (advanceCursor s))
    else if s.params.rttyEndRequery then .next (spaceSymbol (rttyNextOp b2 (advanceCursor s)).2)
    else .next (advanceCursor s)

/-- What `TICK.RTTY` does on each result of the generator (44_tick_engine.md R184, R185). `offset` is the
offset after the cursor's. -/
def rttyOnResult (offset : Nat) : RttyResult → State → Res
  | .one, s => .next (markSymbol s)
  | .zero, s => .next (spaceSymbol s)
  | .fin, s => rttyCharacterEnd offset s

/-- The modulation step of `TICK.RTTY` (44_tick_engine.md R182 to R186). -/
def rttyModulation (s : State) : Res :=
  match byteAtCursor s with
  | none => .fault .addressFault
  | some b =>
    if s.bitIdx = 0 ∧ b = 0 then .next (endPacketOp s)
    else rttyOnResult (s.cursor.toNat + 1) (rttyNextOp b s).1 (rttyNextOp b s).2

/-- What an FSK tick does on `NoSym`: advance, then end the packet at `pkt_len`, and otherwise query again in
the same tick (44_tick_engine.md R189). `offset` is the advanced cursor. -/
def fskByteEnd (gen : Byte → State → FskResult × State) (offset : Nat) (s : State) : Res :=
  if offset = s.pktLen.toNat then .next (endPacketOp (advanceCursor s))
  else match bufRead s offset with
    | none => .fault .addressFault
    | some b2 => .next (devWriteOp (symbolDev (gen b2 (advanceCursor s)).1) (gen b2 (advanceCursor s)).2)

/-- What an FSK tick does on each result of its generator (44_tick_engine.md R189, R190). `offset` is the
offset after the cursor's. -/
def fskOnResult (gen : Byte → State → FskResult × State) (offset : Nat) : FskResult → State → Res
  | .noSym, s => fskByteEnd gen offset s
  | .symbol sym, s => .next (devWriteOp (symbolDev (.symbol sym)) s)

/-- The modulation step of `TICK.FSK4` and `TICK.FSK2`, which differ in the generator only
(44_tick_engine.md R187 to R191). -/
def fskModulation (gen : Byte → State → FskResult × State) (s : State) : Res :=
  if s.cursor = s.pktLen then .next (endPacketOp s)
  else match byteAtCursor s with
    | none => .fault .addressFault
    | some b => fskOnResult gen (s.cursor.toNat + 1) (gen b s).1 (gen b s).2

/-- A tick: the modulation step, then `DELAY.STEP` on what it left (44_tick_engine.md R194). -/
def tickWith (modulation : State → Res) (s : State) : Res :=
  andThen (modulation (clearDevWe s)) (fun t => .next (delayStepOp t))

/-- `TICK.NONE`: no tick; `dev_we` is 0 after the edge (44_tick_engine.md R180). -/
def execTickNone (s : State) : Res := .next (clearDevWe s)

/-- `TICK.IDLE`: no modulation step, then `DELAY.STEP` (44_tick_engine.md R181). -/
def execTickIdle (s : State) : Res := tickWith .next s

/-- `TICK.RSVD`: refused, by name (44_tick_engine.md R199). -/
def execTickRsvd (_s : State) : Res := .refused .tickRsvd

/-- `TICK.RTTY` (44_tick_engine.md R182). -/
def execTickRtty (s : State) : Res := tickWith rttyModulation s

/-- `TICK.FSK4` (44_tick_engine.md R187). -/
def execTickFsk4 (s : State) : Res := tickWith (fskModulation fsk4NextOp) s

/-- `TICK.FSK2` (44_tick_engine.md R191). -/
def execTickFsk2 (s : State) : Res := tickWith (fskModulation fsk2NextOp) s

/-- `END_PACKET` (44_tick_engine.md R196). -/
def execEndPacket (s : State) : Res := .next (endPacketOp s)

/-- `DEV_WRITE(v)` (44_tick_engine.md R195). -/
def execDevWrite (v : Byte) (s : State) : Res := .next (devWriteOp v s)

/-- `DELAY.STEP` (44_tick_engine.md R198). -/
def execDelayStep (s : State) : Res := .next (delayStepOp s)

end Sys2Proof.Machine
end

