-- ==== Sys2Proof/Machine/Dispatch.lean ====
section
/-! DEFINITION. One arm per operation. The letter fields of a control word take no part in what the
operation does (30_encoding.md R83). -/

namespace Sys2Proof.Machine

def exec (i : Instr) (s : State) : Host.Outcome State Fault Refusal :=
  match i with
  | .reset _ _ _ _ _ => Sys2Proof.Machine.execReset s
  | .tickNone _ _ _ _ => Sys2Proof.Machine.execTickNone s
  | .tickIdle _ _ _ => Sys2Proof.Machine.execTickIdle s
  | .tickRsvd _ _ => Sys2Proof.Machine.execTickRsvd s
  | .tickRtty _ _ => Sys2Proof.Machine.execTickRtty s
  | .tickFsk4 _ _ => Sys2Proof.Machine.execTickFsk4 s
  | .tickFsk2 _ _ => Sys2Proof.Machine.execTickFsk2 s
  | .seqNone _ _ _ _ => Sys2Proof.Machine.execSeqNone s
  | .seqStartup _ => Sys2Proof.Machine.execSeqStartup s
  | .seqFsk _ => Sys2Proof.Machine.execSeqFsk s
  | .seqWrap _ _ => Sys2Proof.Machine.execSeqWrap s
  | .seqWaitTransmitting _ _ _ => Sys2Proof.Machine.execSeqWaitTransmitting s
  | .seqWaitDelay _ _ => Sys2Proof.Machine.execSeqWaitDelay s
  | .crcInit => Sys2Proof.Machine.execCrcInit s
  | .crcByte b => Sys2Proof.Machine.execCrcByte b s
  | .crcStr bytes => Sys2Proof.Machine.execCrcStr bytes s
  | .rttyNext b => Sys2Proof.Machine.execRttyNext b s
  | .fsk4Next b => Sys2Proof.Machine.execFsk4Next b s
  | .fsk2Next b => Sys2Proof.Machine.execFsk2Next b s
  | .snapCapture => Sys2Proof.Machine.execSnapCapture s
  | .fmtRtty => Sys2Proof.Machine.execFmtRtty s
  | .fmtFsk => Sys2Proof.Machine.execFmtFsk s
  | .arm => Sys2Proof.Machine.execArm s
  | .endPacket => Sys2Proof.Machine.execEndPacket s
  | .devWrite v => Sys2Proof.Machine.execDevWrite v s
  | .delayStep => Sys2Proof.Machine.execDelayStep s

end Sys2Proof.Machine
end

