-- ==== Sys2Proof/Machine/Clock.lean ====
section
/-! DEFINITION. One clock edge (30_encoding.md R81, 60_exceptions.md R238), the model's micro-operation
port (log 4), and how a word of the operation map comes to be the next one performed (log 6). -/

namespace Sys2Proof.Machine

/-- Operations one after another, each on what the one before it left. -/
def runOps : List Instr → State → Res
  | [], s => .next s
  | i :: rest, s => andThen (exec i s) (runOps rest)

/-- A clock edge: the control word is formed from the pre-state, the operations it selects are applied in
order, and the environment then drives the ports for the next edge (60_exceptions.md R238). -/
def clockEdge (s : State) : Res :=
  andThen (runOps (decodeEdge (controlWord s)) s) (fun t => .next (advanceInputs t))

/-- The operations that write the buffers and their identity (70_reset_and_hazards.md R266). -/
def writesBuffers : Instr → Bool
  | .fmtRtty | .fmtFsk | .seqStartup _ | .seqFsk _ | .reset _ _ _ _ _ => true
  | .tickNone _ _ _ _ | .tickIdle _ _ _ | .tickRsvd _ _ | .tickRtty _ _ | .tickFsk4 _ _ | .tickFsk2 _ _
  | .seqNone _ _ _ _ | .seqWrap _ _ | .seqWaitTransmitting _ _ _ | .seqWaitDelay _ _ | .crcInit | .crcByte _ | .crcStr _
  | .rttyNext _ | .fsk4Next _ | .fsk2Next _ | .snapCapture | .arm | .endPacket | .devWrite _ | .delayStep => false

/-- A micro-operation run alone: the bytes at the port are taken and the operation they name is performed.
It is no clock edge (DESIGN CHOICE, log 4). A formatter is refused while a packet is on air, since a writer of
the buffers that the model adds must keep 70_reset_and_hazards.md R266 (log 15). -/
def runProbe (bytes : List Byte) (s : State) : Res :=
  match decode .m bytes with
  | .ok (i, _) => if s.txOn && writesBuffers i then .refused .bufferOnAir else exec i (takeProbe s)
  | .error why => .refused (.undecodable why)

/-- A step of an instance whose parameters are legal; others are refused (93_implementation_defined.md U7). -/
def performStep (s : State) : Res :=
  if s.params.legal then
    match s.probe with
    | some bytes => runProbe bytes s
    | none => clockEdge s
  else .refused .illegalParameters

/-- The state in which a control word is the coming edge's: three ports and three registers
(30_encoding.md R80). -/
def placeControlWord (cw : ControlWord) (s : State) : State :=
  { s with
    probe := none
    ports := { s.ports with rst := cwRst cw, tick := cwTick cw, seqEn := cwSeqEn cw }
    txOn := cwTxOn cw
    txEnable := cwTxEnable cw
    mode := cwMode cw }

/-- The state in which a word of the table is the next one performed: a micro-operation's bytes stand at its
port, a control word is formed by ports and registers (log 6). -/
def placeWord (s : State) (nbits w : Nat) : State :=
  if tableWordIsMicro nbits w then { s with probe := some (tableBytes nbits w) }
  else placeControlWord (BitVec.ofNat 7 w) s

end Sys2Proof.Machine
end

