-- ==== Sys2Proof/Machine/Step.lean ====
section
/-! DEFINITION. The step of the machine, and the placing of a word of the operation map. -/

namespace Sys2Proof.Machine

/-- One step: a clock edge, or a micro-operation that stands at the model's own port. -/
def step (s : State) : Host.Outcome State Fault Refusal := performStep s

/-- The state in which the next step performs the operation that a word of spec/opcode_table.json stands for
(log 6). -/
def State.withFetchWord (s : State) (nbits w : Nat) : State := placeWord s nbits w

end Sys2Proof.Machine
end

