-- ==== Sys2Proof/Safety.lean ====
section
/-! DEFINITION. What claims call a good state and a safe step: the invariants of 10_state.md R49, and a step
that neither faults nor refuses (60_exceptions.md R235: neither is reachable from reset). -/

namespace Sys2Proof.Safety

open Sys2Proof.Machine

/-- R49 (a): the two flags are never both 1. -/
abbrev FlagsExclusive (s : State) : Prop := ¬(s.txOn = true ∧ s.txEnable = true)

/-- R49 (b): a packet on air is RTTY or FSK, and the selected buffer is its. -/
abbrev PacketMatchesMode (s : State) : Prop :=
  s.txOn = true → s.mode ≠ .startup ∧ (s.bufSel = .rttyBuf ↔ s.mode = .rtty)

/-- R49 (c): ready to transmit means the delay has run out. -/
abbrev ReadyMeansNoDelay (s : State) : Prop := s.txOn = false → s.txEnable = true → s.delayCnt = 0

/-- R49 (d): the RTTY packet on air has its `NUL` at some offset from the cursor to 127, and the cursor stands
on it only before the first tick of a zero-length packet. -/
abbrev RttyCursorInPacket (s : State) : Prop :=
  s.txOn = true → s.mode = .rtty →
    s.cursor.toNat ≤ 127
      ∧ (∃ k ∈ List.range 128, s.cursor.toNat ≤ k ∧ bufRead s k = some 0)
      ∧ (byteAtCursor s = some 0 → s.cursor = 0 ∧ s.bitIdx = 0)

/-- R49 (e): the FSK packet on air fits its buffer, and the cursor stands at its end only if it is empty and
no symbol has been sent. -/
abbrev FskCursorInPacket (s : State) : Prop :=
  s.txOn = true → (s.mode = .fsk4 ∨ s.mode = .fsk2) →
    s.cursor.toNat ≤ s.pktLen.toNat ∧ s.pktLen.toNat ≤ 128
      ∧ (s.cursor = s.pktLen → s.pktLen = 0 ∧ s.symIdx = 0)

/-- R49 (f): the generator positions stay in their ranges. -/
abbrev PositionsInRange (s : State) : Prop :=
  s.bitIdx.toNat ≤ s.params.dataBits.toNat + 2
    ∧ (s.mode = .fsk4 → s.symIdx.toNat ≤ 4) ∧ (s.mode = .fsk2 → s.symIdx.toNat ≤ 8)

/-- R49 (g): between packets both generators are at the start. -/
abbrev PositionsZeroBetweenPackets (s : State) : Prop := s.txOn = false → s.bitIdx = 0 ∧ s.symIdx = 0

/-- The generator that the packet on air does not use is at its start. R49 (g) and `ARM` imply it; it is
what makes R49 inductive. -/
abbrev IdleGeneratorZero (s : State) : Prop :=
  s.txOn = true → (s.mode = .rtty → s.symIdx = 0) ∧ (s.mode ≠ .rtty → s.bitIdx = 0)

/-- The invariants of 10_state.md R49, (a) to (g). -/
structure SpecInvariants (s : State) : Prop where
  flagsExclusive : FlagsExclusive s
  packetMatchesMode : PacketMatchesMode s
  readyMeansNoDelay : ReadyMeansNoDelay s
  rttyCursorInPacket : RttyCursorInPacket s
  fskCursorInPacket : FskCursorInPacket s
  positionsInRange : PositionsInRange s
  positionsZeroBetweenPackets : PositionsZeroBetweenPackets s

/-- A good state: the invariants of R49, strengthened to be inductive, legal parameters (00_scope.md R8), a
buffer space in canonical form, and nothing at the model's own micro-operation port. -/
structure Inv (s : State) : Prop where
  spec : SpecInvariants s
  idleGeneratorZero : IdleGeneratorZero s
  paramsLegal : s.params.legal = true
  memoryWf : Memory.wf s.mem = true
  noProbe : s.probe = none

/-- A step that goes on: it neither faults nor refuses. -/
abbrev StepGoesOn (s : State) : Prop := ∃ t, step s = .next t

/-- The same operation performed a number of times, one after another. -/
def execTimes (i : Instr) : Nat → State → Res
  | 0, s => .next s
  | n + 1, s => andThen (exec i s) (execTimes i n)

/-- `v`, or the old value while `disable_armed` is 1 (44_tick_engine.md R197). -/
abbrev unlessDisarmed {α : Type} (s : State) (old v : α) : α := if s.ports.disableArmed then old else v

/-- `delay_cnt` after `END_PACKET` and the `DELAY.STEP` of the same tick (44_tick_engine.md R196, R198). -/
abbrev delayAfterEnd (s : State) : Half :=
  if s.txEnable then s.params.txDelayTicks
  else if s.params.txDelayTicks ≤ 1 then 0 else s.params.txDelayTicks - 1

/-- `tx_enable` after `END_PACKET` and the `DELAY.STEP` of the same tick (44_tick_engine.md R196, R198). -/
abbrev enableAfterEnd (s : State) : Bool := s.txEnable || decide (s.params.txDelayTicks ≤ 1)

/-- Whether a byte is a decimal digit. -/
abbrev isDigit (b : Byte) : Prop := 0x30 ≤ b.toNat ∧ b.toNat ≤ 0x39

/-- The number that decimal digits stand for, most significant first. -/
def decValue (digits : List Byte) : Nat := digits.foldl (fun n b => n * 10 + (b.toNat - 0x30)) 0

/-- The data input ports driven with other values (10_state.md R36). -/
def withData (gps : GpsFix) (volt : Half) (temp : Byte) (s : State) : State :=
  { s with ports := { s.ports with gps := gps, volt := volt, temp := temp } }

/-- What a packet on air protects (45_sequencer.md R218): mode, buffer identity, packet length and the buffer
bytes are as they were. -/
structure BufferFrame (s t : State) : Prop where
  mode : t.mode = s.mode
  bufSel : t.bufSel = s.bufSel
  pktLen : t.pktLen = s.pktLen
  mem : t.mem = s.mem

/-- The registers that `ARM` loads have their loaded values (45_sequencer.md R216). -/
structure Armed (s t : State) : Prop where
  txOn : t.txOn = true
  txEnable : t.txEnable = false
  cursor : t.cursor = 0
  prestartCnt : t.prestartCnt = s.params.preStartBits
  bitIdx : t.bitIdx = 0
  symIdx : t.symIdx = 0
  radioEn : t.radioEn = true

end Sys2Proof.Safety
end

