-- ==== Sys2Proof/Certificates/Slice0/Obligations.lean ====
section
/-! DEFINITION. The statements for the provers. Where a statement's conclusion is an equation
`exec … = .next (a record update of s)`, it is also the operation's frame: every field the update does not name,
every register, port and byte of the buffer space, is as before. -/

open Sys2Proof Sys2Proof.Machine Sys2Proof.Safety

/-! ## Encodings -/

/-- Decoding what was encoded gives every well-formed operation back, with every operand, whatever bytes follow
(30_encoding.md sections 1; the place of a micro-operation's operand is the model's choice, log 4). -/
def Obligations.DecodeOfEncodeIsTheOperation : Prop :=
  ∀ (i : Instr) (rest : List Byte), i.wf = true → decode i.format (encode i ++ rest) = .ok (i, rest)

/-- What decodes is the encoding of what it decodes to, and well-formed: no two byte strings of a format stand for
one operation (30_encoding.md section 1; log 4). -/
def Obligations.DecodedBytesAreTheEncoding : Prop :=
  ∀ (f : Format) (bytes : List Byte) (i : Instr) (rest : List Byte), decode f bytes = .ok (i, rest) →
    i.format = f ∧ i.wf = true ∧ bytes = encode i ++ rest

/-- R83: each pattern selects its operation, whatever the letter fields are, and with `r = 0` each decoder is
total. -/
def Obligations.OperationMapSelectsEachPattern : Prop :=
  (∀ t q o e m, decodeEdge (packCw true t q o e m) = [.reset t q o e m])
  ∧ (∀ q o e m, decodeTickCw (packCw false false q o e m) = .ok (.tickNone q o e m))
  ∧ (∀ q e m, decodeTickCw (packCw false true q false e m) = .ok (.tickIdle q e m))
  ∧ (∀ q e, decodeTickCw (packCw false true q true e .startup) = .ok (.tickRsvd q e))
  ∧ (∀ q e, decodeTickCw (packCw false true q true e .rtty) = .ok (.tickRtty q e))
  ∧ (∀ q e, decodeTickCw (packCw false true q true e .fsk4) = .ok (.tickFsk4 q e))
  ∧ (∀ q e, decodeTickCw (packCw false true q true e .fsk2) = .ok (.tickFsk2 q e))
  ∧ (∀ t o e m, decodeSeqCw (packCw false t false o e m) = .ok (.seqNone t o e m))
  ∧ (∀ t, decodeSeqCw (packCw false t true false true .startup) = .ok (.seqStartup t))
  ∧ (∀ t, decodeSeqCw (packCw false t true false true .rtty) = .ok (.seqFsk t))
  ∧ (∀ t, decodeSeqCw (packCw false t true false true .fsk4) = .ok (.seqWrap t false))
  ∧ (∀ t, decodeSeqCw (packCw false t true false true .fsk2) = .ok (.seqWrap t true))
  ∧ (∀ t e m, decodeSeqCw (packCw false t true true e m) = .ok (.seqWaitTransmitting t e m))
  ∧ (∀ t m, decodeSeqCw (packCw false t true false false m) = .ok (.seqWaitDelay t m))
  ∧ (∀ cw, cwRst cw = false →
      ∃ t q, decodeTickCw cw = .ok t ∧ decodeSeqCw cw = .ok q ∧ decodeEdge cw = [t, q])

/-- R85: the index of each micro-operation, and 13 to 15 unused. The operands after the index are the model's
(log 4). -/
def Obligations.MicroOperationIndexesDecode : Prop :=
  ∀ (b : Byte) (rest : List Byte),
    decode .m (0 :: rest) = .ok (.crcInit, rest) ∧ decode .m (1 :: b :: rest) = .ok (.crcByte b, rest)
    ∧ decode .m (2 :: 0 :: rest) = .ok (.crcStr [], rest) ∧ decode .m (3 :: b :: rest) = .ok (.rttyNext b, rest)
    ∧ decode .m (4 :: b :: rest) = .ok (.fsk4Next b, rest) ∧ decode .m (5 :: b :: rest) = .ok (.fsk2Next b, rest)
    ∧ decode .m (6 :: rest) = .ok (.snapCapture, rest) ∧ decode .m (7 :: rest) = .ok (.fmtRtty, rest)
    ∧ decode .m (8 :: rest) = .ok (.fmtFsk, rest) ∧ decode .m (9 :: rest) = .ok (.arm, rest)
    ∧ decode .m (10 :: rest) = .ok (.endPacket, rest) ∧ decode .m (11 :: b :: rest) = .ok (.devWrite b, rest)
    ∧ decode .m (12 :: rest) = .ok (.delayStep, rest)
    ∧ (∀ idx : Byte, 13 ≤ idx.toNat → idx.toNat ≤ 15 → decode .m (idx :: rest) = .error .unusedIndex)
    ∧ (∀ idx : Byte, 16 ≤ idx.toNat → decode .m (idx :: rest) = .error .notAnIndex)

/-- A few words of 30_encoding.md section 1, written out bit by bit, decode to the operations they stand for. That an operand
byte stands after a micro-operation's index is the model's choice (log 4). -/
def Obligations.WrittenOutWordsDecode : Prop :=
  decode .r [0b01001101#8] = .ok (.reset false false true true .rtty, [])
  ∧ decode .t [0b00101010#8] = .ok (.tickFsk4 false false, [])
  ∧ decode .t [0b00101001#8] = .ok (.tickRtty false false, [])
  ∧ decode .s [0b00010100#8] = .ok (.seqStartup false, [])
  ∧ decode .s [0b00110111#8] = .ok (.seqWrap true true, [])
  ∧ decode .m [0b00000001#8, 0x41#8] = .ok (.crcByte 0x41, [])
  ∧ decode .m [0b00001100#8] = .ok (.delayStep, [])

/-- R80: the fields of the control word of an edge, from three ports and three registers. -/
def Obligations.ControlWordFields : Prop :=
  ∀ s : State,
    (controlWord s).getLsbD 6 = s.ports.rst ∧ (controlWord s).getLsbD 5 = s.ports.tick
    ∧ (controlWord s).getLsbD 4 = s.ports.seqEn ∧ (controlWord s).getLsbD 3 = s.txOn
    ∧ (controlWord s).getLsbD 2 = s.txEnable ∧ (controlWord s).extractLsb' 0 2 = s.mode.code

/-- A word of spec/opcode_table.json placed as the next one is the one performed (how it is placed is the model's choice,
log 6): a 7-bit word is the control word of the coming edge, and nothing but ports `rst`, `tick`, `seq_en`, the two flags,
the mode and the model's own port is touched; a 4-bit word stands at the micro-operation port (log 4), nothing else is
touched, and the operation the decoder reads there is the one of the table's row with that index. With legal parameters
(log 10) the next step performs the operations of that control word, the one the decoder names among them, or that
micro-operation; a formatter only with `tx_on = 0` (log 15). -/
def Obligations.PlacedWordIsPerformedNext : Prop :=
  (∀ (s : State) (cw : ControlWord),
    controlWord (s.withFetchWord 7 cw.toNat) = cw ∧ (s.withFetchWord 7 cw.toNat).probe = none
    ∧ { s.withFetchWord 7 cw.toNat with
          ports := { (s.withFetchWord 7 cw.toNat).ports with
            rst := s.ports.rst, tick := s.ports.tick, seqEn := s.ports.seqEn }
          txOn := s.txOn, txEnable := s.txEnable, mode := s.mode, probe := s.probe } = s
    ∧ (s.params.legal = true →
        step (s.withFetchWord 7 cw.toNat)
          = andThen (runOps (decodeEdge cw) (s.withFetchWord 7 cw.toNat)) (fun u => .next (advanceInputs u)))
    ∧ ∃ i ∈ decodeEdge cw, decodeTableWord 7 cw.toNat = some i)
  ∧ (∀ (s : State) (idx : Nat), idx ≤ 12 →
      ∃ bytes i rest, s.withFetchWord 4 idx = { s with probe := some bytes }
        ∧ decode .m bytes = .ok (i, rest) ∧ decodeTableWord 4 idx = some i
        ∧ i.row.format = .m ∧ i.row.bits.toNat = idx
        ∧ (s.params.legal = true → s.txOn = false ∨ (idx ≠ 7 ∧ idx ≠ 8) →
            step (s.withFetchWord 4 idx) = exec i { s with probe := none }))

/-! ## The step -/

/-- A clock edge performs what the control word of the pre-state decodes to: `RESET` alone with `rst = 1`, else the
tick operation and then the sequencer operation (30_encoding.md R81, 60_exceptions.md R238). Then the environment
drives the ports for the next edge (log 2). -/
def Obligations.ClockEdgeRunsTheDecodedOperations : Prop :=
  (∀ s : State, s.params.legal = true → s.probe = none → s.ports.rst = true →
    ∀ i, decode .r [controlByte (controlWord s)] = .ok (i, []) →
      step s = andThen (exec i s) (fun u => .next (advanceInputs u)))
  ∧ (∀ s : State, s.params.legal = true → s.probe = none → s.ports.rst = false →
    ∀ t q, decode .t [controlByte (controlWord s)] = .ok (t, []) → decode .s [controlByte (controlWord s)] = .ok (q, []) →
      step s = andThen (exec t s) (fun u => andThen (exec q u) (fun v => .next (advanceInputs v))))
  ∧ (∀ (s : State) (p : Ports) (rest : List Ports), s.script = p :: rest →
      advanceInputs s = { s with ports := p, script := rest, edge := s.edge + 1 })
  ∧ (∀ s : State, s.script = [] →
      advanceInputs s = { s with ports := Config.environment s.edge, edge := s.edge + 1 })

/-- The model's own micro-operation port (log 4): the bytes that stand there are taken, and the operation they decode
to is performed; a formatter is refused while a packet is on air (log 15, for 70_reset_and_hazards.md R266), and bytes
that do not decode are refused. -/
def Obligations.MicroOperationPortRunsTheDecodedOperation : Prop :=
  ∀ (s : State) (bytes : List Byte), s.params.legal = true → s.probe = some bytes →
    (∀ i rest, decode .m bytes = .ok (i, rest) → s.txOn = false ∨ (i ≠ .fmtRtty ∧ i ≠ .fmtFsk) →
      step s = exec i { s with probe := none })
    ∧ (∀ i rest, decode .m bytes = .ok (i, rest) → s.txOn = true → i = .fmtRtty ∨ i = .fmtFsk →
      step s = .refused .bufferOnAir)
    ∧ (∀ why, decode .m bytes = .error why → step s = .refused (.undecodable why))

/-- Which parameters are legal (the ranges of 00_scope.md section 4 that the types of the fields do not already say, with
their boundary values), and that the step of an instance with others is refused. That `step` is what refuses is the
model's choice (log 10): 93_implementation_defined.md U7 says to refuse at model construction. -/
def Obligations.IllegalParametersAreRefused : Prop :=
  (∀ s : State, s.params.legal = false → step s = .refused .illegalParameters)
  ∧ (∀ p : Params, p.legal = true ↔
      1 ≤ p.callsign.length ∧ p.callsign.length ≤ 15
      ∧ (∀ b ∈ p.callsign, 0x21 ≤ b.toNat ∧ b.toNat ≤ 0x7E ∧ b ≠ 0x2C ∧ b ≠ 0x2A ∧ b ≠ 0x24)
      ∧ p.fskFrame.length ≤ 128 ∧ p.ledAltThresholdM ≤ 2147483 ∧ 1 ≤ p.symbolRateHz)
  ∧ (∀ p : Params, p.legal = true →
      { p with callsign := [] }.legal = false ∧ { p with callsign := List.replicate 1 0x41 }.legal = true
      ∧ { p with callsign := List.replicate 15 0x41 }.legal = true
      ∧ { p with callsign := List.replicate 16 0x41 }.legal = false
      ∧ (∀ b ∈ [0x21, 0x23, 0x25, 0x29, 0x2B, 0x2D, 0x7E], { p with callsign := [b] }.legal = true)
      ∧ (∀ b ∈ [0x00, 0x20, 0x24, 0x2A, 0x2C, 0x7F, 0xFF], { p with callsign := [b] }.legal = false)
      ∧ { p with fskFrame := [] }.legal = true
      ∧ (∀ f : List Byte, f.length = 128 → { p with fskFrame := f }.legal = true)
      ∧ (∀ f : List Byte, f.length = 129 → { p with fskFrame := f }.legal = false)
      ∧ { p with ledAltThresholdM := 0 }.legal = true ∧ { p with ledAltThresholdM := 2147483 }.legal = true
      ∧ { p with ledAltThresholdM := 2147484 }.legal = false
      ∧ { p with symbolRateHz := 0 }.legal = false ∧ { p with symbolRateHz := 1 }.legal = true)

/-! ## Reset -/

/-- R52: after an edge with `rst = 1` every register holds its reset value, whatever it held before and whatever the
other inputs are; `RESET` touches neither the parameters, nor the ports, nor the model's own fields. -/
def Obligations.ResetGivesTheResetTable : Prop :=
  (∀ (t q o e : Bool) (m : ModeState) (s : State),
    exec (.reset t q o e m) s = .next { s with
      mode := .startup, bufSel := .rttyBuf, pktLen := 0, frameCounter := 0, crcReg := 0xFFFF
      snap := { frame := 0, temp := 0, volt := 0, fix := 0, lat := 0, lon := 0, alt := 0, speed := 0, sats := 0,
                hh := 0, mm := 0, ss := 0, lock := false, ledEn := true }
      mem := [], txOn := false, txEnable := true, cursor := 0, delayCnt := 0, prestartCnt := 0, bitIdx := 0
      symIdx := 0, devReg := 0, devWe := false, markLed := false, radioEn := false })
  ∧ (∀ a, memRead [] a = 0)
  ∧ (∀ s : State, s.params.legal = true → s.probe = none → s.ports.rst = true →
      ∀ t q o e m, step s = andThen (exec (.reset t q o e m) s) (fun u => .next (advanceInputs u)))

/-- The state after reset is good, for every instance with legal parameters and for the one `State.reset` carries; in it
the guard holds (70_reset_and_hazards.md R262). -/
def Obligations.ResetStateIsGood : Prop :=
  (∀ p : Params, p.legal = true → Inv (State.resetWith p) ∧ Machine.guard (State.resetWith p) = true)
  ∧ Inv State.reset

/-! ## The buffer space -/

/-- R63: a read gives the byte last written there, whatever was written elsewhere, and 0x00 where nothing was. -/
def Obligations.MemReadGivesTheLastWrite : Prop :=
  (∀ (m : List Host.Cell) (a b : Nat) (v : Byte), Memory.wf m = true →
    memRead (memWrite m a v) b = if b = a then v else memRead m b)
  ∧ (∀ a, memRead [] a = 0x00)

/-- Buffer addresses: `base(buf_sel) + offset` for an offset below 128, none above, and the buffers do not meet
(20_memory.md R60, R61, R65). -/
def Obligations.BufferAddressesStayInTheirBuffer : Prop :=
  (∀ k, k < 128 → bufAddr .rttyBuf k = some k ∧ bufAddr .fskBuf k = some (0x80 + k))
  ∧ (∀ sel k, 128 ≤ k → bufAddr sel k = none)
  ∧ (∀ j k a, bufAddr .rttyBuf j = some a → bufAddr .fskBuf k ≠ some a)

/-! ## CRC16 -/

/-- R111, R112: the byte enters bits 15:8, then eight steps, each testing bit 15 before the shift. -/
def Obligations.CrcByteIsEightPolynomialSteps : Prop :=
  ∀ (step1 : Half → Half),
    (∀ c : Half, step1 c = if c.getLsbD 15 then (c.extractLsb' 0 15 ++ 0#1) ^^^ 0x1021#16 else c.extractLsb' 0 15 ++ 0#1) →
    ∀ (b : Byte) (s : State), exec (.crcByte b) s = .next { s with crcReg := step1^[8] (s.crcReg ^^^ (b ++ 0x00#8)) }

/-- `CRC.STR` is `CRC.INIT` and then `CRC.BYTE` on each byte up to the first `NUL`, in order; it returns the final register;
the empty sequence gives 0xFFFF (40_crc16.md). That the returned value goes to `result` is the model's choice (log 5),
and that an operand with a `NUL` is cut there is deduced (log 12). -/
def Obligations.CrcStrIsInitThenEachByte : Prop :=
  (∀ s : State, exec .crcInit s = .next { s with crcReg := 0xFFFF })
  ∧ (∀ (bytes tail : List Byte) (s : State), (∀ b ∈ bytes, b ≠ 0) → (tail = [] ∨ tail.head? = some 0) →
      ∃ c, runOps (.crcInit :: bytes.map .crcByte) s = .next { s with crcReg := c }
        ∧ exec (.crcStr (bytes ++ tail)) s = .next { s with crcReg := c, result := some (.crc c) })
  ∧ (∀ s : State, exec (.crcStr []) s = .next { s with crcReg := 0xFFFF, result := some (.crc 0xFFFF) })
  ∧ (∀ s : State, exec (.crcStr [0x31, 0x32, 0x33, 0x34, 0x35, 0x36, 0x37, 0x38, 0x39]) s
      = .next { s with crcReg := 0x29B1, result := some (.crc 0x29B1) })

/-- R114: from the register that `CRC.STR(s1)` leaves, `CRC.BYTE` on the bytes of `s2` gives `CRC.STR(s1 ++ s2)`; and the
table method (one entry per value of the top byte XOR the input byte, XORed into the register shifted by 8) is equal to
rule R111. -/
def Obligations.CrcStreamsAndAllowsATable : Prop :=
  (∀ (s1 s2 : List Byte) (s : State), (∀ b ∈ s1 ++ s2, b ≠ 0) →
    ∃ u v, runOps (.crcStr s1 :: s2.map .crcByte) s = .next u ∧ exec (.crcStr (s1 ++ s2)) s = .next v
      ∧ u.crcReg = v.crcReg)
  ∧ (∀ table : Byte → Half, (∀ x : Byte, table x = crcSteps 8 (x ++ 0x00#8)) →
      ∀ (b : Byte) (s : State),
        exec (.crcByte b) s = .next { s with crcReg := (s.crcReg <<< 8) ^^^ table (s.crcReg.extractLsb' 8 8 ^^^ b) })

/-! ## The generators -/

/-- The five sub-cases of `RTTY.NEXT` (41_rtty_framer.md), in their order; a position out of range ends the character. That
the result goes to `result` is the model's choice (log 5). -/
def Obligations.RttyNextSubCases : Prop :=
  ∀ (b : Byte) (s : State),
    (s.prestartCnt ≠ 0 → exec (.rttyNext b) s
      = .next { s with prestartCnt := s.prestartCnt - 1, result := some (.rtty .one) })
    ∧ (s.prestartCnt = 0 → s.bitIdx = 0 → exec (.rttyNext b) s
      = .next { s with bitIdx := 1, result := some (.rtty .zero) })
    ∧ (s.prestartCnt = 0 → s.bitIdx ≠ 0 → s.bitIdx.toNat ≤ s.params.dataBits.toNat → exec (.rttyNext b) s
      = .next { s with
          bitIdx := s.bitIdx + 1
          result := some (.rtty (if b.getLsbD (s.bitIdx.toNat - 1) then .one else .zero)) })
    ∧ (s.prestartCnt = 0 → s.bitIdx.toNat = s.params.dataBits.toNat + 1 → exec (.rttyNext b) s
      = .next { s with bitIdx := s.bitIdx + 1, result := some (.rtty .one) })
    ∧ (s.prestartCnt = 0 → s.params.dataBits.toNat + 2 ≤ s.bitIdx.toNat → exec (.rttyNext b) s
      = .next { s with bitIdx := 0, result := some (.rtty .fin) })

/-- From `prestart_cnt = 0` and `bit_idx = 0`, `DATA_BITS + 3` calls with one byte return the start bit, the data bits least
significant first, the stop bit and `End`, and leave `bit_idx = 0` and everything else as it was (41_rtty_framer.md). What
a call returns is read from `result`, which is the model's choice (log 5). -/
def Obligations.RttyCharacterIsFramed : Prop :=
  ∀ (b : Byte) (s : State), s.prestartCnt = 0 → s.bitIdx = 0 →
    (∀ k, k < s.params.dataBits.toNat + 3 →
      ∃ t, execTimes (.rttyNext b) (k + 1) s = .next t ∧
        t.result = some (.rtty
          (if k = 0 then .zero
           else if k ≤ s.params.dataBits.toNat then (if b.getLsbD (k - 1) then .one else .zero)
           else if k = s.params.dataBits.toNat + 1 then .one
           else .fin)))
    ∧ execTimes (.rttyNext b) (s.params.dataBits.toNat + 3) s
        = .next { s with bitIdx := 0, result := some (.rtty .fin) }

/-- The result and the next `prestart_cnt` and `bit_idx` depend on the byte, those two registers and `DATA_BITS` only; and
after `End` the next result is `Zero`, never `End` again (41_rtty_framer.md). What a call returns is read from `result`,
which is the model's choice (log 5). -/
def Obligations.RttyNextIsPureAndNeverEndsTwice : Prop :=
  (∀ (b : Byte) (s s' t t' : State), s.prestartCnt = s'.prestartCnt → s.bitIdx = s'.bitIdx →
    s.params.dataBits = s'.params.dataBits → exec (.rttyNext b) s = .next t → exec (.rttyNext b) s' = .next t' →
      t.result = t'.result ∧ t.prestartCnt = t'.prestartCnt ∧ t.bitIdx = t'.bitIdx)
  ∧ (∀ (b b' : Byte) (s t u : State), exec (.rttyNext b) s = .next t → t.result = some (.rtty .fin) →
      exec (.rttyNext b') t = .next u → u.result = some (.rtty .zero))

/-- A mapper returns the field of the byte numbered `sym_idx` in sending order, or `NoSym` once they are exhausted, or if
`sym_idx` is out of range (42_fsk_mappers.md sections 1 and 2). That the result goes to `result` is the model's choice
(log 5). -/
def Obligations.FskNextSymbolOrSentinel : Prop :=
  ∀ (b : Byte) (s : State),
    (4 ≤ s.symIdx.toNat → exec (.fsk4Next b) s = .next { s with symIdx := 0, result := some (.fsk .noSym) })
    ∧ (s.symIdx.toNat < 4 → exec (.fsk4Next b) s = .next { s with
        symIdx := s.symIdx + 1
        result := some (.fsk (.symbol (if s.params.fskMsbFirst then b.extractLsb' (6 - 2 * s.symIdx.toNat) 2
          else b.extractLsb' (2 * s.symIdx.toNat) 2))) })
    ∧ (8 ≤ s.symIdx.toNat → exec (.fsk2Next b) s = .next { s with symIdx := 0, result := some (.fsk .noSym) })
    ∧ (s.symIdx.toNat < 8 → exec (.fsk2Next b) s = .next { s with
        symIdx := s.symIdx + 1
        result := some (.fsk (.symbol (if b.getLsbD (if s.params.fskMsbFirst then 7 - s.symIdx.toNat else s.symIdx.toNat)
          then 1 else 0))) })

/-- From `sym_idx = 0`, five (nine) calls with one byte return its four (eight) symbols in sending order and then `NoSym`,
and leave `sym_idx = 0` and everything else as it was; `NoSym` never comes twice in a row (42_fsk_mappers.md sections 1
and 2). What a call returns is read from `result`, which is the model's choice (log 5). -/
def Obligations.FskByteIsMappedThenSentinel : Prop :=
  (∀ (b : Byte) (s : State), s.symIdx = 0 →
    (∀ k, k < 4 → ∃ t, execTimes (.fsk4Next b) (k + 1) s = .next t ∧
      t.result = some (.fsk (.symbol (fsk4Field s.params.fskMsbFirst b k))))
    ∧ execTimes (.fsk4Next b) 5 s = .next { s with symIdx := 0, result := some (.fsk .noSym) }
    ∧ (∀ k, k < 8 → ∃ t, execTimes (.fsk2Next b) (k + 1) s = .next t ∧
      t.result = some (.fsk (.symbol (fsk2Field s.params.fskMsbFirst b k))))
    ∧ execTimes (.fsk2Next b) 9 s = .next { s with symIdx := 0, result := some (.fsk .noSym) })
  ∧ (∀ (i : Instr) (b b' : Byte) (s t u : State),
      (i = .fsk4Next b ∧ exec i s = .next t ∧ exec (.fsk4Next b') t = .next u
        ∨ i = .fsk2Next b ∧ exec i s = .next t ∧ exec (.fsk2Next b') t = .next u) →
      t.result = some (.fsk .noSym) → u.result ≠ some (.fsk .noSym))

/-- What each of the twelve outputs shows (10_state.md section 7), the codes of the results (30_encoding.md section 2), and
the generator's states (10_state.md section 6): `End` comes exactly from the state `End`; 2-level results are 0, 1 and
`NoSym`. What a generator returned is read from `result`, which is the model's choice (log 5). -/
def Obligations.OutputsAndResultCodes : Prop :=
  (∀ s : State, (outputs s).devReg = s.devReg ∧ (outputs s).devWe = s.devWe ∧ (outputs s).markLed = s.markLed
    ∧ (outputs s).radioEn = s.radioEn ∧ (outputs s).ledMarkO = (s.markLed && s.snap.ledEn) ∧ (outputs s).txOn = s.txOn
    ∧ (outputs s).txEnable = s.txEnable ∧ (outputs s).mode = s.mode ∧ (outputs s).snapLock = s.snap.lock
    ∧ (outputs s).snapLedEn = s.snap.ledEn ∧ (outputs s).frameCounter = s.frameCounter ∧ (outputs s).crcReg = s.crcReg)
  ∧ (RttyResult.zero.code = 0 ∧ RttyResult.one.code = 1 ∧ RttyResult.fin.code = 2 ∧ ∀ r : RttyResult, r.code ≠ 3)
  ∧ ((∀ sym : BitVec 2, (FskResult.symbol sym).code = 0#1 ++ sym) ∧ FskResult.noSym.code = 4
    ∧ ∀ r : FskResult, r.code.toNat ≤ 4)
  ∧ (∀ (b : Byte) (s t : State), exec (.fsk2Next b) s = .next t →
      t.result = some (.fsk .noSym) ∨ t.result = some (.fsk (.symbol 0)) ∨ t.result = some (.fsk (.symbol 1)))
  ∧ (∀ s : State,
      (s.prestartCnt ≠ 0 ∨ s.bitIdx = 0 → rttyPhase s = .idlePreStart)
      ∧ (s.prestartCnt = 0 → 1 ≤ s.bitIdx.toNat → s.bitIdx.toNat ≤ s.params.dataBits.toNat + 1 → rttyPhase s = .dataBit)
      ∧ (s.prestartCnt = 0 → s.bitIdx.toNat = s.params.dataBits.toNat + 2 → rttyPhase s = .ending))
  ∧ (∀ (b : Byte) (s t : State), exec (.rttyNext b) s = .next t →
      (t.result = some (.rtty .fin) ↔ rttyPhase s = .ending))

/-! ## The tick engine -/

/-- R180: with no tick the tick agent does nothing; `dev_we` is 0 after the edge. -/
def Obligations.TickNoneOnlyClearsDevWe : Prop :=
  ∀ q o e m s, exec (.tickNone q o e m) s = .next { s with devWe := false }

/-- R181: a tick with `tx_on = 0` makes no modulation step; it counts the delay, or with `tx_enable = 1` changes nothing
but the output `dev_we`, which is 0. -/
def Obligations.TickIdleOnlyCountsTheDelay : Prop :=
  ∀ q e m s, s.txOn = false →
    (s.txEnable = true → exec (.tickIdle q e m) s = .next { s with devWe := false })
    ∧ (s.txEnable = false → s.delayCnt.toNat ≤ 1 →
        exec (.tickIdle q e m) s = .next { s with devWe := false, delayCnt := 0, txEnable := true })
    ∧ (s.txEnable = false → 2 ≤ s.delayCnt.toNat →
        exec (.tickIdle q e m) s = .next { s with devWe := false, delayCnt := s.delayCnt - 1 })

/-- R198: one `DELAY.STEP`; from a delay of `N` it is the `max(N, 1)`-th that sets `tx_enable`, after which the counter
stays at 0; and so after an `END_PACKET` with `TX_DELAY_TICKS = N`, the `DELAY.STEP` of the same tick counted. -/
def Obligations.DelayRunsOutAfterTheGuardInterval : Prop :=
  (∀ s : State,
    (s.txOn = true ∨ s.txEnable = true → exec .delayStep s = .next s)
    ∧ (s.txOn = false → s.txEnable = false → s.delayCnt.toNat ≤ 1 →
        exec .delayStep s = .next { s with delayCnt := 0, txEnable := true })
    ∧ (s.txOn = false → s.txEnable = false → 2 ≤ s.delayCnt.toNat →
        exec .delayStep s = .next { s with delayCnt := s.delayCnt - 1 }))
  ∧ (∀ (s : State) (k : Nat), s.txOn = false → s.txEnable = false →
      ∃ t, execTimes .delayStep k s = .next t ∧ t.delayCnt.toNat = s.delayCnt.toNat - k
        ∧ t.txEnable = decide (max s.delayCnt.toNat 1 ≤ k))
  ∧ (∀ (s : State) (k : Nat), s.txEnable = false →
      ∃ t, andThen (exec .endPacket s) (execTimes .delayStep k) = .next t
        ∧ t.delayCnt.toNat = s.params.txDelayTicks.toNat - k
        ∧ t.txEnable = decide (max s.params.txDelayTicks.toNat 1 ≤ k))

/-- `DEV_WRITE` writes `dev_reg` and raises `dev_we`, or with `disable_armed` writes nothing and leaves `dev_we` at 0
(44_tick_engine.md R195). -/
def Obligations.DevWriteIsGatedByDisableArm : Prop :=
  ∀ v s,
    (s.ports.disableArmed = false → exec (.devWrite v) s = .next { s with devReg := v, devWe := true })
    ∧ (s.ports.disableArmed = true → exec (.devWrite v) s = .next { s with devWe := false })

/-- R196: `END_PACKET` clears `tx_on` and starts the delay, whether or not `disable_armed` is 1, and changes nothing else. -/
def Obligations.EndPacketStartsTheDelay : Prop :=
  ∀ s : State, exec .endPacket s = .next { s with txOn := false, delayCnt := s.params.txDelayTicks }

/-- R199: `TICK.RSVD` is refused by name, so is the step whose control word selects it, and no good state has it. -/
def Obligations.TickRsvdIsRefused : Prop :=
  (∀ q e s, exec (.tickRsvd q e) s = .refused .tickRsvd)
  ∧ (∀ s : State, s.params.legal = true → s.probe = none → s.ports.rst = false → s.ports.tick = true →
      s.txOn = true → s.mode = .startup → step s = .refused .tickRsvd)
  ∧ (∀ s : State, Inv s → ¬(s.txOn = true ∧ s.mode = .startup))

/-- A symbol of an RTTY packet (44_tick_engine.md R182, R185, R197): a pre-start mark, a start bit, a data bit, a stop bit.
Deviation and LED follow the symbol, and hold while `disable_armed` is 1; the generator advances either way. -/
def Obligations.TickRttySendsOneSymbol : Prop :=
  ∀ q e s b, s.txOn = true → byteAtCursor s = some b →
    (s.prestartCnt ≠ 0 → ¬(s.bitIdx = 0 ∧ b = 0) → exec (.tickRtty q e) s = .next { s with
      prestartCnt := s.prestartCnt - 1, devReg := unlessDisarmed s s.devReg s.params.rttyMarkDev
      devWe := !s.ports.disableArmed, markLed := unlessDisarmed s s.markLed true })
    ∧ (s.prestartCnt = 0 → s.bitIdx = 0 → b ≠ 0 → exec (.tickRtty q e) s = .next { s with
      bitIdx := 1, devReg := unlessDisarmed s s.devReg 0
      devWe := !s.ports.disableArmed, markLed := unlessDisarmed s s.markLed false })
    ∧ (s.prestartCnt = 0 → s.bitIdx ≠ 0 → s.bitIdx.toNat ≤ s.params.dataBits.toNat →
      exec (.tickRtty q e) s = .next { s with
        bitIdx := s.bitIdx + 1
        devReg := unlessDisarmed s s.devReg (if b.getLsbD (s.bitIdx.toNat - 1) then s.params.rttyMarkDev else 0)
        devWe := !s.ports.disableArmed
        markLed := unlessDisarmed s s.markLed (b.getLsbD (s.bitIdx.toNat - 1)) })
    ∧ (s.prestartCnt = 0 → s.bitIdx.toNat = s.params.dataBits.toNat + 1 → exec (.tickRtty q e) s = .next { s with
      bitIdx := s.bitIdx + 1, devReg := unlessDisarmed s s.devReg s.params.rttyMarkDev
      devWe := !s.ports.disableArmed, markLed := unlessDisarmed s s.markLed true })

/-- `End` (44_tick_engine.md R184, R186): the cursor advances; a `NUL` there ends the packet and counts the first delay step;
another byte takes a tick without a write, or with `RTTY_END_REQUERY` the start bit of the next character. -/
def Obligations.TickRttyEndsTheCharacter : Prop :=
  ∀ q e s b c, s.txOn = true → byteAtCursor s = some b → bufRead s (s.cursor.toNat + 1) = some c →
    s.prestartCnt = 0 → s.params.dataBits.toNat + 2 ≤ s.bitIdx.toNat →
    (c = 0 → exec (.tickRtty q e) s = .next { s with
      bitIdx := 0, cursor := s.cursor + 1, txOn := false, delayCnt := delayAfterEnd s, txEnable := enableAfterEnd s
      devWe := false })
    ∧ (c ≠ 0 → s.params.rttyEndRequery = false → exec (.tickRtty q e) s = .next { s with
      bitIdx := 0, cursor := s.cursor + 1, devWe := false })
    ∧ (c ≠ 0 → s.params.rttyEndRequery = true → exec (.tickRtty q e) s = .next { s with
      bitIdx := 1, cursor := s.cursor + 1, devReg := unlessDisarmed s s.devReg 0
      devWe := !s.ports.disableArmed, markLed := unlessDisarmed s s.markLed false })

/-- A packet with nothing to send ends at once, without a generator call (44_tick_engine.md R183, R188): an RTTY tick at a
character boundary on a `NUL`, an FSK tick with `cursor = pkt_len`. `prestart_cnt` keeps its value. -/
def Obligations.ZeroLengthPacketEndsAtOnce : Prop :=
  ∀ q e s, s.txOn = true →
    (s.bitIdx = 0 → byteAtCursor s = some 0 → exec (.tickRtty q e) s = .next { s with
      txOn := false, delayCnt := delayAfterEnd s, txEnable := enableAfterEnd s, devWe := false })
    ∧ (s.cursor = s.pktLen →
      exec (.tickFsk4 q e) s = .next { s with
        txOn := false, delayCnt := delayAfterEnd s, txEnable := enableAfterEnd s, devWe := false }
      ∧ exec (.tickFsk2 q e) s = .next { s with
        txOn := false, delayCnt := delayAfterEnd s, txEnable := enableAfterEnd s, devWe := false })

/-- A symbol of an FSK packet (44_tick_engine.md R187, R190, R191, R197): its value goes to the deviation register, the LED
does not change. -/
def Obligations.TickFskSendsOneSymbol : Prop :=
  ∀ q e s b, s.txOn = true → s.cursor ≠ s.pktLen → byteAtCursor s = some b →
    (s.symIdx.toNat < 4 → exec (.tickFsk4 q e) s = .next { s with
      symIdx := s.symIdx + 1
      devReg := unlessDisarmed s s.devReg ((fsk4Field s.params.fskMsbFirst b s.symIdx.toNat).zeroExtend 8)
      devWe := !s.ports.disableArmed })
    ∧ (s.symIdx.toNat < 8 → exec (.tickFsk2 q e) s = .next { s with
      symIdx := s.symIdx + 1
      devReg := unlessDisarmed s s.devReg ((fsk2Field s.params.fskMsbFirst b s.symIdx.toNat).zeroExtend 8)
      devWe := !s.ports.disableArmed })

/-- `NoSym` (44_tick_engine.md R189, R191): the cursor advances; at `pkt_len` the packet ends without a write and the first
delay step is counted; elsewhere the same tick sends the first symbol of the next byte. -/
def Obligations.TickFskEndsTheByte : Prop :=
  ∀ q e s b, s.txOn = true → s.cursor ≠ s.pktLen → byteAtCursor s = some b →
    (s.cursor.toNat + 1 = s.pktLen.toNat → 4 ≤ s.symIdx.toNat → exec (.tickFsk4 q e) s = .next { s with
      symIdx := 0, cursor := s.cursor + 1, txOn := false, delayCnt := delayAfterEnd s, txEnable := enableAfterEnd s
      devWe := false })
    ∧ (s.cursor.toNat + 1 = s.pktLen.toNat → 8 ≤ s.symIdx.toNat → exec (.tickFsk2 q e) s = .next { s with
      symIdx := 0, cursor := s.cursor + 1, txOn := false, delayCnt := delayAfterEnd s, txEnable := enableAfterEnd s
      devWe := false })
    ∧ (∀ c, s.cursor.toNat + 1 ≠ s.pktLen.toNat → bufRead s (s.cursor.toNat + 1) = some c →
      (4 ≤ s.symIdx.toNat → exec (.tickFsk4 q e) s = .next { s with
        symIdx := 1, cursor := s.cursor + 1
        devReg := unlessDisarmed s s.devReg ((fsk4Field s.params.fskMsbFirst c 0).zeroExtend 8)
        devWe := !s.ports.disableArmed })
      ∧ (8 ≤ s.symIdx.toNat → exec (.tickFsk2 q e) s = .next { s with
        symIdx := 1, cursor := s.cursor + 1
        devReg := unlessDisarmed s s.devReg ((fsk2Field s.params.fskMsbFirst c 0).zeroExtend 8)
        devWe := !s.ports.disableArmed }))

/-- `TICK.RTTY`, `TICK.FSK4` and `TICK.FSK2` fault exactly where they would read a buffer offset of 128 or above (20_memory.md
R65); that `TICK.RTTY` faults at its first read too is deduced (log 8). No tick operation but `TICK.RSVD` is refused. -/
def Obligations.TickFaultsExactlyOffTheBuffer : Prop :=
  ∀ q e s,
    (exec (.tickRtty q e) s = .fault .addressFault ↔
      128 ≤ s.cursor.toNat
        ∨ (s.cursor.toNat = 127 ∧ s.prestartCnt = 0 ∧ s.params.dataBits.toNat + 2 ≤ s.bitIdx.toNat))
    ∧ (exec (.tickFsk4 q e) s = .fault .addressFault ↔ s.cursor ≠ s.pktLen ∧
      (128 ≤ s.cursor.toNat ∨ (s.cursor.toNat = 127 ∧ 4 ≤ s.symIdx.toNat ∧ s.pktLen.toNat ≠ 128)))
    ∧ (exec (.tickFsk2 q e) s = .fault .addressFault ↔ s.cursor ≠ s.pktLen ∧
      (128 ≤ s.cursor.toNat ∨ (s.cursor.toNat = 127 ∧ 8 ≤ s.symIdx.toNat ∧ s.pktLen.toNat ≠ 128)))
    ∧ (∀ i r, i.format = .t → exec i s = .refused r → ∃ q' e', i = .tickRsvd q' e')

/-- What `disable_armed` reaches (44_tick_engine.md R197, R201): with the port at 1 or at 0 a tick operation ends alike and
leaves the same state but for `dev_reg`, `dev_we` and `mark_led`; with 1 these hold, and `dev_we` is 0. -/
def Obligations.DisableArmReachesOnlyTheOutput : Prop :=
  ∀ (i : Instr) (s : State) (d : Bool), i.format = .t →
    (∀ t, exec i s = .next t → ∃ t', exec i { s with ports := { s.ports with disableArmed := d } } = .next t' ∧
      { t' with ports := t.ports, devReg := t.devReg, devWe := t.devWe, markLed := t.markLed } = t
      ∧ t'.ports = { t.ports with disableArmed := d }
      ∧ (d = true → t'.devReg = s.devReg ∧ t'.markLed = s.markLed ∧ t'.devWe = false))
    ∧ (∀ r, exec i s = .fault r → exec i { s with ports := { s.ports with disableArmed := d } } = .fault r)
    ∧ (∀ r, exec i s = .refused r → exec i { s with ports := { s.ports with disableArmed := d } } = .refused r)

/-- The length of an FSK packet (30_encoding.md R93): `n` bytes of `k` symbols take `n * k + 1` ticks, `k = 4` or 8, and an
empty packet takes one; `tx_on` stays 1 until the last of them and is 0 after it. -/
def Obligations.FskPacketTakesItsTicks : Prop :=
  ∀ (q e : Bool) (s : State) (i : Instr) (k ticks : Nat),
    (i = .tickFsk4 q e ∧ k = 4 ∨ i = .tickFsk2 q e ∧ k = 8) → s.txOn = true → s.cursor = 0 → s.symIdx = 0 →
    s.pktLen.toNat ≤ 128 → ticks = s.pktLen.toNat * k + 1 →
    (∀ m, m < ticks → ∃ t, execTimes i m s = .next t ∧ t.txOn = true)
    ∧ ∃ t, execTimes i ticks s = .next t ∧ t.txOn = false

/-- The length of an RTTY packet (30_encoding.md R90): `n` bytes before the `NUL` take
`PRE_START_BITS + n * (DATA_BITS + 3)` ticks, or `PRE_START_BITS + n * (DATA_BITS + 2) + 1` with `RTTY_END_REQUERY`, and an
empty one takes one; `tx_on` stays 1 until the last of them and is 0 after it. -/
def Obligations.RttyPacketTakesItsTicks : Prop :=
  ∀ (q e : Bool) (s : State) (n ticks : Nat), s.txOn = true → s.cursor = 0 → s.bitIdx = 0 →
    n < 128 → (∀ k, k < n → ∃ b, bufRead s k = some b ∧ b ≠ 0) → bufRead s n = some 0 →
    ticks = (if n = 0 then 1
      else if s.params.rttyEndRequery then s.prestartCnt.toNat + n * (s.params.dataBits.toNat + 2) + 1
      else s.prestartCnt.toNat + n * (s.params.dataBits.toNat + 3)) →
    (∀ m, m < ticks → ∃ t, execTimes (.tickRtty q e) m s = .next t ∧ t.txOn = true)
    ∧ ∃ t, execTimes (.tickRtty q e) ticks s = .next t ∧ t.txOn = false

/-! ## Snapshot and formatters -/

/-- R150, R153: `SNAP.CAPTURE` increments the frame counter and writes every snapshot register from the ports of one edge;
without a fix latitude and longitude are 0, altitude too if `NOFIX_ZERO_ALT`; the LED flag is from the stored altitude. -/
def Obligations.SnapCaptureSamplesThePorts : Prop :=
  ∀ (s : State) (alt : Word),
    alt = (if 3 ≤ s.ports.gps.fix.toNat ∨ s.params.nofixZeroAlt = false then s.ports.gps.alt else 0) →
    exec .snapCapture s = .next { s with
      frameCounter := s.frameCounter + 1
      snap :=
        { frame := s.frameCounter + 1, temp := s.ports.temp, volt := s.ports.volt, fix := s.ports.gps.fix
          lat := if 3 ≤ s.ports.gps.fix.toNat then s.ports.gps.lat else 0
          lon := if 3 ≤ s.ports.gps.fix.toNat then s.ports.gps.lon else 0
          alt := alt, speed := s.ports.gps.speed, sats := s.ports.gps.sats
          hh := s.ports.gps.hh, mm := s.ports.gps.mm, ss := s.ports.gps.ss
          lock := decide (3 ≤ s.ports.gps.fix.toNat)
          ledEn := !decide (Int.tdiv alt.toInt 1000 > (s.params.ledAltThresholdM : Int)) } }

/-- R155: `dec_u(n)` is the decimal digits of `n`, most significant first, with no leading zero, no sign and no padding, and
`0` for 0. -/
def Obligations.DecimalDigitsAreCanonical : Prop :=
  (∀ n : Nat, (∀ b ∈ decU n, isDigit b) ∧ decValue (decU n) = n ∧ (0 < n → (decU n).head? ≠ some 0x30)
    ∧ decU n ≠ [])
  ∧ decU 0 = [0x30]

/-- The form of a coordinate (43_formatter.md R158): a `-` in front exactly for a negative value, the degrees without a leading
zero, a point, four digits; the digits stand for the magnitude in units of 0.0001 degree, truncated. -/
def Obligations.CoordinateForm : Prop :=
  ∀ x : Word, ∃ whole frac : List Byte,
    coord x = (if x.toInt < 0 then [0x2D] else []) ++ whole ++ [0x2E] ++ frac
    ∧ (∀ b ∈ whole ++ frac, isDigit b) ∧ whole = decU (x.toInt.natAbs / 10000000) ∧ frac.length = 4
    ∧ decValue whole * 10000 + decValue frac = x.toInt.natAbs / 1000

/-- The sentence up to its newline, byte for byte (30_encoding.md section 5): five `$`, the ten fields with a comma between,
`*`, the checksum of the body and of nothing else (R95), newline; and its helpers `dec_s` (R156), `pad` (R157) and `hex4`
(R163). -/
def Obligations.SentenceFollowsTheGrammar : Prop :=
  (∀ (callsign body : List Byte) (n : Snapshot),
    body = callsign ++ [0x2C] ++ decU n.frame.toNat ++ [0x2C]
        ++ pad n.hh.toNat 2 ++ [0x3A] ++ pad n.mm.toNat 2 ++ [0x3A] ++ pad n.ss.toNat 2 ++ [0x2C]
        ++ coord n.lat ++ [0x2C] ++ coord n.lon ++ [0x2C] ++ decS (Int.tdiv n.alt.toInt 1000) ++ [0x2C]
        ++ decU n.speed.toNat ++ [0x2C] ++ decU n.sats.toNat ++ [0x2C] ++ decU (n.volt.toNat * 10) ++ [0x2C]
        ++ decS n.temp.toInt →
    sentence callsign n = [0x24, 0x24, 0x24, 0x24, 0x24] ++ body ++ [0x2A] ++ hex4 (crcOf body) ++ [0x0A])
  ∧ (∀ z : Int, decS z = if z < 0 then 0x2D :: decU z.natAbs else decU z.natAbs)
  ∧ (∀ n w : Nat, ∃ k, pad n w = List.replicate k 0x30 ++ decU n ∧ (pad n w).length = max w (decU n).length)
  ∧ (∀ (c : Half) (k v : Nat), k < 4 → v = c.toNat / 16 ^ (3 - k) % 16 →
      (hex4 c)[k]? = some (BitVec.ofNat 8 (if v < 10 then 0x30 + v else 0x41 + (v - 10))))
  ∧ (∀ c : Half, (hex4 c).length = 4)

/-- The length of a sentence (43_formatter.md R166): 47 to 95 bytes for every snapshot and every legal callsign, so with its
`NUL` it fits in `RTTY_BUF`. -/
def Obligations.SentenceFitsTheBuffer : Prop :=
  ∀ (p : Params) (n : Snapshot), p.legal = true →
    47 ≤ (sentence p.callsign n).length ∧ (sentence p.callsign n).length ≤ 95

/-- R96: the bytes a sentence can contain; none is 0x00, and after `FMT.RTTY` the first `NUL` of the buffer is the terminator it
wrote. -/
def Obligations.SentenceBytesAndTerminator : Prop :=
  (∀ (p : Params) (n : Snapshot), p.legal = true → ∀ b ∈ sentence p.callsign n,
    (b = 0x24 ∨ b = 0x2A ∨ b = 0x2C ∨ b = 0x2D ∨ b = 0x2E ∨ isDigit b ∨ b = 0x3A ∨ (0x41 ≤ b.toNat ∧ b.toNat ≤ 0x46)
      ∨ b = 0x0A ∨ b ∈ p.callsign) ∧ b ≠ 0x00)
  ∧ (∀ s t : State, s.params.legal = true → Memory.wf s.mem = true → exec .fmtRtty s = .next t →
      memRead t.mem (sentence s.params.callsign s.snap).length = 0x00
      ∧ ∀ k, k < (sentence s.params.callsign s.snap).length → memRead t.mem k ≠ 0x00)

/-- `FMT.RTTY` (43_formatter.md R165): it always completes with legal parameters; it writes the sentence and its `NUL` from
offset 0 of `RTTY_BUF`, leaves the checksum of the body in `crc_reg`, selects `RTTY_BUF`, and touches no other byte of the
buffer space and no other register. -/
def Obligations.FmtRttyWritesTheSentence : Prop :=
  ∀ s : State, s.params.legal = true → Memory.wf s.mem = true →
    ∃ t, exec .fmtRtty s = .next t
      ∧ t = { s with crcReg := crcOf (sentenceBody s.params.callsign s.snap), bufSel := .rttyBuf, mem := t.mem }
      ∧ (∀ k, k < (sentence s.params.callsign s.snap).length →
          some (memRead t.mem k) = (sentence s.params.callsign s.snap)[k]?)
      ∧ memRead t.mem (sentence s.params.callsign s.snap).length = 0x00
      ∧ (∀ a, (sentence s.params.callsign s.snap).length < a → memRead t.mem a = memRead s.mem a)

/-- R170: `FMT.FSK` writes `FSK_FRAME` from offset 0 of `FSK_BUF` and its length to `pkt_len`, selects `FSK_BUF`, does not read
the snapshot, and touches no other byte and no other register. -/
def Obligations.FmtFskWritesTheFrame : Prop :=
  ∀ s : State, s.params.legal = true → Memory.wf s.mem = true →
    ∃ t, exec .fmtFsk s = .next t
      ∧ t = { s with pktLen := BitVec.ofNat 8 s.params.fskFrame.length, bufSel := .fskBuf, mem := t.mem }
      ∧ t.pktLen.toNat = s.params.fskFrame.length
      ∧ (∀ k, k < s.params.fskFrame.length → some (memRead t.mem (0x80 + k)) = s.params.fskFrame[k]?)
      ∧ (∀ a, a < 0x80 ∨ 0x80 + s.params.fskFrame.length ≤ a → memRead t.mem a = memRead s.mem a)

/-- The round trip of a sentence (43_formatter.md R169), as injectivity: two snapshots with the same body, under one legal
callsign, agree in every field the sentence carries, coordinates to 0.0001 degree with their sign and altitude to the metre. -/
def Obligations.SentenceBodyDeterminesTheFieldsItCarries : Prop :=
  ∀ (p : Params) (n n' : Snapshot), p.legal = true → sentenceBody p.callsign n = sentenceBody p.callsign n' →
    n.frame = n'.frame ∧ n.hh = n'.hh ∧ n.mm = n'.mm ∧ n.ss = n'.ss ∧ n.speed = n'.speed ∧ n.sats = n'.sats
    ∧ n.volt = n'.volt ∧ n.temp = n'.temp ∧ Int.tdiv n.alt.toInt 1000 = Int.tdiv n'.alt.toInt 1000
    ∧ n.lat.toInt.natAbs / 1000 = n'.lat.toInt.natAbs / 1000 ∧ (n.lat.toInt < 0 ↔ n'.lat.toInt < 0)
    ∧ n.lon.toInt.natAbs / 1000 = n'.lon.toInt.natAbs / 1000 ∧ (n.lon.toInt < 0 ↔ n'.lon.toInt < 0)

/-- Formatting never re-reads the live data (20_memory.md R75, 60_exceptions.md R237): no operation but `SNAP.CAPTURE` and
`SEQ.STARTUP`, which calls it, depends on the data ports. -/
def Obligations.OnlyCaptureReadsTheDataPorts : Prop :=
  ∀ (i : Instr) (s : State) (gps : GpsFix) (volt : Half) (temp : Byte), i ≠ .snapCapture → (∀ t, i ≠ .seqStartup t) →
    exec i (withData gps volt temp s) = andThen (exec i s) (fun t => .next (withData gps volt temp t))

/-! ## The sequencer -/

/-- `ARM` (45_sequencer.md R216). -/
def Obligations.ArmLoadsTheTickRegisters : Prop :=
  ∀ s : State, exec .arm s = .next { s with
    txOn := true, txEnable := false, cursor := 0, prestartCnt := s.params.preStartBits, bitIdx := 0, symIdx := 0
    radioEn := true }

/-- R210, R213, R214: `SEQ.NONE` and `SEQ.WAIT` change nothing; `SEQ.WRAP` sets `mode` to `Startup` and nothing else, so the
guard is as before and the next sequencer step with `seq_en = 1` is `SEQ.STARTUP`. -/
def Obligations.SeqWaitsChangeNothingAndWrapOnlyTheMode : Prop :=
  ∀ s : State,
    (∀ t o e m, exec (.seqNone t o e m) s = .next s)
    ∧ (∀ t e m, exec (.seqWaitTransmitting t e m) s = .next s)
    ∧ (∀ t m, exec (.seqWaitDelay t m) s = .next s)
    ∧ (∀ t m, exec (.seqWrap t m) s = .next { s with mode := .startup })
    ∧ Machine.guard { s with mode := .startup } = Machine.guard s
    ∧ (∀ p : Ports, p.rst = false → p.seqEn = true → Machine.guard s = true →
        decodeSeqCw (controlWord { s with mode := .startup, ports := p }) = .ok (.seqStartup p.tick))

/-- `SEQ.STARTUP` (45_sequencer.md R211): with legal parameters it always completes, whatever the ports carry; capture, `mode`
to `Rtty`, the sentence of the new snapshot in `RTTY_BUF`, armed; `dev_reg`, `mark_led`, `delay_cnt`, `pkt_len`, `dev_we` and
every byte after the `NUL` are as before. -/
def Obligations.SeqStartupCapturesFormatsAndArms : Prop :=
  ∀ (tk : Bool) (s : State) (n : Snapshot), s.params.legal = true → Memory.wf s.mem = true →
    n = snapshotOf s.params s.ports (s.frameCounter + 1) →
    ∃ t, exec (.seqStartup tk) s = .next t
      ∧ t = { s with
          frameCounter := s.frameCounter + 1, snap := n, mode := .rtty, crcReg := crcOf (sentenceBody s.params.callsign n)
          bufSel := .rttyBuf, mem := t.mem, txOn := true, txEnable := false, cursor := 0
          prestartCnt := s.params.preStartBits, bitIdx := 0, symIdx := 0, radioEn := true }
      ∧ (∀ k, k < (sentence s.params.callsign n).length → some (memRead t.mem k) = (sentence s.params.callsign n)[k]?)
      ∧ memRead t.mem (sentence s.params.callsign n).length = 0x00
      ∧ (∀ a, (sentence s.params.callsign n).length < a → memRead t.mem a = memRead s.mem a)

/-- `SEQ.FSK` (45_sequencer.md R212): with legal parameters it always completes; `mode` to `FSK_SELECT`, the frame in
`FSK_BUF`, armed; the snapshot, the frame counter, `crc_reg`, `RTTY_BUF`, `dev_reg` and `mark_led` are as before. -/
def Obligations.SeqFskFormatsAndArms : Prop :=
  ∀ (tk : Bool) (s : State), s.params.legal = true → Memory.wf s.mem = true →
    ∃ t, exec (.seqFsk tk) s = .next t
      ∧ t = { s with
          mode := (match s.params.fskSelect with | .fsk4 => .fsk4 | .fsk2 => .fsk2)
          pktLen := BitVec.ofNat 8 s.params.fskFrame.length, bufSel := .fskBuf, mem := t.mem, txOn := true
          txEnable := false, cursor := 0, prestartCnt := s.params.preStartBits, bitIdx := 0, symIdx := 0, radioEn := true }
      ∧ (∀ k, k < s.params.fskFrame.length → some (memRead t.mem (0x80 + k)) = s.params.fskFrame[k]?)
      ∧ (∀ a, a < 0x80 ∨ 0x80 + s.params.fskFrame.length ≤ a → memRead t.mem a = memRead s.mem a)

/-! ## The whole machine -/

/-- A good state stays good: the invariants of 10_state.md R49 (made inductive), legal parameters, a canonical buffer space and
an empty micro-operation port (the model's own, log 4) are kept by every step, whatever the environment drives. -/
def Obligations.StepKeepsGoodStates : Prop := ∀ s t : State, Inv s → step s = .next t → Inv t

/-- From a good state the step always goes on: neither model-level outcome of 60_exceptions.md R235 is reachable from reset with
legal parameters. -/
def Obligations.GoodStatesNeverStop : Prop := ∀ s : State, Inv s → StepGoesOn s

/-- R218: while a packet is on air no step but a reset edge changes `mode`, `buf_sel`, `pkt_len` or a buffer byte, for any
`tick` and `seq_en`, and not through the model's own port either (R266; the port is the model's choice, log 4, and so is its
refusal of a formatter on air, log 15); no edge but a reset changes the snapshot, the frame counter or `crc_reg` then. An
edge without reset changes those four only where it performs `SEQ.STARTUP`, `SEQ.FSK` or `SEQ.WRAP`, and then `tx_on` was
0. -/
def Obligations.PacketOnAirProtectsItsBuffer : Prop :=
  ∀ s t : State, s.probe ≠ none ∨ s.ports.rst = false → step s = .next t →
    (s.txOn = true → BufferFrame s t)
    ∧ (s.probe = none →
        (s.txOn = true → t.snap = s.snap ∧ t.frameCounter = s.frameCounter ∧ t.crcReg = s.crcReg)
        ∧ (BufferFrame s t ∨ s.txOn = false ∧ ∃ i, decodeSeqCw (controlWord s) = .ok i
            ∧ ((∃ k, i = .seqStartup k) ∨ (∃ k, i = .seqFsk k) ∨ (∃ k m, i = .seqWrap k m))))

/-- The mode moves only along the cycle, and exactly where the guard holds and `seq_en` is 1; each pass from `Startup` to `Rtty`
increments the frame counter by one, and nothing else changes it (45_sequencer.md R215, R217). -/
def Obligations.ModeMovesAlongTheCycle : Prop :=
  ∀ s t : State, s.probe = none → s.ports.rst = false → step s = .next t →
    if s.ports.seqEn = true ∧ Machine.guard s = true then
      match s.mode with
      | .startup => t.mode = .rtty ∧ t.frameCounter = s.frameCounter + 1
      | .rtty => t.mode = (match s.params.fskSelect with | .fsk4 => .fsk4 | .fsk2 => .fsk2) ∧ t.frameCounter = s.frameCounter
      | .fsk4 => t.mode = .startup ∧ t.frameCounter = s.frameCounter
      | .fsk2 => t.mode = .startup ∧ t.frameCounter = s.frameCounter
    else t.mode = s.mode ∧ t.frameCounter = s.frameCounter

/-- When the flags change at an edge without reset (10_state.md R27, R28): `tx_on` rises exactly where the sequencer arms and falls
only at a tick, without a write; `tx_enable` rises only at a tick that leaves the delay at 0 and falls only where `tx_on` rises. -/
def Obligations.TxFlagsChangeOnlyAtArmAndTick : Prop :=
  ∀ s t : State, s.probe = none → s.ports.rst = false → step s = .next t →
    (s.txOn = false → (t.txOn = true ↔
      s.ports.seqEn = true ∧ Machine.guard s = true ∧ (s.mode = .startup ∨ s.mode = .rtty)))
    ∧ (s.txOn = true → t.txOn = false → s.ports.tick = true ∧ t.devWe = false)
    ∧ (s.txEnable = false → t.txEnable = true → s.ports.tick = true ∧ t.txOn = false ∧ t.delayCnt = 0)
    ∧ (s.txEnable = true → t.txEnable = false → s.txOn = false ∧ t.txOn = true)

/-- The radio stays keyed (10_state.md R46): nothing but a reset clears `radio_en`, a step through the model's own port (log 4)
included. -/
def Obligations.RadioStaysKeyed : Prop :=
  ∀ s t : State, s.probe ≠ none ∨ s.ports.rst = false → s.radioEn = true → step s = .next t → t.radioEn = true

/-- The order of the tick and the sequencer operation of one edge can be observed in no run (60_exceptions.md R238). -/
def Obligations.TickAndSequencerCommute : Prop :=
  ∀ (s : State) (t q : Instr), decodeEdge (controlWord s) = [t, q] →
    andThen (exec t s) (exec q) = andThen (exec q s) (exec t)

/-- Ownership (10_state.md R20, 60_exceptions.md R242): a tick operation writes no register of the sequencer, nor `radio_en`,
nor a buffer byte; a sequencer operation writes, of the tick's registers, only those `ARM` loads. -/
def Obligations.EachAgentWritesItsOwnRegisters : Prop :=
  ∀ (i : Instr) (s t : State), exec i s = .next t →
    (i.format = .t → BufferFrame s t ∧ t.frameCounter = s.frameCounter ∧ t.crcReg = s.crcReg ∧ t.snap = s.snap
      ∧ t.radioEn = s.radioEn ∧ t.params = s.params ∧ t.ports = s.ports ∧ t.script = s.script ∧ t.edge = s.edge
      ∧ t.probe = s.probe ∧ t.result = s.result)
    ∧ (i.format = .s → t.delayCnt = s.delayCnt ∧ t.devReg = s.devReg ∧ t.devWe = s.devWe ∧ t.markLed = s.markLed
      ∧ t.params = s.params ∧ t.ports = s.ports ∧ t.script = s.script ∧ t.edge = s.edge
      ∧ t.probe = s.probe ∧ t.result = s.result
      ∧ ((t.txOn = s.txOn ∧ t.txEnable = s.txEnable ∧ t.cursor = s.cursor ∧ t.prestartCnt = s.prestartCnt
          ∧ t.bitIdx = s.bitIdx ∧ t.symIdx = s.symIdx ∧ t.radioEn = s.radioEn) ∨ Armed s t))
end

