-- ==== Sys2Proof/Laws/Memory.lean ====
section
/-! SUPPORT. Every operation on the buffer space keeps its canonical form, and what the buffer addresses are. -/

namespace Sys2Proof.Machine

theorem wfFrom_mono {lo lo' : Nat} (hle : lo' ≤ lo) : ∀ {m : List Host.Cell}, wfFrom lo m = true → wfFrom lo' m = true
  | [], _ => rfl
  | (k, v) :: rest, h => by
    simp only [wfFrom, Bool.and_eq_true, decide_eq_true_eq] at h ⊢
    exact ⟨⟨⟨by omega, h.1.1.2⟩, h.1.2⟩, h.2⟩

theorem wfFrom_memWrite {a : Nat} (v : Byte) (ha : a < 256) :
    ∀ {m : List Host.Cell} {lo : Nat}, lo ≤ a → wfFrom lo m = true → wfFrom lo (memWrite m a v) = true
  | [], lo, hlo, _ => by
    unfold memWrite
    split
    · rfl
    · next hv => simp [wfFrom, hlo, ha, hv]
  | (k, w) :: rest, lo, hlo, h => by
    have h' := h
    simp only [wfFrom, Bool.and_eq_true, decide_eq_true_eq] at h
    obtain ⟨⟨⟨hk, hk'⟩, hw⟩, hr⟩ := h
    unfold memWrite
    split
    · split
      · exact h'
      · next hak hv =>
        simp only [wfFrom, Bool.and_eq_true, decide_eq_true_eq]
        exact ⟨⟨⟨hlo, ha⟩, by simpa using hv⟩, ⟨⟨by omega, hk'⟩, hw⟩, hr⟩
    · split
      · split
        · exact wfFrom_mono (by omega) hr
        · next hak hv =>
          simp only [wfFrom, Bool.and_eq_true, decide_eq_true_eq]
          exact ⟨⟨⟨hlo, ha⟩, by simpa using hv⟩, by subst_vars; exact hr⟩
      · simp only [wfFrom, Bool.and_eq_true, decide_eq_true_eq]
        exact ⟨⟨⟨hk, hk'⟩, hw⟩, wfFrom_memWrite v ha (by omega) hr⟩

/-- `MemWrite` at an address of the buffer space keeps the canonical form. -/
theorem memWrite_wf {m : List Host.Cell} {a : Nat} (v : Byte) (ha : a < 256) (h : Memory.wf m = true) :
    Memory.wf (memWrite m a v) = true :=
  wfFrom_memWrite v ha (Nat.zero_le a) h

/-- A buffer address is the selected buffer's base plus an offset below 128 (20_memory.md R61). -/
theorem bufAddr_eq_some {sel : BufSel} {offset a : Nat} :
    bufAddr sel offset = some a ↔ offset < 128 ∧ a = sel.base + offset := by
  unfold bufAddr
  split <;> simp_all [eq_comm]

/-- Every buffer address is an address of the buffer space (20_memory.md R60). -/
theorem bufAddr_lt {sel : BufSel} {offset a : Nat} (h : bufAddr sel offset = some a) : a < 256 := by
  obtain ⟨ho, rfl⟩ := bufAddr_eq_some.1 h
  cases sel <;> simp [BufSel.base] <;> omega

/-- Writing a run of bytes keeps the canonical form. -/
theorem bufWrite_wf {sel : BufSel} :
    ∀ {bytes : List Byte} {offset : Nat} {m m' : List Host.Cell},
      bufWrite m sel offset bytes = some m' → Memory.wf m = true → Memory.wf m' = true
  | [], _, m, m', h, hm => by simp only [bufWrite, Option.some.injEq] at h; exact h ▸ hm
  | b :: rest, offset, m, m', h, hm => by
    unfold bufWrite at h
    split at h
    · next a ha => exact bufWrite_wf h (memWrite_wf b (bufAddr_lt ha) hm)
    · cases h

/-- A run of bytes is written exactly if it fits in the buffer (20_memory.md R65). -/
theorem bufWrite_isSome {sel : BufSel} :
    ∀ {bytes : List Byte} {offset : Nat} {m : List Host.Cell}, offset + bytes.length ≤ 128 →
      ∃ m', bufWrite m sel offset bytes = some m'
  | [], _, m, _ => ⟨m, rfl⟩
  | b :: rest, offset, m, h => by
    simp only [List.length_cons] at h
    simpa [bufWrite, bufAddr, show offset < 128 by omega] using bufWrite_isSome (by omega)

/-- A buffer read is the byte at the selected buffer's base plus the offset, if that is below 128. -/
theorem bufRead_eq_some {s : State} {offset : Nat} {b : Byte} :
    bufRead s offset = some b ↔ offset < 128 ∧ memRead s.mem (s.bufSel.base + offset) = b := by
  unfold bufRead bufAddr
  by_cases h : offset < 128 <;> simp [h]

/-- A buffer read has no byte exactly at an offset of 128 or above (20_memory.md R65). -/
theorem bufRead_eq_none {s : State} {offset : Nat} : bufRead s offset = none ↔ 128 ≤ offset := by
  unfold bufRead bufAddr
  by_cases h : offset < 128 <;> simp [h]
  omega

/-- Reset memory lists nothing. -/
theorem reset_memory_wf (p : Params) : Memory.wf (State.resetWith p).mem = true := rfl

end Sys2Proof.Machine
end

