-- ==== Sys2Proof/Laws/State.lean ====
section
/-! SUPPORT. What each named update of the state leaves in every field: the fields it writes, and that it keeps
all the others. -/

namespace Sys2Proof.Machine

@[simp] theorem clearDevWe_writes (s : State) :
    (clearDevWe s).devWe = false := rfl

@[simp] theorem clearDevWe_keeps (s : State) :
    (clearDevWe s).params = s.params ∧ (clearDevWe s).ports = s.ports ∧ (clearDevWe s).script = s.script ∧
      (clearDevWe s).edge = s.edge ∧ (clearDevWe s).probe = s.probe ∧ (clearDevWe s).result = s.result ∧
      (clearDevWe s).mode = s.mode ∧ (clearDevWe s).bufSel = s.bufSel ∧ (clearDevWe s).pktLen = s.pktLen ∧
      (clearDevWe s).frameCounter = s.frameCounter ∧ (clearDevWe s).crcReg = s.crcReg ∧
      (clearDevWe s).snap = s.snap ∧ (clearDevWe s).mem = s.mem ∧ (clearDevWe s).txOn = s.txOn ∧
      (clearDevWe s).txEnable = s.txEnable ∧ (clearDevWe s).cursor = s.cursor ∧
      (clearDevWe s).delayCnt = s.delayCnt ∧ (clearDevWe s).prestartCnt = s.prestartCnt ∧
      (clearDevWe s).bitIdx = s.bitIdx ∧ (clearDevWe s).symIdx = s.symIdx ∧ (clearDevWe s).devReg = s.devReg ∧
      (clearDevWe s).markLed = s.markLed ∧ (clearDevWe s).radioEn = s.radioEn :=
  ⟨rfl, rfl, rfl, rfl, rfl, rfl, rfl, rfl, rfl, rfl, rfl, rfl, rfl, rfl, rfl, rfl, rfl, rfl, rfl, rfl, rfl, rfl, rfl⟩

@[simp] theorem devWriteOp_writes (v : Byte) (s : State) :
    (devWriteOp v s).devReg = (if s.ports.disableArmed then s.devReg else v) ∧
      (devWriteOp v s).devWe = !s.ports.disableArmed :=
  ⟨rfl, rfl⟩

@[simp] theorem devWriteOp_keeps (v : Byte) (s : State) :
    (devWriteOp v s).params = s.params ∧ (devWriteOp v s).ports = s.ports ∧
      (devWriteOp v s).script = s.script ∧ (devWriteOp v s).edge = s.edge ∧ (devWriteOp v s).probe = s.probe ∧
      (devWriteOp v s).result = s.result ∧ (devWriteOp v s).mode = s.mode ∧
      (devWriteOp v s).bufSel = s.bufSel ∧ (devWriteOp v s).pktLen = s.pktLen ∧
      (devWriteOp v s).frameCounter = s.frameCounter ∧ (devWriteOp v s).crcReg = s.crcReg ∧
      (devWriteOp v s).snap = s.snap ∧ (devWriteOp v s).mem = s.mem ∧ (devWriteOp v s).txOn = s.txOn ∧
      (devWriteOp v s).txEnable = s.txEnable ∧ (devWriteOp v s).cursor = s.cursor ∧
      (devWriteOp v s).delayCnt = s.delayCnt ∧ (devWriteOp v s).prestartCnt = s.prestartCnt ∧
      (devWriteOp v s).bitIdx = s.bitIdx ∧ (devWriteOp v s).symIdx = s.symIdx ∧
      (devWriteOp v s).markLed = s.markLed ∧ (devWriteOp v s).radioEn = s.radioEn :=
  ⟨rfl, rfl, rfl, rfl, rfl, rfl, rfl, rfl, rfl, rfl, rfl, rfl, rfl, rfl, rfl, rfl, rfl, rfl, rfl, rfl, rfl, rfl⟩

@[simp] theorem setMarkLed_writes (v : Bool) (s : State) :
    (setMarkLed v s).markLed = (if s.ports.disableArmed then s.markLed else v) := rfl

@[simp] theorem setMarkLed_keeps (v : Bool) (s : State) :
    (setMarkLed v s).params = s.params ∧ (setMarkLed v s).ports = s.ports ∧
      (setMarkLed v s).script = s.script ∧ (setMarkLed v s).edge = s.edge ∧ (setMarkLed v s).probe = s.probe ∧
      (setMarkLed v s).result = s.result ∧ (setMarkLed v s).mode = s.mode ∧
      (setMarkLed v s).bufSel = s.bufSel ∧ (setMarkLed v s).pktLen = s.pktLen ∧
      (setMarkLed v s).frameCounter = s.frameCounter ∧ (setMarkLed v s).crcReg = s.crcReg ∧
      (setMarkLed v s).snap = s.snap ∧ (setMarkLed v s).mem = s.mem ∧ (setMarkLed v s).txOn = s.txOn ∧
      (setMarkLed v s).txEnable = s.txEnable ∧ (setMarkLed v s).cursor = s.cursor ∧
      (setMarkLed v s).delayCnt = s.delayCnt ∧ (setMarkLed v s).prestartCnt = s.prestartCnt ∧
      (setMarkLed v s).bitIdx = s.bitIdx ∧ (setMarkLed v s).symIdx = s.symIdx ∧
      (setMarkLed v s).devReg = s.devReg ∧ (setMarkLed v s).devWe = s.devWe ∧
      (setMarkLed v s).radioEn = s.radioEn :=
  ⟨rfl, rfl, rfl, rfl, rfl, rfl, rfl, rfl, rfl, rfl, rfl, rfl, rfl, rfl, rfl, rfl, rfl, rfl, rfl, rfl, rfl, rfl, rfl⟩

@[simp] theorem endPacketOp_writes (s : State) :
    (endPacketOp s).txOn = false ∧ (endPacketOp s).delayCnt = s.params.txDelayTicks :=
  ⟨rfl, rfl⟩

@[simp] theorem endPacketOp_keeps (s : State) :
    (endPacketOp s).params = s.params ∧ (endPacketOp s).ports = s.ports ∧ (endPacketOp s).script = s.script ∧
      (endPacketOp s).edge = s.edge ∧ (endPacketOp s).probe = s.probe ∧ (endPacketOp s).result = s.result ∧
      (endPacketOp s).mode = s.mode ∧ (endPacketOp s).bufSel = s.bufSel ∧ (endPacketOp s).pktLen = s.pktLen ∧
      (endPacketOp s).frameCounter = s.frameCounter ∧ (endPacketOp s).crcReg = s.crcReg ∧
      (endPacketOp s).snap = s.snap ∧ (endPacketOp s).mem = s.mem ∧ (endPacketOp s).txEnable = s.txEnable ∧
      (endPacketOp s).cursor = s.cursor ∧ (endPacketOp s).prestartCnt = s.prestartCnt ∧
      (endPacketOp s).bitIdx = s.bitIdx ∧ (endPacketOp s).symIdx = s.symIdx ∧
      (endPacketOp s).devReg = s.devReg ∧ (endPacketOp s).devWe = s.devWe ∧
      (endPacketOp s).markLed = s.markLed ∧ (endPacketOp s).radioEn = s.radioEn :=
  ⟨rfl, rfl, rfl, rfl, rfl, rfl, rfl, rfl, rfl, rfl, rfl, rfl, rfl, rfl, rfl, rfl, rfl, rfl, rfl, rfl, rfl, rfl⟩

@[simp] theorem armOp_writes (s : State) :
    (armOp s).txOn = true ∧ (armOp s).txEnable = false ∧ (armOp s).cursor = 0 ∧
      (armOp s).prestartCnt = s.params.preStartBits ∧ (armOp s).bitIdx = 0 ∧ (armOp s).symIdx = 0 ∧
      (armOp s).radioEn = true :=
  ⟨rfl, rfl, rfl, rfl, rfl, rfl, rfl⟩

@[simp] theorem armOp_keeps (s : State) :
    (armOp s).params = s.params ∧ (armOp s).ports = s.ports ∧ (armOp s).script = s.script ∧
      (armOp s).edge = s.edge ∧ (armOp s).probe = s.probe ∧ (armOp s).result = s.result ∧
      (armOp s).mode = s.mode ∧ (armOp s).bufSel = s.bufSel ∧ (armOp s).pktLen = s.pktLen ∧
      (armOp s).frameCounter = s.frameCounter ∧ (armOp s).crcReg = s.crcReg ∧ (armOp s).snap = s.snap ∧
      (armOp s).mem = s.mem ∧ (armOp s).delayCnt = s.delayCnt ∧ (armOp s).devReg = s.devReg ∧
      (armOp s).devWe = s.devWe ∧ (armOp s).markLed = s.markLed :=
  ⟨rfl, rfl, rfl, rfl, rfl, rfl, rfl, rfl, rfl, rfl, rfl, rfl, rfl, rfl, rfl, rfl, rfl⟩

@[simp] theorem setMode_writes (m : ModeState) (s : State) :
    (setMode m s).mode = m := rfl

@[simp] theorem setMode_keeps (m : ModeState) (s : State) :
    (setMode m s).params = s.params ∧ (setMode m s).ports = s.ports ∧ (setMode m s).script = s.script ∧
      (setMode m s).edge = s.edge ∧ (setMode m s).probe = s.probe ∧ (setMode m s).result = s.result ∧
      (setMode m s).bufSel = s.bufSel ∧ (setMode m s).pktLen = s.pktLen ∧
      (setMode m s).frameCounter = s.frameCounter ∧ (setMode m s).crcReg = s.crcReg ∧
      (setMode m s).snap = s.snap ∧ (setMode m s).mem = s.mem ∧ (setMode m s).txOn = s.txOn ∧
      (setMode m s).txEnable = s.txEnable ∧ (setMode m s).cursor = s.cursor ∧
      (setMode m s).delayCnt = s.delayCnt ∧ (setMode m s).prestartCnt = s.prestartCnt ∧
      (setMode m s).bitIdx = s.bitIdx ∧ (setMode m s).symIdx = s.symIdx ∧ (setMode m s).devReg = s.devReg ∧
      (setMode m s).devWe = s.devWe ∧ (setMode m s).markLed = s.markLed ∧ (setMode m s).radioEn = s.radioEn :=
  ⟨rfl, rfl, rfl, rfl, rfl, rfl, rfl, rfl, rfl, rfl, rfl, rfl, rfl, rfl, rfl, rfl, rfl, rfl, rfl, rfl, rfl, rfl, rfl⟩

@[simp] theorem setResult_writes (r : MicroResult) (s : State) :
    (setResult r s).result = some r := rfl

@[simp] theorem setResult_keeps (r : MicroResult) (s : State) :
    (setResult r s).params = s.params ∧ (setResult r s).ports = s.ports ∧ (setResult r s).script = s.script ∧
      (setResult r s).edge = s.edge ∧ (setResult r s).probe = s.probe ∧ (setResult r s).mode = s.mode ∧
      (setResult r s).bufSel = s.bufSel ∧ (setResult r s).pktLen = s.pktLen ∧
      (setResult r s).frameCounter = s.frameCounter ∧ (setResult r s).crcReg = s.crcReg ∧
      (setResult r s).snap = s.snap ∧ (setResult r s).mem = s.mem ∧ (setResult r s).txOn = s.txOn ∧
      (setResult r s).txEnable = s.txEnable ∧ (setResult r s).cursor = s.cursor ∧
      (setResult r s).delayCnt = s.delayCnt ∧ (setResult r s).prestartCnt = s.prestartCnt ∧
      (setResult r s).bitIdx = s.bitIdx ∧ (setResult r s).symIdx = s.symIdx ∧
      (setResult r s).devReg = s.devReg ∧ (setResult r s).devWe = s.devWe ∧
      (setResult r s).markLed = s.markLed ∧ (setResult r s).radioEn = s.radioEn :=
  ⟨rfl, rfl, rfl, rfl, rfl, rfl, rfl, rfl, rfl, rfl, rfl, rfl, rfl, rfl, rfl, rfl, rfl, rfl, rfl, rfl, rfl, rfl, rfl⟩

@[simp] theorem takeProbe_writes (s : State) :
    (takeProbe s).probe = none := rfl

@[simp] theorem takeProbe_keeps (s : State) :
    (takeProbe s).params = s.params ∧ (takeProbe s).ports = s.ports ∧ (takeProbe s).script = s.script ∧
      (takeProbe s).edge = s.edge ∧ (takeProbe s).result = s.result ∧ (takeProbe s).mode = s.mode ∧
      (takeProbe s).bufSel = s.bufSel ∧ (takeProbe s).pktLen = s.pktLen ∧
      (takeProbe s).frameCounter = s.frameCounter ∧ (takeProbe s).crcReg = s.crcReg ∧
      (takeProbe s).snap = s.snap ∧ (takeProbe s).mem = s.mem ∧ (takeProbe s).txOn = s.txOn ∧
      (takeProbe s).txEnable = s.txEnable ∧ (takeProbe s).cursor = s.cursor ∧
      (takeProbe s).delayCnt = s.delayCnt ∧ (takeProbe s).prestartCnt = s.prestartCnt ∧
      (takeProbe s).bitIdx = s.bitIdx ∧ (takeProbe s).symIdx = s.symIdx ∧ (takeProbe s).devReg = s.devReg ∧
      (takeProbe s).devWe = s.devWe ∧ (takeProbe s).markLed = s.markLed ∧ (takeProbe s).radioEn = s.radioEn :=
  ⟨rfl, rfl, rfl, rfl, rfl, rfl, rfl, rfl, rfl, rfl, rfl, rfl, rfl, rfl, rfl, rfl, rfl, rfl, rfl, rfl, rfl, rfl, rfl⟩

@[simp] theorem setCrc_writes (c : Half) (s : State) :
    (setCrc c s).crcReg = c := rfl

@[simp] theorem setCrc_keeps (c : Half) (s : State) :
    (setCrc c s).params = s.params ∧ (setCrc c s).ports = s.ports ∧ (setCrc c s).script = s.script ∧
      (setCrc c s).edge = s.edge ∧ (setCrc c s).probe = s.probe ∧ (setCrc c s).result = s.result ∧
      (setCrc c s).mode = s.mode ∧ (setCrc c s).bufSel = s.bufSel ∧ (setCrc c s).pktLen = s.pktLen ∧
      (setCrc c s).frameCounter = s.frameCounter ∧ (setCrc c s).snap = s.snap ∧ (setCrc c s).mem = s.mem ∧
      (setCrc c s).txOn = s.txOn ∧ (setCrc c s).txEnable = s.txEnable ∧ (setCrc c s).cursor = s.cursor ∧
      (setCrc c s).delayCnt = s.delayCnt ∧ (setCrc c s).prestartCnt = s.prestartCnt ∧
      (setCrc c s).bitIdx = s.bitIdx ∧ (setCrc c s).symIdx = s.symIdx ∧ (setCrc c s).devReg = s.devReg ∧
      (setCrc c s).devWe = s.devWe ∧ (setCrc c s).markLed = s.markLed ∧ (setCrc c s).radioEn = s.radioEn :=
  ⟨rfl, rfl, rfl, rfl, rfl, rfl, rfl, rfl, rfl, rfl, rfl, rfl, rfl, rfl, rfl, rfl, rfl, rfl, rfl, rfl, rfl, rfl, rfl⟩

@[simp] theorem advanceCursor_writes (s : State) :
    (advanceCursor s).cursor = s.cursor + 1 := rfl

@[simp] theorem advanceCursor_keeps (s : State) :
    (advanceCursor s).params = s.params ∧ (advanceCursor s).ports = s.ports ∧
      (advanceCursor s).script = s.script ∧ (advanceCursor s).edge = s.edge ∧
      (advanceCursor s).probe = s.probe ∧ (advanceCursor s).result = s.result ∧
      (advanceCursor s).mode = s.mode ∧ (advanceCursor s).bufSel = s.bufSel ∧
      (advanceCursor s).pktLen = s.pktLen ∧ (advanceCursor s).frameCounter = s.frameCounter ∧
      (advanceCursor s).crcReg = s.crcReg ∧ (advanceCursor s).snap = s.snap ∧ (advanceCursor s).mem = s.mem ∧
      (advanceCursor s).txOn = s.txOn ∧ (advanceCursor s).txEnable = s.txEnable ∧
      (advanceCursor s).delayCnt = s.delayCnt ∧ (advanceCursor s).prestartCnt = s.prestartCnt ∧
      (advanceCursor s).bitIdx = s.bitIdx ∧ (advanceCursor s).symIdx = s.symIdx ∧
      (advanceCursor s).devReg = s.devReg ∧ (advanceCursor s).devWe = s.devWe ∧
      (advanceCursor s).markLed = s.markLed ∧ (advanceCursor s).radioEn = s.radioEn :=
  ⟨rfl, rfl, rfl, rfl, rfl, rfl, rfl, rfl, rfl, rfl, rfl, rfl, rfl, rfl, rfl, rfl, rfl, rfl, rfl, rfl, rfl, rfl, rfl⟩

@[simp] theorem snapCaptureOp_writes (s : State) :
    (snapCaptureOp s).frameCounter = s.frameCounter + 1 ∧
      (snapCaptureOp s).snap = snapshotOf s.params s.ports (s.frameCounter + 1) :=
  ⟨rfl, rfl⟩

@[simp] theorem snapCaptureOp_keeps (s : State) :
    (snapCaptureOp s).params = s.params ∧ (snapCaptureOp s).ports = s.ports ∧
      (snapCaptureOp s).script = s.script ∧ (snapCaptureOp s).edge = s.edge ∧
      (snapCaptureOp s).probe = s.probe ∧ (snapCaptureOp s).result = s.result ∧
      (snapCaptureOp s).mode = s.mode ∧ (snapCaptureOp s).bufSel = s.bufSel ∧
      (snapCaptureOp s).pktLen = s.pktLen ∧ (snapCaptureOp s).crcReg = s.crcReg ∧
      (snapCaptureOp s).mem = s.mem ∧ (snapCaptureOp s).txOn = s.txOn ∧
      (snapCaptureOp s).txEnable = s.txEnable ∧ (snapCaptureOp s).cursor = s.cursor ∧
      (snapCaptureOp s).delayCnt = s.delayCnt ∧ (snapCaptureOp s).prestartCnt = s.prestartCnt ∧
      (snapCaptureOp s).bitIdx = s.bitIdx ∧ (snapCaptureOp s).symIdx = s.symIdx ∧
      (snapCaptureOp s).devReg = s.devReg ∧ (snapCaptureOp s).devWe = s.devWe ∧
      (snapCaptureOp s).markLed = s.markLed ∧ (snapCaptureOp s).radioEn = s.radioEn :=
  ⟨rfl, rfl, rfl, rfl, rfl, rfl, rfl, rfl, rfl, rfl, rfl, rfl, rfl, rfl, rfl, rfl, rfl, rfl, rfl, rfl, rfl, rfl⟩

@[simp] theorem advanceInputs_writes (s : State) :
    (advanceInputs s).ports = s.script.head?.getD (Config.environment s.edge) ∧
      (advanceInputs s).script = s.script.tail ∧ (advanceInputs s).edge = s.edge + 1 := by
  cases h : s.script <;> simp [advanceInputs, h]

@[simp] theorem advanceInputs_keeps (s : State) :
    (advanceInputs s).params = s.params ∧ (advanceInputs s).probe = s.probe ∧
      (advanceInputs s).result = s.result ∧ (advanceInputs s).mode = s.mode ∧
      (advanceInputs s).bufSel = s.bufSel ∧ (advanceInputs s).pktLen = s.pktLen ∧
      (advanceInputs s).frameCounter = s.frameCounter ∧ (advanceInputs s).crcReg = s.crcReg ∧
      (advanceInputs s).snap = s.snap ∧ (advanceInputs s).mem = s.mem ∧ (advanceInputs s).txOn = s.txOn ∧
      (advanceInputs s).txEnable = s.txEnable ∧ (advanceInputs s).cursor = s.cursor ∧
      (advanceInputs s).delayCnt = s.delayCnt ∧ (advanceInputs s).prestartCnt = s.prestartCnt ∧
      (advanceInputs s).bitIdx = s.bitIdx ∧ (advanceInputs s).symIdx = s.symIdx ∧
      (advanceInputs s).devReg = s.devReg ∧ (advanceInputs s).devWe = s.devWe ∧
      (advanceInputs s).markLed = s.markLed ∧ (advanceInputs s).radioEn = s.radioEn :=
  ⟨rfl, rfl, rfl, rfl, rfl, rfl, rfl, rfl, rfl, rfl, rfl, rfl, rfl, rfl, rfl, rfl, rfl, rfl, rfl, rfl, rfl⟩

@[simp] theorem resetOp_writes (s : State) :
    (resetOp s).mode = .startup ∧ (resetOp s).bufSel = .rttyBuf ∧ (resetOp s).pktLen = 0 ∧
      (resetOp s).frameCounter = 0 ∧ (resetOp s).crcReg = 0xFFFF ∧ (resetOp s).snap = Snapshot.reset ∧
      (resetOp s).mem = [] ∧ (resetOp s).txOn = false ∧ (resetOp s).txEnable = true ∧ (resetOp s).cursor = 0 ∧
      (resetOp s).delayCnt = 0 ∧ (resetOp s).prestartCnt = 0 ∧ (resetOp s).bitIdx = 0 ∧
      (resetOp s).symIdx = 0 ∧ (resetOp s).devReg = 0 ∧ (resetOp s).devWe = false ∧
      (resetOp s).markLed = false ∧ (resetOp s).radioEn = false :=
  ⟨rfl, rfl, rfl, rfl, rfl, rfl, rfl, rfl, rfl, rfl, rfl, rfl, rfl, rfl, rfl, rfl, rfl, rfl⟩

@[simp] theorem resetOp_keeps (s : State) :
    (resetOp s).params = s.params ∧ (resetOp s).ports = s.ports ∧ (resetOp s).script = s.script ∧
      (resetOp s).edge = s.edge ∧ (resetOp s).probe = s.probe ∧ (resetOp s).result = s.result :=
  ⟨rfl, rfl, rfl, rfl, rfl, rfl⟩

@[simp] theorem delayStepOp_writes (s : State) :
    (delayStepOp s).txEnable = (s.txEnable || (!s.txOn && decide (s.delayCnt ≤ 1))) ∧
      (delayStepOp s).delayCnt = (if !s.txOn && !s.txEnable then (if s.delayCnt ≤ 1 then 0 else s.delayCnt - 1) else s.delayCnt) := by
  unfold delayStepOp; split <;> try split
  all_goals simp_all

@[simp] theorem delayStepOp_keeps (s : State) :
    (delayStepOp s).params = s.params ∧ (delayStepOp s).ports = s.ports ∧ (delayStepOp s).script = s.script ∧
      (delayStepOp s).edge = s.edge ∧ (delayStepOp s).probe = s.probe ∧ (delayStepOp s).result = s.result ∧
      (delayStepOp s).mode = s.mode ∧ (delayStepOp s).bufSel = s.bufSel ∧ (delayStepOp s).pktLen = s.pktLen ∧
      (delayStepOp s).frameCounter = s.frameCounter ∧ (delayStepOp s).crcReg = s.crcReg ∧
      (delayStepOp s).snap = s.snap ∧ (delayStepOp s).mem = s.mem ∧ (delayStepOp s).txOn = s.txOn ∧
      (delayStepOp s).cursor = s.cursor ∧ (delayStepOp s).prestartCnt = s.prestartCnt ∧
      (delayStepOp s).bitIdx = s.bitIdx ∧ (delayStepOp s).symIdx = s.symIdx ∧
      (delayStepOp s).devReg = s.devReg ∧ (delayStepOp s).devWe = s.devWe ∧
      (delayStepOp s).markLed = s.markLed ∧ (delayStepOp s).radioEn = s.radioEn := by
  unfold delayStepOp; split <;> try split
  all_goals exact ⟨rfl, rfl, rfl, rfl, rfl, rfl, rfl, rfl, rfl, rfl, rfl, rfl, rfl, rfl, rfl, rfl, rfl, rfl, rfl, rfl, rfl, rfl⟩

end Sys2Proof.Machine
end

