-- ==== Sys2Proof/Laws/Ops.lean ====
section
/-! SUPPORT. For each shared operation, what it can do: cited in place of unfolding it. -/

namespace Sys2Proof.Machine

/-! ## Outcomes -/

@[simp] theorem andThen_next (s : State) (f : State → Res) : andThen (.next s) f = f s := rfl
@[simp] theorem andThen_fault (r : Fault) (f : State → Res) : andThen (.fault r) f = .fault r := rfl
@[simp] theorem andThen_refused (r : Refusal) (f : State → Res) : andThen (.refused r) f = .refused r := rfl

theorem andThen_eq_next {o : Res} {f : State → Res} {t : State} :
    andThen o f = .next t ↔ ∃ u, o = .next u ∧ f u = .next t := by
  cases o <;> simp [andThen]

/-! ## Generators -/

theorem bitIdx_ne_zero {s : State} {n : Nat} (h : n + 1 ≤ s.bitIdx.toNat) : s.bitIdx ≠ 0 := by
  intro hz
  rw [hz] at h
  simp at h

/-- 41_rtty_framer.md R121. -/
theorem rttyNextOp_preStart {s : State} (b : Byte) (hp : s.prestartCnt ≠ 0) :
    rttyNextOp b s = (.one, { s with prestartCnt := s.prestartCnt - 1 }) := if_pos hp

/-- 41_rtty_framer.md R122. -/
theorem rttyNextOp_startBit {s : State} (b : Byte) (hp : s.prestartCnt = 0) (hb : s.bitIdx = 0) :
    rttyNextOp b s = (.zero, { s with bitIdx := 1 }) := by
  unfold rttyNextOp
  rw [if_neg (not_not.2 hp), if_pos hb]

/-- 41_rtty_framer.md R123. -/
theorem rttyNextOp_dataBit {s : State} (b : Byte) (hp : s.prestartCnt = 0) (hb : s.bitIdx ≠ 0)
    (hd : s.bitIdx.toNat ≤ s.params.dataBits.toNat) :
    rttyNextOp b s
      = (if b.getLsbD (s.bitIdx.toNat - 1) then .one else .zero, { s with bitIdx := s.bitIdx + 1 }) := by
  unfold rttyNextOp
  rw [if_neg (not_not.2 hp), if_neg hb, if_pos hd]

/-- 41_rtty_framer.md R124. -/
theorem rttyNextOp_stopBit {s : State} (b : Byte) (hp : s.prestartCnt = 0)
    (hd : s.bitIdx.toNat = s.params.dataBits.toNat + 1) :
    rttyNextOp b s = (.one, { s with bitIdx := s.bitIdx + 1 }) := by
  unfold rttyNextOp
  rw [if_neg (not_not.2 hp), if_neg (bitIdx_ne_zero hd.ge), if_neg (by omega), if_pos hd]

/-- 41_rtty_framer.md R125. -/
theorem rttyNextOp_end {s : State} (b : Byte) (hp : s.prestartCnt = 0)
    (hd : s.params.dataBits.toNat + 2 ≤ s.bitIdx.toNat) :
    rttyNextOp b s = (.fin, { s with bitIdx := 0 }) := by
  unfold rttyNextOp
  rw [if_neg (not_not.2 hp), if_neg (bitIdx_ne_zero hd), if_neg (by omega), if_neg (by omega)]

/-- What `RTTY.NEXT` can do (41_rtty_framer.md R121 to R125). -/
theorem rttyNextOp_cases (b : Byte) (s : State) :
    (s.prestartCnt ≠ 0 ∧ rttyNextOp b s = (.one, { s with prestartCnt := s.prestartCnt - 1 }))
    ∨ (s.prestartCnt = 0 ∧ s.bitIdx = 0 ∧ rttyNextOp b s = (.zero, { s with bitIdx := 1 }))
    ∨ (s.prestartCnt = 0 ∧ s.bitIdx ≠ 0 ∧ s.bitIdx.toNat ≤ s.params.dataBits.toNat
        ∧ rttyNextOp b s = (if b.getLsbD (s.bitIdx.toNat - 1) then .one else .zero, { s with bitIdx := s.bitIdx + 1 }))
    ∨ (s.prestartCnt = 0 ∧ s.bitIdx.toNat = s.params.dataBits.toNat + 1
        ∧ rttyNextOp b s = (.one, { s with bitIdx := s.bitIdx + 1 }))
    ∨ (s.prestartCnt = 0 ∧ s.params.dataBits.toNat + 2 ≤ s.bitIdx.toNat
        ∧ rttyNextOp b s = (.fin, { s with bitIdx := 0 })) := by
  by_cases hp : s.prestartCnt = 0
  · by_cases hb : s.bitIdx = 0
    · exact .inr (.inl ⟨hp, hb, rttyNextOp_startBit b hp hb⟩)
    · rcases lt_trichotomy s.bitIdx.toNat (s.params.dataBits.toNat + 1) with hd | hd | hd
      · exact .inr (.inr (.inl ⟨hp, hb, by omega, rttyNextOp_dataBit b hp hb (by omega)⟩))
      · exact .inr (.inr (.inr (.inl ⟨hp, hd, rttyNextOp_stopBit b hp hd⟩)))
      · exact .inr (.inr (.inr (.inr ⟨hp, by omega, rttyNextOp_end b hp (by omega)⟩)))
  · exact .inl ⟨hp, rttyNextOp_preStart b hp⟩

/-- 42_fsk_mappers.md R136, R140. -/
theorem mapperNext_noSym {count : Nat} (field : Bool → Byte → Nat → BitVec 2) (b : Byte) {s : State}
    (h : count ≤ s.symIdx.toNat) : mapperNext count field b s = (.noSym, { s with symIdx := 0 }) := if_pos h

/-- 42_fsk_mappers.md R137, R141. -/
theorem mapperNext_symbol {count : Nat} (field : Bool → Byte → Nat → BitVec 2) (b : Byte) {s : State}
    (h : s.symIdx.toNat < count) : mapperNext count field b s
      = (.symbol (field s.params.fskMsbFirst b s.symIdx.toNat), { s with symIdx := s.symIdx + 1 }) :=
  if_neg (by omega)

/-- What a mapper of `count` symbols can do (42_fsk_mappers.md R136, R137, R140, R141). -/
theorem mapperNext_cases (count : Nat) (field : Bool → Byte → Nat → BitVec 2) (b : Byte) (s : State) :
    (count ≤ s.symIdx.toNat ∧ mapperNext count field b s = (.noSym, { s with symIdx := 0 }))
    ∨ (s.symIdx.toNat < count ∧ mapperNext count field b s
        = (.symbol (field s.params.fskMsbFirst b s.symIdx.toNat), { s with symIdx := s.symIdx + 1 })) := by
  by_cases h : count ≤ s.symIdx.toNat
  · exact .inl ⟨h, mapperNext_noSym field b h⟩
  · exact .inr ⟨by omega, mapperNext_symbol field b (by omega)⟩

/-! ## The delay -/

/-- While a packet is on air, or ready to transmit, `DELAY.STEP` does nothing (44_tick_engine.md R198). -/
theorem delayStepOp_idle {s : State} (h : s.txOn = true ∨ s.txEnable = true) : delayStepOp s = s := by
  unfold delayStepOp
  rw [if_neg (by rcases h with h | h <;> simp [h])]

/-- The `DELAY.STEP` that runs out (44_tick_engine.md R198). -/
theorem delayStepOp_runsOut {s : State} (ho : s.txOn = false) (he : s.txEnable = false) (hd : s.delayCnt ≤ 1) :
    delayStepOp s = { s with delayCnt := 0, txEnable := true } := by
  unfold delayStepOp
  rw [if_pos (by simp [ho, he]), if_pos hd]

/-- The `DELAY.STEP` that counts (44_tick_engine.md R198). -/
theorem delayStepOp_counts {s : State} (ho : s.txOn = false) (he : s.txEnable = false) (hd : ¬s.delayCnt ≤ 1) :
    delayStepOp s = { s with delayCnt := s.delayCnt - 1 } := by
  unfold delayStepOp
  rw [if_pos (by simp [ho, he]), if_neg hd]

/-! ## Formatters -/

/-- Everything `FMT.RTTY` can do when it goes on. -/
theorem fmtRttyOp_eq_next {s t : State} (h : fmtRttyOp s = .next t) :
    ∃ m, bufWrite s.mem .rttyBuf 0 (sentence s.params.callsign s.snap ++ [0x00]) = some m
      ∧ t = { s with crcReg := crcOf (sentenceBody s.params.callsign s.snap), mem := m, bufSel := .rttyBuf } := by
  unfold fmtRttyOp at h
  split at h
  · next m hm => exact ⟨m, hm, by simpa using h.symm⟩
  · cases h

/-- Everything `FMT.FSK` can do when it goes on. -/
theorem fmtFskOp_eq_next {s t : State} (h : fmtFskOp s = .next t) :
    ∃ m, bufWrite s.mem .fskBuf 0 s.params.fskFrame = some m
      ∧ t = { s with mem := m, pktLen := BitVec.ofNat 8 s.params.fskFrame.length, bufSel := .fskBuf } := by
  unfold fmtFskOp at h
  split at h
  · next m hm => exact ⟨m, hm, by simpa using h.symm⟩
  · cases h

/-! ## The tick engine -/

/-- A tick goes on exactly as its modulation step does; `DELAY.STEP` follows (44_tick_engine.md R194). -/
theorem tickWith_eq_next {modulation : State → Res} {s t : State} :
    tickWith modulation s = .next t ↔ ∃ u, modulation (clearDevWe s) = .next u ∧ t = delayStepOp u := by
  simp only [tickWith, andThen_eq_next, Host.Outcome.next.injEq]
  exact ⟨fun ⟨u, hu, ht⟩ => ⟨u, hu, ht.symm⟩, fun ⟨u, hu, ht⟩ => ⟨u, hu, ht.symm⟩⟩

/-- The modulation step of `TICK.RTTY` at a `NUL` on a character boundary (44_tick_engine.md R183). -/
theorem rttyModulation_zeroLength {s : State} (hb : byteAtCursor s = some 0) (hi : s.bitIdx = 0) :
    rttyModulation s = .next (endPacketOp s) := by
  unfold rttyModulation
  rw [hb]
  exact if_pos ⟨hi, rfl⟩

/-- The modulation step of `TICK.RTTY` where there is something to send. -/
theorem rttyModulation_query {s : State} {b : Byte} (hb : byteAtCursor s = some b) (hz : ¬(s.bitIdx = 0 ∧ b = 0)) :
    rttyModulation s = rttyOnResult (s.cursor.toNat + 1) (rttyNextOp b s).1 (rttyNextOp b s).2 := by
  unfold rttyModulation
  rw [hb]
  exact if_neg hz

/-- A tick whose modulation step leaves the packet on air counts no delay (44_tick_engine.md R194, R198). -/
theorem tickWith_onAir {modulation : State → Res} {s u : State} (h : modulation (clearDevWe s) = .next u)
    (ho : u.txOn = true) : tickWith modulation s = .next u := by
  rw [tickWith, h, andThen_next, delayStepOp_idle (.inl ho)]

/-- A tick whose modulation step stops, stops (44_tick_engine.md R194). -/
theorem tickWith_fault {modulation : State → Res} {s : State} {r : Fault} :
    tickWith modulation s = .fault r ↔ modulation (clearDevWe s) = .fault r := by
  unfold tickWith
  cases modulation (clearDevWe s) <;> simp

/-- Everything the modulation step of `TICK.RTTY` can do when it goes on (44_tick_engine.md R182 to R186). -/
theorem rttyModulation_eq_next {s t : State} (h : rttyModulation s = .next t) :
    ∃ b, byteAtCursor s = some b ∧
      ((s.bitIdx = 0 ∧ b = 0 ∧ t = endPacketOp s)
      ∨ (¬(s.bitIdx = 0 ∧ b = 0) ∧ (rttyNextOp b s).1 = .one ∧ t = markSymbol (rttyNextOp b s).2)
      ∨ (¬(s.bitIdx = 0 ∧ b = 0) ∧ (rttyNextOp b s).1 = .zero ∧ t = spaceSymbol (rttyNextOp b s).2)
      ∨ (¬(s.bitIdx = 0 ∧ b = 0) ∧ (rttyNextOp b s).1 = .fin
          ∧ rttyCharacterEnd (s.cursor.toNat + 1) (rttyNextOp b s).2 = .next t)) := by
  cases hb : byteAtCursor s with
  | none => simp [rttyModulation, hb] at h
  | some b =>
    refine ⟨b, rfl, ?_⟩
    by_cases hz : s.bitIdx = 0 ∧ b = 0
    · obtain ⟨hi, rfl⟩ := hz
      rw [rttyModulation_zeroLength hb hi, Host.Outcome.next.injEq] at h
      exact .inl ⟨hi, rfl, h.symm⟩
    · rw [rttyModulation_query hb hz] at h
      cases hr : (rttyNextOp b s).1 <;> rw [hr] at h <;> simp only [rttyOnResult, Host.Outcome.next.injEq] at h
      · exact .inr (.inr (.inl ⟨hz, rfl, h.symm⟩))
      · exact .inr (.inl ⟨hz, rfl, h.symm⟩)
      · exact .inr (.inr (.inr ⟨hz, rfl, h⟩))

/-- Everything that follows an `End` when the tick goes on (44_tick_engine.md R184, R186). -/
theorem rttyCharacterEnd_eq_next {offset : Nat} {s t : State} (h : rttyCharacterEnd offset s = .next t) :
    ∃ b, bufRead s offset = some b ∧
      ((b = 0 ∧ t = endPacketOp (advanceCursor s))
      ∨ (b ≠ 0 ∧ s.params.rttyEndRequery = true ∧ t = spaceSymbol (rttyNextOp b (advanceCursor s)).2)
      ∨ (b ≠ 0 ∧ s.params.rttyEndRequery = false ∧ t = advanceCursor s)) := by
  unfold rttyCharacterEnd at h
  split at h
  · cases h
  · next b hb =>
    refine ⟨b, hb, ?_⟩
    split at h
    · next hz => exact .inl ⟨hz, by simpa using h.symm⟩
    · next hz =>
      split at h
      · next hq => exact .inr (.inl ⟨hz, hq, by simpa using h.symm⟩)
      · next hq => exact .inr (.inr ⟨hz, by simpa using hq, by simpa using h.symm⟩)

/-- The modulation step of an FSK tick with the cursor at `pkt_len` (44_tick_engine.md R188). -/
theorem fskModulation_zeroLength (gen : Byte → State → FskResult × State) {s : State} (hc : s.cursor = s.pktLen) :
    fskModulation gen s = .next (endPacketOp s) := if_pos hc

/-- The modulation step of an FSK tick where there is something to send. -/
theorem fskModulation_query (gen : Byte → State → FskResult × State) {s : State} {b : Byte} (hc : s.cursor ≠ s.pktLen)
    (hb : byteAtCursor s = some b) :
    fskModulation gen s = fskOnResult gen (s.cursor.toNat + 1) (gen b s).1 (gen b s).2 := by
  unfold fskModulation
  rw [if_neg hc, hb]

/-- Everything the modulation step of an FSK tick can do when it goes on (44_tick_engine.md R187 to R191). -/
theorem fskModulation_eq_next {gen : Byte → State → FskResult × State} {s t : State}
    (h : fskModulation gen s = .next t) :
    (s.cursor = s.pktLen ∧ t = endPacketOp s)
    ∨ (s.cursor ≠ s.pktLen ∧ ∃ b, byteAtCursor s = some b ∧
        ((∃ sym, (gen b s).1 = .symbol sym ∧ t = devWriteOp (symbolDev (.symbol sym)) (gen b s).2)
        ∨ ((gen b s).1 = .noSym ∧ fskByteEnd gen (s.cursor.toNat + 1) (gen b s).2 = .next t))) := by
  by_cases hc : s.cursor = s.pktLen
  · rw [fskModulation_zeroLength gen hc, Host.Outcome.next.injEq] at h
    exact .inl ⟨hc, h.symm⟩
  · refine .inr ⟨hc, ?_⟩
    cases hb : byteAtCursor s with
    | none => simp [fskModulation, hc, hb] at h
    | some b =>
      refine ⟨b, rfl, ?_⟩
      rw [fskModulation_query gen hc hb] at h
      cases hr : (gen b s).1 <;> rw [hr] at h <;> simp only [fskOnResult, Host.Outcome.next.injEq] at h
      · next sym => exact .inl ⟨sym, rfl, h.symm⟩
      · exact .inr ⟨rfl, h⟩

/-- Everything that follows a `NoSym` when the tick goes on (44_tick_engine.md R189). -/
theorem fskByteEnd_eq_next {gen : Byte → State → FskResult × State} {offset : Nat} {s t : State}
    (h : fskByteEnd gen offset s = .next t) :
    (offset = s.pktLen.toNat ∧ t = endPacketOp (advanceCursor s))
    ∨ (offset ≠ s.pktLen.toNat ∧ ∃ b, bufRead s offset = some b
        ∧ t = devWriteOp (symbolDev (gen b (advanceCursor s)).1) (gen b (advanceCursor s)).2) := by
  unfold fskByteEnd at h
  split at h
  · next hc => exact .inl ⟨hc, by simpa using h.symm⟩
  · next hc =>
    refine .inr ⟨hc, ?_⟩
    split at h
    · cases h
    · next b hb => exact ⟨b, hb, by simpa using h.symm⟩

/-! ## The control word and the edge -/

@[simp] theorem cwRst_packCw (r t q o e : Bool) (m : ModeState) : cwRst (packCw r t q o e m) = r := by
  cases r <;> cases t <;> cases q <;> cases o <;> cases e <;> cases m <;> rfl

@[simp] theorem cwTick_packCw (r t q o e : Bool) (m : ModeState) : cwTick (packCw r t q o e m) = t := by
  cases r <;> cases t <;> cases q <;> cases o <;> cases e <;> cases m <;> rfl

@[simp] theorem cwSeqEn_packCw (r t q o e : Bool) (m : ModeState) : cwSeqEn (packCw r t q o e m) = q := by
  cases r <;> cases t <;> cases q <;> cases o <;> cases e <;> cases m <;> rfl

@[simp] theorem cwTxOn_packCw (r t q o e : Bool) (m : ModeState) : cwTxOn (packCw r t q o e m) = o := by
  cases r <;> cases t <;> cases q <;> cases o <;> cases e <;> cases m <;> rfl

@[simp] theorem cwTxEnable_packCw (r t q o e : Bool) (m : ModeState) : cwTxEnable (packCw r t q o e m) = e := by
  cases r <;> cases t <;> cases q <;> cases o <;> cases e <;> cases m <;> rfl

@[simp] theorem cwMode_packCw (r t q o e : Bool) (m : ModeState) : cwMode (packCw r t q o e m) = m := by
  cases r <;> cases t <;> cases q <;> cases o <;> cases e <;> cases m <;> rfl

@[simp] theorem controlWordOf_controlByte (cw : ControlWord) : controlWordOf (controlByte cw) = cw := by
  revert cw; decide

@[simp] theorem controlByte_bit7 (cw : ControlWord) : (controlByte cw)[7] = false := by
  revert cw; decide

/-- A micro-operation that writes no buffer leaves what a packet on air plays as it is (70_reset_and_hazards.md R266). -/
theorem micro_keeps_buffers {i : Instr} {s t : State} (hf : i.format = .m) (hw : writesBuffers i = false)
    (h : exec i s = .next t) : t.mode = s.mode ∧ t.bufSel = s.bufSel ∧ t.pktLen = s.pktLen ∧ t.mem = s.mem := by
  cases i with
  | rttyNext b =>
    obtain rfl := Host.Outcome.next.inj h
    rcases rttyNextOp_cases b s with ⟨_, e⟩ | ⟨_, _, e⟩ | ⟨_, _, _, e⟩ | ⟨_, _, e⟩ | ⟨_, _, e⟩ <;> rw [e] <;> simp
  | fsk4Next b =>
    obtain rfl := Host.Outcome.next.inj h
    rcases mapperNext_cases 4 fsk4Field b s with ⟨_, e⟩ | ⟨_, e⟩ <;> simp [fsk4NextOp, e]
  | fsk2Next b =>
    obtain rfl := Host.Outcome.next.inj h
    rcases mapperNext_cases 8 fsk2Field b s with ⟨_, e⟩ | ⟨_, e⟩ <;> simp [fsk2NextOp, e]
  | delayStep =>
    obtain rfl := Host.Outcome.next.inj h
    simp only [delayStepOp]
    split <;> [split; skip] <;> simp
  | crcInit | crcByte | crcStr | snapCapture | arm | endPacket | devWrite =>
    obtain rfl := Host.Outcome.next.inj h
    exact ⟨rfl, rfl, rfl, rfl⟩
  | fmtRtty | fmtFsk => cases hw
  | reset | tickNone | tickIdle | tickRsvd | tickRtty | tickFsk4 | tickFsk2 | seqNone | seqStartup | seqFsk | seqWrap
  | seqWaitTransmitting | seqWaitDelay => cases hf

/-- Everything a step can do when it goes on. -/
theorem step_eq_next {s t : State} (h : step s = .next t) :
    s.params.legal = true ∧
      ((∃ bytes i rest, s.probe = some bytes ∧ decode .m bytes = .ok (i, rest)
          ∧ (s.txOn = true → writesBuffers i = false) ∧ exec i (takeProbe s) = .next t)
      ∨ (s.probe = none ∧ ∃ u, runOps (decodeEdge (controlWord s)) s = .next u ∧ t = advanceInputs u)) := by
  unfold step performStep at h
  split at h
  · next hl =>
    refine ⟨hl, ?_⟩
    split at h
    · next bytes hp =>
      unfold runProbe at h
      split at h
      · next i rest hd =>
        split at h
        · cases h
        · next hw => exact .inl ⟨bytes, i, rest, hp, hd, by simpa using hw, h⟩
      · cases h
    · next hp =>
      obtain ⟨u, hu, ht⟩ := andThen_eq_next.1 h
      exact .inr ⟨hp, u, hu, by simpa using ht.symm⟩
  · cases h

end Sys2Proof.Machine
end

