-- ==== Sys2Proof/Laws/PerInstr.lean ====
section
/-! SUPPORT. Statements made for every operation, one lemma per constructor.
`RowMatch`: the first byte of an operation's encoding has its row's bits where the row's mask is 1. -/

namespace Sys2Proof.Laws.RowMatch

/-- The first byte of the encoding matches the operation's row of spec/opcode_table.json, and the row is of the
operation's format. -/
def Statement (i : Instr) : Prop :=
  i.row.format = i.format ∧ ∃ b rest, encode i = b :: rest ∧ i.row.matches b = true

theorem reset (t q o e : Bool) (m : ModeState) : Statement (.reset t q o e m) :=
  ⟨rfl, _, _, rfl, by cases t <;> cases q <;> cases o <;> cases e <;> cases m <;> rfl⟩
theorem tickNone (q o e : Bool) (m : ModeState) : Statement (.tickNone q o e m) :=
  ⟨rfl, _, _, rfl, by cases q <;> cases o <;> cases e <;> cases m <;> rfl⟩
theorem tickIdle (q e : Bool) (m : ModeState) : Statement (.tickIdle q e m) :=
  ⟨rfl, _, _, rfl, by cases q <;> cases e <;> cases m <;> rfl⟩
theorem tickRsvd (q e : Bool) : Statement (.tickRsvd q e) := ⟨rfl, _, _, rfl, by cases q <;> cases e <;> rfl⟩
theorem tickRtty (q e : Bool) : Statement (.tickRtty q e) := ⟨rfl, _, _, rfl, by cases q <;> cases e <;> rfl⟩
theorem tickFsk4 (q e : Bool) : Statement (.tickFsk4 q e) := ⟨rfl, _, _, rfl, by cases q <;> cases e <;> rfl⟩
theorem tickFsk2 (q e : Bool) : Statement (.tickFsk2 q e) := ⟨rfl, _, _, rfl, by cases q <;> cases e <;> rfl⟩
theorem seqNone (t o e : Bool) (m : ModeState) : Statement (.seqNone t o e m) :=
  ⟨rfl, _, _, rfl, by cases t <;> cases o <;> cases e <;> cases m <;> rfl⟩
theorem seqStartup (t : Bool) : Statement (.seqStartup t) := ⟨rfl, _, _, rfl, by cases t <;> rfl⟩
theorem seqFsk (t : Bool) : Statement (.seqFsk t) := ⟨rfl, _, _, rfl, by cases t <;> rfl⟩
theorem seqWrap (t m : Bool) : Statement (.seqWrap t m) := ⟨rfl, _, _, rfl, by cases t <;> cases m <;> rfl⟩
theorem seqWaitTransmitting (t e : Bool) (m : ModeState) : Statement (.seqWaitTransmitting t e m) :=
  ⟨rfl, _, _, rfl, by cases t <;> cases e <;> cases m <;> rfl⟩
theorem seqWaitDelay (t : Bool) (m : ModeState) : Statement (.seqWaitDelay t m) :=
  ⟨rfl, _, _, rfl, by cases t <;> cases m <;> rfl⟩
theorem crcInit : Statement .crcInit := ⟨rfl, _, _, rfl, rfl⟩
theorem crcByte (b : Byte) : Statement (.crcByte b) := ⟨rfl, _, _, rfl, by simp [Instr.row, OpRow.matches]⟩
theorem crcStr (s : List Byte) : Statement (.crcStr s) := ⟨rfl, _, _, rfl, by simp [Instr.row, OpRow.matches]⟩
theorem rttyNext (b : Byte) : Statement (.rttyNext b) := ⟨rfl, _, _, rfl, by simp [Instr.row, OpRow.matches]⟩
theorem fsk4Next (b : Byte) : Statement (.fsk4Next b) := ⟨rfl, _, _, rfl, by simp [Instr.row, OpRow.matches]⟩
theorem fsk2Next (b : Byte) : Statement (.fsk2Next b) := ⟨rfl, _, _, rfl, by simp [Instr.row, OpRow.matches]⟩
theorem snapCapture : Statement .snapCapture := ⟨rfl, _, _, rfl, rfl⟩
theorem fmtRtty : Statement .fmtRtty := ⟨rfl, _, _, rfl, rfl⟩
theorem fmtFsk : Statement .fmtFsk := ⟨rfl, _, _, rfl, rfl⟩
theorem arm : Statement .arm := ⟨rfl, _, _, rfl, rfl⟩
theorem endPacket : Statement .endPacket := ⟨rfl, _, _, rfl, rfl⟩
theorem devWrite (v : Byte) : Statement (.devWrite v) := ⟨rfl, _, _, rfl, by simp [Instr.row, OpRow.matches]⟩
theorem delayStep : Statement .delayStep := ⟨rfl, _, _, rfl, rfl⟩

end Sys2Proof.Laws.RowMatch
end

