-- ==== Sys2Proof/Tests/Slice0.lean ====
section
/-! SUPPORT. The model's own tests. Expected values are the spec's: the encodings of 30_encoding.md and the
vectors of 95_test_vectors.md, named at each test. The `witness_` theorems, one for each statement that has
hypotheses, show states and operands that meet them. -/

namespace Sys2Proof.Tests

open Sys2Proof Sys2Proof.Machine Sys2Proof.Safety

-- One theorem after another: elaborated all at once they ask for many threads, each with a stack of its own.
set_option Elab.async false

/-! ## Helpers -/

/-- The state that an outcome goes on in. -/
def after : Res → Option State
  | .next t => some t
  | _ => none

/-- The parameters that 95_test_vectors.md section 2.5 uses. -/
def params : Params := Config.nominal

/-- The line `TICK`. -/
def ticking : Ports := { Ports.idle with tick := true }

/-- A tick with `disable_armed = 1`: the line `TICK da`. -/
def disarmed : Ports := { ticking with disableArmed := true }

/-- The line `SEQ`. -/
def sequencing : Ports := { Ports.idle with seqEn := true }

/-- Reset, with the next edge idle and the one after it written out. -/
def base : State := { State.resetWith params with script := [Ports.idle] }

/-- An RTTY packet on air with these bytes in `RTTY_BUF`, the mark deviation in the output. -/
def onAirRtty (m : List Host.Cell) (bitIdx : Nibble) : State :=
  { base with
    ports := ticking, mode := .rtty, mem := m, txOn := true, txEnable := false, bitIdx := bitIdx, devReg := 3
    markLed := true, radioEn := true }

/-- An FSK packet on air with these bytes in `FSK_BUF`. -/
def onAirFsk (mode : ModeState) (m : List Host.Cell) (len : Byte) (symIdx : Nibble) : State :=
  { base with
    ports := ticking, mode := mode, bufSel := .fskBuf, mem := m, pktLen := len, txOn := true, txEnable := false
    symIdx := symIdx, radioEn := true }

/-- Between packets, `delay_cnt` as given. -/
def waiting (delay : Half) : State := { base with ports := ticking, mode := .rtty, txEnable := false, delayCnt := delay }

/-- The record E1 of 95_test_vectors.md section 1.1, at an edge with `seq_en = 1`. -/
def recordE1 : Ports :=
  { sequencing with
    gps := { fix := 3, lat := BitVec.ofInt 32 (-452345678), lon := 1452345678, alt := 12345000, speed := 3, sats := 7
             hh := 0, mm := 0, ss := 0 }
    volt := 330, temp := BitVec.ofInt 8 (-5) }

/-- A text as bytes. -/
def bytes (text : String) : List Byte := text.toList.map ascii

/-- The bytes of a buffer from an address on. -/
def buffer (s : State) (address count : Nat) : List Byte := (List.range count).map (fun k => memRead s.mem (address + k))

/-! ## Well-formedness -/

/-- A string operand with a `NUL` in it is refused (40_crc16.md R113). -/
theorem test_wf_refuses_nul : (Instr.crcStr [0x41, 0x00, 0x42]).wf = false := by decide

/-! ## Decoding

Each word is written out from its pattern in 30_encoding.md R83 or its index in R85. -/

theorem test_decode_reset :
    decode .r [0b01100110] = .ok (.reset true false false true .fsk4, []) := by decide
theorem test_decode_reset_needs_rst : decode .r [0b00100110] = .error .rstClear := by decide
theorem test_decode_bit7 : decode .t [0b10100110] = .error .controlBit7 := by decide
theorem test_decode_tickNone : decode .t [0b00011101] = .ok (.tickNone true true true .rtty, []) := by decide
theorem test_decode_tickIdle : decode .t [0b00110110] = .ok (.tickIdle true true .fsk4, []) := by decide
theorem test_decode_tickRsvd : decode .t [0b00111000] = .ok (.tickRsvd true false, []) := by decide
theorem test_decode_tickRtty : decode .t [0b00101101] = .ok (.tickRtty false true, []) := by decide
theorem test_decode_tickFsk4 : decode .t [0b00111010] = .ok (.tickFsk4 true false, []) := by decide
theorem test_decode_tickFsk2 : decode .t [0b00101011] = .ok (.tickFsk2 false false, []) := by decide
theorem test_decode_tick_needs_rst_clear : decode .t [0b01101011] = .error .rstSet := by decide
theorem test_decode_seqNone : decode .s [0b00101001] = .ok (.seqNone true true false .rtty, []) := by decide
theorem test_decode_seqStartup : decode .s [0b00110100] = .ok (.seqStartup true, []) := by decide
theorem test_decode_seqFsk : decode .s [0b00010101] = .ok (.seqFsk false, []) := by decide
theorem test_decode_seqWrap_fsk4 : decode .s [0b00010110] = .ok (.seqWrap false false, []) := by decide
theorem test_decode_seqWrap_fsk2 : decode .s [0b00010111] = .ok (.seqWrap false true, []) := by decide
theorem test_decode_seqWait_transmitting :
    decode .s [0b00111001] = .ok (.seqWaitTransmitting true false .rtty, []) := by decide
theorem test_decode_seqWait_delay : decode .s [0b00010001] = .ok (.seqWaitDelay false .rtty, []) := by decide
theorem test_decode_crcInit : decode .m [0b00000000] = .ok (.crcInit, []) := by decide
theorem test_decode_crcByte : decode .m [0b00000001, 0x41] = .ok (.crcByte 0x41, []) := by decide
theorem test_decode_crcStr : decode .m [0b00000010, 0x48, 0x69, 0x00] = .ok (.crcStr [0x48, 0x69], []) := by decide
theorem test_decode_rttyNext : decode .m [0b00000011, 0x80] = .ok (.rttyNext 0x80, []) := by decide
theorem test_decode_fsk4Next : decode .m [0b00000100, 0x1B] = .ok (.fsk4Next 0x1B, []) := by decide
theorem test_decode_fsk2Next : decode .m [0b00000101, 0xA5] = .ok (.fsk2Next 0xA5, []) := by decide
theorem test_decode_snapCapture : decode .m [0b00000110] = .ok (.snapCapture, []) := by decide
theorem test_decode_fmtRtty : decode .m [0b00000111] = .ok (.fmtRtty, []) := by decide
theorem test_decode_fmtFsk : decode .m [0b00001000] = .ok (.fmtFsk, []) := by decide
theorem test_decode_arm : decode .m [0b00001001] = .ok (.arm, []) := by decide
theorem test_decode_endPacket : decode .m [0b00001010] = .ok (.endPacket, []) := by decide
theorem test_decode_devWrite : decode .m [0b00001011, 0xFF] = .ok (.devWrite 0xFF, []) := by decide
theorem test_decode_delayStep : decode .m [0b00001100] = .ok (.delayStep, []) := by decide
theorem test_decode_unused_index : decode .m [0b00001101] = .error .unusedIndex := by decide

/-- The control word of P1 line 1, `0 1 0 1 0 01`, selects `TICK.RTTY` and `SEQ.NONE` together. -/
theorem test_decode_edge : decodeEdge 0b0101001 = [.tickRtty false false, .seqNone true true false .rtty] := by decide

/-! ## One operation each -/

/-- 95_test_vectors.md section 2.7: a reset in the middle of a packet. -/
theorem test_reset : (after (exec (.reset true false true false .rtty) (onAirRtty [(0, 0x41)] 4))).map
    (fun t => (t.txOn, t.txEnable, memRead t.mem 0, t.crcReg)) = some (false, true, 0, 0xFFFF) := by
  decide

/-- Section 2.5, `IDLE`. -/
theorem test_tickNone : (after (exec (.tickNone false true false .rtty) { onAirRtty [(0, 0x41)] 4 with devWe := true }))
    = some (onAirRtty [(0, 0x41)] 4) := by decide

/-- Section 2.5: `delay_cnt = 2` and `delay_cnt = 0`. -/
theorem test_tickIdle_counts : (after (exec (.tickIdle false false .rtty) (waiting 2))).map
    (fun t => (t.delayCnt, t.txEnable)) = some (1, false) := by decide
theorem test_tickIdle_from_zero : (after (exec (.tickIdle false false .rtty) (waiting 0))).map
    (fun t => (t.delayCnt, t.txEnable)) = some (0, true) := by decide

/-- Section 2.5: `TICK.RSVD` is refused. -/
theorem test_tickRsvd : exec (.tickRsvd false false) { onAirRtty [] 0 with mode := .startup } = .refused .tickRsvd := rfl

/-- Section 2.5: `End`, then `END_PACKET`, and the first delay step in the same tick. -/
theorem test_tickRtty_end : (after (exec (.tickRtty false false) (onAirRtty [(0, 0x41)] 10))).map
    (fun t => (t.bitIdx, t.cursor, t.txOn, t.delayCnt, t.devReg, t.devWe)) = some (0, 1, false, 2, 3, false) := by decide

/-- Section 2.5: a write suppressed by `disable_armed`. -/
theorem test_tickRtty_disarmed : (after (exec (.tickRtty false false)
      { onAirRtty [(0, 0x41)] 1 with ports := disarmed, devReg := 0, markLed := false })).map
    (fun t => (t.bitIdx, t.devReg, t.devWe, t.markLed)) = some (2, 0, false, false) := by decide

/-- Section 2.5: `NoSym`, re-query, symbol 3. -/
theorem test_tickFsk4_rollover : (after (exec (.tickFsk4 false false) (onAirFsk .fsk4 [(0x80, 0x1B), (0x81, 0xE4)] 2 4))).map
    (fun t => (t.cursor, t.symIdx, t.devReg, t.devWe)) = some (1, 1, 3, true) := by decide

/-- Section 2.5: zero length with `TX_DELAY_TICKS = 0` ends in the same tick. -/
theorem test_tickFsk4_empty : (after (exec (.tickFsk4 false false)
      { onAirFsk .fsk4 [] 0 0 with params := { params with txDelayTicks := 0 } })).map
    (fun t => (t.txOn, t.delayCnt, t.txEnable, t.devWe)) = some (false, 0, true, false) := by decide

/-- Section 2.5: 2-level, symbol 1; P6 line 9: `NoSym` at the end. -/
theorem test_tickFsk2_symbol : (after (exec (.tickFsk2 false false) (onAirFsk .fsk2 [(0x80, 0xA5)] 1 0))).map
    (fun t => (t.symIdx, t.devReg, t.devWe)) = some (1, 1, true) := by decide
theorem test_tickFsk2_end : (after (exec (.tickFsk2 false false) (onAirFsk .fsk2 [(0x80, 0xA5)] 1 8))).map
    (fun t => (t.symIdx, t.cursor, t.txOn, t.devWe)) = some (0, 1, false, false) := by decide

/-- Section 2.6: `IDLE` with the guard holding. -/
theorem test_seqNone : after (exec (.seqNone false false true .startup) base) = some base := by decide

/-- Section 2.6, first row: the sentence of Example 1 (section 1.1) and the registers. -/
theorem test_seqStartup_sentence : (after (exec (.seqStartup false) { base with ports := recordE1 })).map
      (fun t => buffer t 0 63)
    = some (bytes "$$$$$TEST,1,00:00:00,-45.2345,145.2345,12345,3,7,3300,-5*9764" ++ [0x0A, 0x00]) := by
  decide +kernel
theorem test_seqStartup_registers : (after (exec (.seqStartup false) { base with ports := recordE1 })).map
      (fun t => (t.mode, t.frameCounter, t.snap.ledEn, t.crcReg, t.prestartCnt)) = some (.rtty, 1, false, 0x9764, 2) := by
  decide +kernel

/-- P4 edge 688. -/
theorem test_seqFsk : (after (exec (.seqFsk true) { base with mode := .rtty, devReg := 3, markLed := true })).map
      (fun t => (t.mode, buffer t 0x80 3, t.pktLen, t.bufSel, t.devReg))
    = some (.fsk4, [0x1B, 0xE4, 0x00], 2, .fskBuf, 3) := by decide

/-- Section 2.6: `mode = Startup`; nothing else. -/
theorem test_seqWrap : after (exec (.seqWrap false true) { base with mode := .fsk2 }) = some base := by decide

/-- Section 2.6: the two waits. -/
theorem test_seqWaitTransmitting :
    after (exec (.seqWaitTransmitting false false .rtty) (onAirRtty [(0, 0x41)] 4)) = some (onAirRtty [(0, 0x41)] 4) := by
  decide
theorem test_seqWaitDelay : after (exec (.seqWaitDelay false .rtty) (waiting 2)) = some (waiting 2) := by decide

/-- 40_crc16.md R110. -/
theorem test_crcInit : (after (exec .crcInit { base with crcReg := 0x1234 })).map (·.crcReg) = some 0xFFFF := by decide

/-- Section 2.1: `CRC.BYTE` step by step for 0x41. -/
theorem test_crcByte : (after (exec (.crcByte 0x41) base)).map (·.crcReg) = some 0xB915 := by decide

/-- Section 2.1: the check value, and an operand cut at its first `NUL`. -/
theorem test_crcStr : (after (exec (.crcStr (bytes "123456789")) base)).map (fun t => (t.crcReg, t.result))
    = some (0x29B1, some (.crc 0x29B1)) := by decide +kernel
theorem test_crcStr_stops_at_nul : (after (exec (.crcStr [0x41, 0x42, 0x00, 0x43]) base)).map (·.crcReg)
    = some 0x4B74 := by decide +kernel

/-- Section 2.2: single calls, `bit_idx = 9` with 8 data bits, and `bit_idx = 10`. -/
theorem test_rttyNext_stop : (after (exec (.rttyNext 0x00) { base with bitIdx := 9 })).map (fun t => (t.bitIdx, t.result))
    = some (10, some (.rtty .one)) := by decide
theorem test_rttyNext_end : (after (exec (.rttyNext 0xFF) { base with bitIdx := 10 })).map (fun t => (t.bitIdx, t.result))
    = some (0, some (.rtty .fin)) := by decide

/-- Section 2.3: the second symbol of 0x1B, most significant first; the third of 0x0F, least significant first. -/
theorem test_fsk4Next : (after (exec (.fsk4Next 0x1B) { base with symIdx := 1 })).map (fun t => (t.symIdx, t.result))
    = some (2, some (.fsk (.symbol 1))) := by decide
theorem test_fsk2Next : (after (exec (.fsk2Next 0x0F)
      { base with params := { params with fskMsbFirst := false }, symIdx := 4 })).map (fun t => (t.symIdx, t.result))
    = some (5, some (.fsk (.symbol 0))) := by decide

/-- Section 1.2: no fix. Section 2.4: `NOFIX_ZERO_ALT` clears the altitude too. -/
theorem test_snapCapture_noFix : (after (exec .snapCapture
      { base with ports := { recordE1 with gps := { recordE1.gps with fix := 2 } } })).map
      (fun t => (t.snap.lat, t.snap.lon, t.snap.alt, t.snap.lock, t.snap.ledEn)) = some (0, 0, 12345000, false, false) := by
  decide
theorem test_snapCapture_zeroAlt : (after (exec .snapCapture { base with
      params := { params with nofixZeroAlt := true }, ports := { recordE1 with gps := { recordE1.gps with fix := 2 } } })).map
      (fun t => (t.snap.alt, t.snap.ledEn)) = some (0, true) := by
  decide

/-- Section 2.4, the second row: frame 2, no fix, everything else 0 but voltage and temperature. -/
theorem test_fmtRtty : (after (exec .fmtRtty
      { base with snap := { Snapshot.reset with frame := 2, volt := 330, temp := BitVec.ofInt 8 (-5) } })).map
      (fun t => buffer t 0 55)
    = some (bytes "$$$$$TEST,2,00:00:00,0.0000,0.0000,0,0,0,3300,-5*2E2A" ++ [0x0A, 0x00]) := by
  decide +kernel

/-- Section 2.4: `FSK_LEN = 0` writes no byte and selects the buffer. -/
theorem test_fmtFsk_empty : (after (exec .fmtFsk { base with params := { params with fskFrame := [] }, pktLen := 5 })).map
    (fun t => (t.mem, t.pktLen, t.bufSel)) = some ([], 0, .fskBuf) := by decide

/-- 45_sequencer.md R216, example. -/
theorem test_arm : (after (exec .arm base)).map (fun t => (t.txOn, t.txEnable, t.cursor, t.prestartCnt, t.radioEn))
    = some (true, false, 0, 2, true) := by decide

/-- 44_tick_engine.md R196, R195 and R198, examples. -/
theorem test_endPacket : (after (exec .endPacket (onAirRtty [(0, 0x41)] 10))).map (fun t => (t.txOn, t.delayCnt, t.txEnable))
    = some (false, 3, false) := by decide
theorem test_devWrite : (after (exec (.devWrite 3) base)).map (fun t => (t.devReg, t.devWe)) = some (3, true) := by decide
theorem test_delayStep : (after (exec .delayStep (waiting 3))).map (fun t => (t.delayCnt, t.txEnable)) = some (2, false) := by
  decide

/-! ## The step -/

/-- P1 line 15: `SEQ` with the guard holding performs `SEQ.FSK`. -/
theorem test_step_seqFsk : (after (step { base with ports := sequencing, mode := .rtty })).map
    (fun t => (t.mode, t.txOn, t.txEnable)) = some (.fsk4, true, false) := by decide

/-- P2 line 9: the sequencer sees the pre-state, and waits at the edge that makes the guard hold. -/
theorem test_step_waits : (after (step { onAirFsk .fsk4 [(0x80, 0xE4), (0x81, 0x1B)] 2 4 with
      params := { params with txDelayTicks := 1 }, cursor := 1, ports := { ticking with seqEn := true } })).map
    (fun t => (t.txOn, t.txEnable, t.mode)) = some (false, true, .fsk4) := by decide

/-- 70_reset_and_hazards.md R266: no formatter runs at the port while a packet is on air. -/
theorem test_step_port_keeps_buffer : step { onAirRtty [(0, 0x41)] 4 with probe := some [0x08] } = .refused .bufferOnAir := rfl
theorem test_step_port_formats : (after (step { base with probe := some [0x08] })).map (fun t => (t.pktLen, t.probe))
    = some (2, none) := by decide

/-- Coordinates of 43_formatter.md R159: a small negative magnitude keeps its sign, the largest one has no overflow. -/
theorem test_coord : coord (BitVec.ofInt 32 (-1)) = bytes "-0.0000" ∧ coord (BitVec.ofInt 32 (-2147483648)) = bytes "-214.7483" := by
  decide +kernel

/-! ## Witnesses -/

theorem witness_DecodeOfEncodeIsTheOperation : (Instr.crcStr [0x41]).wf = true := by decide
theorem witness_DecodedBytesAreTheEncoding : decode .m [2, 0x41, 0, 7] = .ok (.crcStr [0x41], [7]) := by decide
theorem witness_OperationMapSelectsEachPattern : cwRst (packCw false true true false true .fsk2) = false := by decide
theorem witness_MicroOperationIndexesDecode :
    (13 ≤ (0x0D : Byte).toNat ∧ (0x0F : Byte).toNat ≤ 15) ∧ 16 ≤ (0x10 : Byte).toNat := by decide
theorem witness_PlacedWordIsPerformedNext : base.params.legal = true ∧ base.txOn = false ∧ 7 ≤ 12
    ∧ (onAirRtty [(0, 0x41)] 4).txOn = true ∧ 12 ≤ 12 ∧ 12 ≠ 7 ∧ 12 ≠ 8 := by decide
theorem witness_ClockEdgeRunsTheDecodedOperations_reset : ∃ (s : State) (i : Instr), s.params.legal = true ∧ s.probe = none
    ∧ s.ports.rst = true ∧ decode .r [controlByte (controlWord s)] = .ok (i, []) :=
  ⟨{ base with ports := { Ports.idle with rst := true } }, .reset false false false true .startup, by decide⟩
theorem witness_ClockEdgeRunsTheDecodedOperations_operations : ∃ t q, base.params.legal = true ∧ base.probe = none
    ∧ base.ports.rst = false ∧ decode .t [controlByte (controlWord base)] = .ok (t, [])
    ∧ decode .s [controlByte (controlWord base)] = .ok (q, []) :=
  ⟨.tickNone false false true .startup, .seqNone false false true .startup, by decide⟩
theorem witness_ClockEdgeRunsTheDecodedOperations_script : base.script = [Ports.idle] ∧ (State.resetWith params).script = [] := ⟨rfl, rfl⟩
theorem witness_MicroOperationPortRunsTheDecodedOperation : { base with probe := some [0x0A] }.params.legal = true
    ∧ { base with probe := some [0x0A] }.probe = some [0x0A] ∧ decode .m [0x0A] = .ok (.endPacket, [])
    ∧ { base with probe := some [0x0A] }.txOn = false ∧ decode .m [] = .error .noBytes := by decide
theorem witness_MicroOperationPortRunsTheDecodedOperation_onAir : ∀ b ∈ [0x07, 0x08, 0x09],
    (onAirRtty [(0, 0x41)] 4).params.legal = true ∧ (onAirRtty [(0, 0x41)] 4).txOn = true
    ∧ (decode .m [b] = .ok (.fmtRtty, []) ∨ decode .m [b] = .ok (.fmtFsk, []) ∨ decode .m [b] = .ok (.arm, [])) := by decide
theorem witness_IllegalParametersAreRefused :
    { base with params := { params with callsign := [] } }.params.legal = false ∧ params.legal = true := by decide
theorem witness_IllegalParametersAreRefused_frame : ∀ n ∈ [128, 129], (List.replicate n (0x55 : Byte)).length = n := by
  simp
theorem witness_ResetGivesTheResetTable : ∃ s : State, s.params.legal = true ∧ s.probe = none ∧ s.ports.rst = true :=
  ⟨{ base with ports := { Ports.idle with rst := true } }, by decide⟩
theorem witness_ResetStateIsGood : params.legal = true := by decide
theorem witness_MemReadGivesTheLastWrite : Memory.wf [(0x00, 0x24), (0xFF, 0x01)] = true := by decide
theorem witness_BufferAddressesStayInTheirBuffer : bufAddr .rttyBuf 127 = some 0x7F ∧ bufAddr .fskBuf 0 = some 0x80 ∧ 127 < 128 ∧ 128 ≤ 128 := by
  decide
theorem witness_CrcByteIsEightPolynomialSteps :
    ∃ step1 : Half → Half, ∀ c : Half, step1 c
      = if c.getLsbD 15 then (c.extractLsb' 0 15 ++ 0#1) ^^^ 0x1021#16 else c.extractLsb' 0 15 ++ 0#1 := ⟨_, fun _ => rfl⟩
theorem witness_CrcStrIsInitThenEachByte : (∀ b ∈ bytes "AB", b ≠ 0) ∧ ([0x00, 0x43] : List Byte).head? = some 0 := by decide
theorem witness_CrcStreamsAndAllowsATable : ∀ b ∈ bytes "1234" ++ bytes "56789", b ≠ 0 := by decide
theorem witness_CrcStreamsAndAllowsATable_table : ∃ table : Byte → Half, ∀ x : Byte, table x = crcSteps 8 (x ++ 0x00#8) :=
  ⟨_, fun _ => rfl⟩

/-- One state at each boundary: the last pre-start mark, the start bit, the first and the last data bit, the stop bit,
`End`. -/
theorem witness_RttyNextSubCases :
    ({ base with prestartCnt := 1 }.prestartCnt ≠ 0)
    ∧ (∀ n : Nibble, { base with bitIdx := n }.prestartCnt = 0) ∧ base.bitIdx = 0
    ∧ (∀ n ∈ [1, 8], { base with bitIdx := n }.bitIdx ≠ 0 ∧ { base with bitIdx := n }.bitIdx.toNat ≤ base.params.dataBits.toNat)
    ∧ { base with bitIdx := 9 }.bitIdx.toNat = base.params.dataBits.toNat + 1
    ∧ (∀ n ∈ [10, 15], base.params.dataBits.toNat + 2 ≤ { base with bitIdx := n }.bitIdx.toNat) := by decide
theorem witness_RttyCharacterIsFramed : base.prestartCnt = 0 ∧ base.bitIdx = 0 ∧ 10 < base.params.dataBits.toNat + 3 := by
  decide
theorem witness_RttyNextIsPureAndNeverEndsTwice : ∃ t u : State,
    exec (.rttyNext 0x41) { base with bitIdx := 10 } = .next t ∧ t.result = some (.rtty .fin)
      ∧ exec (.rttyNext 0x42) t = .next u := ⟨_, _, rfl, rfl, rfl⟩
theorem witness_OutputsAndResultCodes_phases : base.bitIdx = 0 ∧ base.prestartCnt = 0
    ∧ (∀ n ∈ [1, 9], 1 ≤ { base with bitIdx := n }.bitIdx.toNat
        ∧ { base with bitIdx := n }.bitIdx.toNat ≤ base.params.dataBits.toNat + 1)
    ∧ { base with bitIdx := 10 }.bitIdx.toNat = base.params.dataBits.toNat + 2 := by decide
theorem witness_OutputsAndResultCodes : (∃ t, exec (.fsk2Next 0x80) base = .next t) ∧ ∃ t, exec (.rttyNext 0x80) base = .next t :=
  ⟨⟨_, rfl⟩, _, rfl⟩
theorem witness_FskNextSymbolOrSentinel : ∀ n : Nibble, n.toNat < 4 ∨ 4 ≤ n.toNat ∧ n.toNat < 8 ∨ 8 ≤ n.toNat := by decide
theorem witness_FskByteIsMappedThenSentinel : base.symIdx = 0 ∧ ∃ t u : State,
    exec (.fsk4Next 0x41) { base with symIdx := 4 } = .next t ∧ t.result = some (.fsk .noSym)
      ∧ exec (.fsk4Next 0x42) t = .next u := ⟨rfl, _, _, rfl, rfl, rfl⟩
theorem witness_FskByteIsMappedThenSentinel_fsk2 : ∃ t u : State,
    exec (.fsk2Next 0x41) { base with symIdx := 8 } = .next t ∧ t.result = some (.fsk .noSym)
      ∧ exec (.fsk2Next 0x42) t = .next u := ⟨_, _, rfl, rfl, rfl⟩
theorem witness_TickIdleOnlyCountsTheDelay : base.txOn = false ∧ base.txEnable = true
    ∧ (waiting 1).txOn = false ∧ (waiting 1).txEnable = false ∧ (waiting 1).delayCnt.toNat ≤ 1
    ∧ 2 ≤ (waiting 2).delayCnt.toNat := by decide
theorem witness_DelayRunsOutAfterTheGuardInterval : (onAirRtty [(0, 0x41)] 1).txOn = true ∧ (waiting 0).txOn = false
    ∧ (waiting 0).txEnable = false ∧ (waiting 0).delayCnt.toNat ≤ 1 ∧ 2 ≤ (waiting 2).delayCnt.toNat := by decide
theorem witness_DevWriteIsGatedByDisableArm : base.ports.disableArmed = false ∧ { base with ports := disarmed }.ports.disableArmed = true := by
  decide
theorem witness_TickRsvdIsRefused : ∃ s : State, s.params.legal = true ∧ s.probe = none ∧ s.ports.rst = false
    ∧ s.ports.tick = true ∧ s.txOn = true ∧ s.mode = .startup :=
  ⟨{ onAirRtty [] 0 with mode := .startup }, by decide⟩

/-- A pre-start mark before a character, the start bit, the last data bit, the stop bit. -/
theorem witness_TickRttySendsOneSymbol : ∀ n ∈ [0, 8, 9],
    (onAirRtty [(0, 0x41)] n).txOn = true ∧ byteAtCursor (onAirRtty [(0, 0x41)] n) = some 0x41
      ∧ (onAirRtty [(0, 0x41)] n).prestartCnt = 0
      ∧ { onAirRtty [(0, 0x41)] n with prestartCnt := 1 }.prestartCnt ≠ 0 ∧ ¬(n = 0 ∧ (0x41 : Byte) = 0) := by decide
theorem witness_TickRttyEndsTheCharacter : ∀ m ∈ [[(126, 0x41)], [(126, 0x41), (127, 0x42)]],
    ∃ c, (onAirRtty m 10).txOn = true ∧ (onAirRtty m 10).prestartCnt = 0
      ∧ byteAtCursor { onAirRtty m 10 with cursor := 126 } = some 0x41
      ∧ bufRead { onAirRtty m 10 with cursor := 126 } 127 = some c
      ∧ (onAirRtty m 10).params.dataBits.toNat + 2 ≤ (onAirRtty m 10).bitIdx.toNat := by
  intro m hm
  fin_cases hm
  · exact ⟨0x00, by decide⟩
  · exact ⟨0x42, by decide⟩
theorem witness_ZeroLengthPacketEndsAtOnce : (onAirRtty [] 0).txOn = true ∧ (onAirRtty [] 0).bitIdx = 0
    ∧ byteAtCursor (onAirRtty [] 0) = some 0 ∧ (onAirFsk .fsk4 [] 0 0).cursor = (onAirFsk .fsk4 [] 0 0).pktLen := by decide
theorem witness_TickFskSendsOneSymbol : ∀ n ∈ [0, 3, 7], (onAirFsk .fsk4 [(0x80, 0x1B)] 1 n).txOn = true
    ∧ (onAirFsk .fsk4 [(0x80, 0x1B)] 1 n).cursor ≠ (onAirFsk .fsk4 [(0x80, 0x1B)] 1 n).pktLen
    ∧ byteAtCursor (onAirFsk .fsk4 [(0x80, 0x1B)] 1 n) = some 0x1B := by decide
theorem witness_TickFskEndsTheByte_last : ∃ s : State, s.txOn = true ∧ s.cursor ≠ s.pktLen ∧ byteAtCursor s = some 0x1B
    ∧ s.cursor.toNat + 1 = s.pktLen.toNat ∧ 4 ≤ s.symIdx.toNat ∧ 8 ≤ s.symIdx.toNat :=
  ⟨onAirFsk .fsk2 [(0x80, 0x1B)] 1 8, by decide⟩
theorem witness_TickFskEndsTheByte_rollover : ∃ s : State, s.txOn = true ∧ s.cursor ≠ s.pktLen ∧ byteAtCursor s = some 0x1B
    ∧ s.cursor.toNat + 1 ≠ s.pktLen.toNat ∧ bufRead s (s.cursor.toNat + 1) = some 0xE4 ∧ 4 ≤ s.symIdx.toNat
    ∧ 8 ≤ s.symIdx.toNat :=
  ⟨onAirFsk .fsk2 [(0x80, 0x1B), (0x81, 0xE4)] 2 8, by decide⟩
theorem witness_TickFaultsExactlyOffTheBuffer :
    exec (.tickRtty false false) { onAirRtty [] 10 with cursor := 127 } = .fault .addressFault
    ∧ exec (.tickFsk4 false false) { onAirFsk .fsk4 [] 0x7F 0 with cursor := 128 } = .fault .addressFault
    ∧ exec (.tickFsk2 false false) { onAirFsk .fsk2 [] 0x81 8 with cursor := 127 } = .fault .addressFault := ⟨rfl, rfl, rfl⟩
theorem witness_DisableArmReachesOnlyTheOutput : (Instr.tickRtty false false).format = .t ∧ (Instr.tickRsvd false false).format = .t
    ∧ (after (exec (.tickRtty false false) (onAirRtty [(0, 0x41)] 1))).isSome = true := by decide
theorem witness_TickFaultsExactlyOffTheBuffer_refused : (Instr.tickRsvd false false).format = .t
    ∧ exec (.tickRsvd false false) base = .refused .tickRsvd := ⟨rfl, rfl⟩
theorem witness_DisableArmReachesOnlyTheOutput_fault :
    exec (.tickRtty false false) { onAirRtty [] 10 with cursor := 127 } = .fault .addressFault := rfl
theorem witness_FskPacketTakesItsTicks : ∀ p ∈ [onAirFsk .fsk4 [(0x80, 0x1B)] 1 0, onAirFsk .fsk4 [] 0 0, onAirFsk .fsk2 [] 128 0],
    p.txOn = true ∧ p.cursor = 0 ∧ p.symIdx = 0 ∧ p.pktLen.toNat ≤ 128 := by decide
theorem witness_RttyPacketTakesItsTicks : (onAirRtty [(0, 0x48), (1, 0x69)] 0).cursor = 0
    ∧ (onAirRtty [(0, 0x48), (1, 0x69)] 0).txOn = true ∧ (onAirRtty [(0, 0x48), (1, 0x69)] 0).bitIdx = 0
    ∧ bufRead (onAirRtty [(0, 0x48), (1, 0x69)] 0) 0 = some 0x48 ∧ bufRead (onAirRtty [(0, 0x48), (1, 0x69)] 0) 1 = some 0x69
    ∧ bufRead (onAirRtty [(0, 0x48), (1, 0x69)] 0) 2 = some 0 ∧ bufRead (onAirRtty [] 0) 0 = some 0 := by decide
theorem witness_SnapCaptureSamplesThePorts :
    (12345000 : Word) = (if 3 ≤ recordE1.gps.fix.toNat ∨ params.nofixZeroAlt = false then recordE1.gps.alt else 0) := by decide
theorem witness_DecimalDigitsAreCanonical : 0 < 10 := by decide
theorem witness_SentenceFollowsTheGrammar : 3 < 4 ∧ 7 = (0x9764 : Half).toNat / 16 ^ (3 - 1) % 16 := by decide
theorem witness_SentenceFitsTheBuffer : { params with callsign := List.replicate 15 0x21 }.legal = true := by decide
theorem witness_SentenceBytesAndTerminator : base.params.legal = true ∧ Memory.wf base.mem = true
    ∧ ∃ b, b ∈ sentence params.callsign Snapshot.reset :=
  ⟨by decide, by decide, ascii '$', by simp [sentence, frameMarker]⟩
theorem witness_SentenceBytesAndTerminator_next : (after (exec .fmtRtty base)).isSome = true := by decide +kernel
theorem witness_FmtRttyWritesTheSentence : base.params.legal = true ∧ Memory.wf (onAirFsk .fsk4 [(0x80, 0x1B)] 1 0).mem = true := by decide
theorem witness_FmtFskWritesTheFrame : { params with fskFrame := List.replicate 128 0x55 }.legal = true ∧ Memory.wf base.mem = true := by
  decide +kernel

/-- Snapshots that differ only below the sentence's resolution have one body. -/
theorem witness_SentenceBodyDeterminesTheFieldsItCarries : params.legal = true
    ∧ sentenceBody params.callsign { Snapshot.reset with lat := 1001 } = sentenceBody params.callsign { Snapshot.reset with lat := 1999 } := by
  decide +kernel
theorem witness_OnlyCaptureReadsTheDataPorts : Instr.fmtRtty ≠ .snapCapture ∧ ∀ t, Instr.fmtRtty ≠ .seqStartup t :=
  ⟨by decide, fun _ => by simp⟩
theorem witness_SeqStartupCapturesFormatsAndArms : base.params.legal = true ∧ Memory.wf base.mem = true
    ∧ ∃ n, n = snapshotOf base.params base.ports (base.frameCounter + 1) := ⟨by decide, by decide, _, rfl⟩
theorem witness_SeqFskFormatsAndArms : base.params.legal = true ∧ Memory.wf (onAirRtty [(0, 0x41)] 0).mem = true := by decide

theorem witness_SeqWaitsChangeNothingAndWrapOnlyTheMode : sequencing.rst = false ∧ sequencing.seqEn = true
    ∧ Machine.guard { base with mode := .fsk2 } = true := by decide

/-- A packet on air is a good state, in each mode; so are the wait and reset. -/
theorem witness_inv_rtty : Inv (onAirRtty [(0, 0x41)] 4) :=
  ⟨⟨by decide, by decide, by decide, by decide +kernel, by decide, by decide, by decide⟩, by decide, by decide, by decide, rfl⟩
theorem witness_inv_fsk : Inv (onAirFsk .fsk4 [(0x80, 0x1B)] 1 3) :=
  ⟨⟨by decide, by decide, by decide, by decide, by decide, by decide, by decide⟩, by decide, by decide, by decide, rfl⟩
theorem witness_inv_waiting : Inv (waiting 2) :=
  ⟨⟨by decide, by decide, by decide, by decide, by decide, by decide, by decide⟩, by decide, by decide, by decide, rfl⟩
theorem witness_StepKeepsGoodStates : ∃ t, step (onAirRtty [(0, 0x41)] 4) = .next t := ⟨_, rfl⟩
theorem witness_GoodStatesNeverStop : Inv (State.resetWith params) :=
  ⟨⟨by decide, by decide, by decide, by decide, by decide, by decide, by decide⟩, by decide, by decide, by decide, rfl⟩
theorem witness_PacketOnAirProtectsItsBuffer : (onAirRtty [(0, 0x41)] 4).probe = none
    ∧ (onAirRtty [(0, 0x41)] 4).ports.rst = false ∧ (onAirRtty [(0, 0x41)] 4).txOn = true
    ∧ ∃ t, step (onAirRtty [(0, 0x41)] 4) = .next t := ⟨rfl, rfl, rfl, _, rfl⟩
theorem witness_PacketOnAirProtectsItsBuffer_port : ∃ s t : State, s.probe ≠ none ∧ s.txOn = true ∧ step s = .next t :=
  ⟨{ onAirRtty [(0, 0x41)] 4 with probe := some [0x0B, 0x03] }, _, by decide, by decide, rfl⟩

/-- The four modes with the guard holding, and an edge without it. -/
theorem witness_ModeMovesAlongTheCycle : ∀ m ∈ [ModeState.startup, .rtty, .fsk4, .fsk2],
    (after (step { base with ports := sequencing, mode := m })).isSome = true
      ∧ { base with ports := sequencing, mode := m }.ports.seqEn = true
      ∧ { base with ports := sequencing, mode := m }.ports.rst = false ∧ { base with ports := sequencing, mode := m }.probe = none
      ∧ Machine.guard { base with ports := sequencing, mode := m } = true := by
  decide +kernel
theorem witness_TxFlagsChangeOnlyAtArmAndTick_arm : base.txOn = false ∧ base.txEnable = true ∧
    (after (step { base with ports := sequencing })).map (fun t => (t.txOn, t.txEnable)) = some (true, false) := by
  decide +kernel
theorem witness_TxFlagsChangeOnlyAtArmAndTick_end : (onAirRtty [(0, 0x41)] 10).txOn = true ∧
    (after (step (onAirRtty [(0, 0x41)] 10))).map (fun t => (t.txOn, t.devWe)) = some (false, false) := by decide
theorem witness_TxFlagsChangeOnlyAtArmAndTick_delay : (waiting 1).txEnable = false ∧
    (after (step (waiting 1))).map (fun t => (t.txEnable, t.txOn, t.delayCnt)) = some (true, false, 0) := by decide
theorem witness_RadioStaysKeyed : (onAirRtty [(0, 0x41)] 4).ports.rst = false ∧ (onAirRtty [(0, 0x41)] 4).radioEn = true
    ∧ ∃ t, step (onAirRtty [(0, 0x41)] 4) = .next t := ⟨rfl, rfl, _, rfl⟩
theorem witness_TickAndSequencerCommute : decodeEdge (controlWord (onAirRtty [(0, 0x41)] 4))
    = [.tickRtty false false, .seqNone true true false .rtty] := by decide
theorem witness_EachAgentWritesItsOwnRegisters :
    (Instr.tickRtty false false).format = .t ∧ (after (exec (.tickRtty false false) (onAirRtty [(0, 0x41)] 4))).isSome = true
    ∧ (Instr.seqFsk false).format = .s ∧ (after (exec (.seqFsk false) base)).isSome = true := by decide

end Sys2Proof.Tests
end

