-- ==== Sys2Proof/Proofs/Reset.lean ====
section
/-! PROOF. A reset edge: what `RESET` leaves (10_state.md R52) and that an edge with `rst = 1` performs it alone
(30_encoding.md R81). -/

namespace Sys2Proof.Machine

/-! ## The operation -/

/-- The whole state `RESET` leaves, as an update of the state before it: 10_state.md R52 and, for what the update does
not name, 70_reset_and_hazards.md R261. -/
theorem resetOp_eq_update (s : State) :
    resetOp s = { s with
      mode := .startup, bufSel := .rttyBuf, pktLen := 0, frameCounter := 0, crcReg := 0xFFFF, snap := Snapshot.reset
      mem := [], txOn := false, txEnable := true, cursor := 0, delayCnt := 0, prestartCnt := 0, bitIdx := 0
      symIdx := 0, devReg := 0, devWe := false, markLed := false, radioEn := false } := rfl

/-- `RESET` always goes on, and the letter fields of its word take no part (30_encoding.md R83). -/
@[simp] theorem exec_reset (t q o e : Bool) (m : ModeState) (s : State) :
    exec (.reset t q o e m) s = .next (resetOp s) := rfl

/-- A buffer space that lists nothing, as after reset, reads 0x00 everywhere (20_memory.md R63). -/
@[simp] theorem memRead_nil (a : Nat) : memRead [] a = 0 := rfl

/-! ## The edge -/

/-- With `rst = 1` an edge performs `RESET` and no tick or sequencer operation (30_encoding.md R81). -/
theorem decodeEdge_packCw_rst (t q o e : Bool) (m : ModeState) :
    decodeEdge (packCw true t q o e m) = [.reset t q o e m] := by
  simp [decodeEdge, decodeResetCw]

/-- A sequence of one operation is that operation. -/
@[simp] theorem runOps_singleton (i : Instr) (s : State) : runOps [i] s = exec i s := by
  simp only [runOps]
  cases exec i s <;> rfl

/-- With legal parameters and nothing at the model's own port, a step is a clock edge. -/
theorem step_eq_clockEdge {s : State} (hl : s.params.legal = true) (hp : s.probe = none) : step s = clockEdge s := by
  simp [step, performStep, hl, hp]

/-- A clock edge with `rst = 1` resets; then the environment drives the ports for the next edge. -/
theorem clockEdge_of_rst {s : State} (hr : s.ports.rst = true) : clockEdge s = .next (advanceInputs (resetOp s)) := by
  simp [clockEdge, controlWord, hr, decodeEdge_packCw_rst]

/-- Settles O11: the operation by `resetOp_eq_update`, the edge by `clockEdge_of_rst`. -/
theorem resetGivesTheResetTable : Obligations.ResetGivesTheResetTable := by
  refine ⟨fun t q o e m s => ?_, memRead_nil, fun s hl hp hr t q o e m => ?_⟩
  · rw [exec_reset, resetOp_eq_update, Snapshot.reset]
  · rw [step_eq_clockEdge hl hp, clockEdge_of_rst hr, exec_reset, andThen_next]

end Sys2Proof.Machine
end

