-- ==== Sys2Proof/Proofs/Memory.lean ====
section
/-! PROOF. What a buffer read gives after a write, at the address written and at every other one
(20_memory.md R63, R64). -/

namespace Sys2Proof.Machine

/-! ## Reading a listed buffer space -/

/-- The first cell of a buffer space gives the byte at its own address. -/
@[simp] theorem memRead_cons_same (k : Nat) (v : Byte) (rest : List Host.Cell) : memRead ((k, v) :: rest) k = v := by
  simp [memRead]

/-- The first cell of a buffer space takes no part in a read at another address. -/
theorem memRead_cons_of_ne {a k : Nat} (h : a ≠ k) (v : Byte) (rest : List Host.Cell) :
    memRead ((k, v) :: rest) a = memRead rest a := by
  simp [memRead, h]

/-- In the canonical form the first cell respects the lower bound, and the cells after it lie above its address. -/
theorem wfFrom_cons {lo k : Nat} {v : Byte} {rest : List Host.Cell} (h : wfFrom lo ((k, v) :: rest) = true) :
    lo ≤ k ∧ wfFrom (k + 1) rest = true := by
  simp only [wfFrom, Bool.and_eq_true, decide_eq_true_eq] at h
  obtain ⟨⟨⟨hk, -⟩, -⟩, hrest⟩ := h
  exact ⟨hk, hrest⟩

/-- The canonical form rises, so nothing is listed below its lower bound, and a read there gives the reset value. -/
theorem memRead_of_lt_lowerBound {a : Nat} :
    ∀ {m : List Host.Cell} {lo : Nat}, wfFrom lo m = true → a < lo → memRead m a = unlistedByte
  | [], _, _, _ => rfl
  | (k, v) :: rest, lo, h, ha => by
    obtain ⟨hk, hrest⟩ := wfFrom_cons h
    rw [memRead_cons_of_ne (by omega)]
    exact memRead_of_lt_lowerBound hrest (by omega)

/-! ## Reading after a write -/

/-- A write leaves every other address as it was, in whatever form the buffer space is. -/
theorem memRead_memWrite_of_ne {a b : Nat} (m : List Host.Cell) (v : Byte) (h : b ≠ a) :
    memRead (memWrite m a v) b = memRead m b := by
  fun_induction memWrite m a v with
  | case1 | case3 => rfl
  | case2 | case4 => exact memRead_cons_of_ne h ..
  | case5 => exact (memRead_cons_of_ne h ..).symm
  | case6 => rw [memRead_cons_of_ne h, memRead_cons_of_ne h]
  | case7 _ _ _ _ _ _ _ ih => simp only [memRead, ih h]

/-- A write is read back at its own address. The canonical form matters where the byte written is the reset value: its
cell is dropped, and no later cell of the same address may come to light. -/
theorem memRead_memWrite_same {m : List Host.Cell} {lo : Nat} (a : Nat) (v : Byte) (hm : wfFrom lo m = true) :
    memRead (memWrite m a v) a = v := by
  fun_induction memWrite m a v generalizing lo with
  | case1 => rfl
  | case2 | case4 | case6 => exact memRead_cons_same ..
  | case3 k w rest a hak =>
    rw [memRead_cons_of_ne hak.ne]
    exact memRead_of_lt_lowerBound (wfFrom_cons hm).2 (by omega)
  | case5 => exact memRead_of_lt_lowerBound (wfFrom_cons hm).2 (Nat.lt_succ_self _)
  | case7 k w rest a v _ hne ih =>
    rw [memRead_cons_of_ne hne]
    exact ih (wfFrom_cons hm).2

/-- Settles O13: `memRead_memWrite_same` at the address written, `memRead_memWrite_of_ne` at every other one. -/
theorem memReadGivesTheLastWrite : Obligations.MemReadGivesTheLastWrite := by
  refine ⟨fun m a b v hm => ?_, memRead_nil⟩
  split
  · next hba => exact hba ▸ memRead_memWrite_same b v hm
  · next hba => exact memRead_memWrite_of_ne m v hba

end Sys2Proof.Machine
end

