-- ==== Sys2Proof/Proofs/OperationMap.lean ====
section
/-! PROOF. The control word of an edge (30_encoding.md R80), what each pattern of the operation map selects (R83), and
what the micro-operation indices select (R85). -/

namespace Sys2Proof.Machine

/-! ## The fields of the control word -/

/-- Bits 1:0 of a control word are the code of its mode (30_encoding.md R80, R82). -/
theorem extractLsb'_packCw_mode (r t q o e : Bool) (m : ModeState) : (packCw r t q o e m).extractLsb' 0 2 = m.code := by
  rw [packCw, BitVec.extractLsb'_append_eq_right]

/-- Settles O6: one law of `packCw` a field. -/
theorem controlWordFields : Obligations.ControlWordFields := fun _ =>
  ⟨cwRst_packCw .., cwTick_packCw .., cwSeqEn_packCw .., cwTxOn_packCw .., cwTxEnable_packCw ..,
    extractLsb'_packCw_mode ..⟩

/-! ## The operation map -/

/-- With `rst = 0` the tick decoder is total (30_encoding.md R83). -/
theorem decodeTickCw_isOk {cw : ControlWord} (hr : cwRst cw = false) : ∃ i, decodeTickCw cw = .ok i := by
  unfold decodeTickCw
  rw [hr]
  split
  · contradiction
  split
  · exact ⟨_, rfl⟩
  split
  · exact ⟨_, rfl⟩
  cases cwMode cw <;> exact ⟨_, rfl⟩

/-- With `rst = 0` the sequencer decoder is total (30_encoding.md R83). -/
theorem decodeSeqCw_isOk {cw : ControlWord} (hr : cwRst cw = false) : ∃ i, decodeSeqCw cw = .ok i := by
  unfold decodeSeqCw
  rw [hr]
  split
  · contradiction
  split
  · exact ⟨_, rfl⟩
  split
  · exact ⟨_, rfl⟩
  split
  · exact ⟨_, rfl⟩
  cases cwMode cw <;> exact ⟨_, rfl⟩

/-- With `rst = 0` an edge performs its tick operation and then its sequencer operation (30_encoding.md R81). -/
theorem decodeEdge_of_rst_clear {cw : ControlWord} {t q : Instr} (hr : cwRst cw = false) (ht : decodeTickCw cw = .ok t)
    (hq : decodeSeqCw cw = .ok q) : decodeEdge cw = [t, q] := by
  simp [decodeEdge, decodeResetCw, hr, ht, hq]

/-- Settles O3: each pattern by what its decoder reads off the fields of `packCw`, totality by `decodeTickCw_isOk` and
`decodeSeqCw_isOk`. -/
theorem operationMapSelectsEachPattern : Obligations.OperationMapSelectsEachPattern := by
  refine ⟨decodeEdge_packCw_rst, ?_, ?_, ?_, ?_, ?_, ?_, ?_, ?_, ?_, ?_, ?_, ?_, ?_, fun cw hr => ?total⟩
  case total =>
    obtain ⟨t, ht⟩ := decodeTickCw_isOk hr
    obtain ⟨q, hq⟩ := decodeSeqCw_isOk hr
    exact ⟨t, q, ht, hq, decodeEdge_of_rst_clear hr ht hq⟩
  all_goals intros; simp [decodeTickCw, decodeSeqCw]

/-! ## The micro-operation indices -/

/-- An index byte above 12 decodes to nothing, whatever follows it (30_encoding.md R85). -/
theorem decodeMicro_of_unused {idx : Byte} (h : 13 ≤ idx.toNat) (rest : List Byte) :
    decodeMicro (idx :: rest) = .error (if idx.toNat ≤ 15 then .unusedIndex else .notAnIndex) := by
  obtain ⟨n, hn⟩ := Nat.exists_eq_add_of_le' h
  simp only [decodeMicro, hn]
  rw [if_neg (by omega)]
  split <;> rfl

/-- Settles O4: an index in use by evaluation of the decoder, the others by `decodeMicro_of_unused`. -/
theorem microOperationIndexesDecode : Obligations.MicroOperationIndexesDecode := by
  refine fun b rest => ⟨rfl, rfl, rfl, rfl, rfl, rfl, rfl, rfl, rfl, rfl, rfl, rfl, rfl, fun idx hlo hhi => ?_,
    fun idx hlo => ?_⟩
  · exact (decodeMicro_of_unused hlo rest).trans (by rw [if_pos hhi])
  · exact (decodeMicro_of_unused (by omega) rest).trans (by rw [if_neg (by omega)])

end Sys2Proof.Machine
end

