-- ==== Sys2Proof/Proofs/BufferWrite.lean ====
section
/-! PROOF. What a run of bytes written into a buffer leaves at every address (20_memory.md R67). -/

namespace Sys2Proof.Machine

/-- A run that is written: its first byte goes to its own address, which is in the buffer, and the rest follows. -/
theorem bufWrite_cons_eq_some {m m' : List Host.Cell} {sel : BufSel} {offset : Nat} {b : Byte} {rest : List Byte}
    (h : bufWrite m sel offset (b :: rest) = some m') :
    sel.base + offset < 256 ∧ bufWrite (memWrite m (sel.base + offset) b) sel (offset + 1) rest = some m' := by
  unfold bufWrite at h
  split at h
  · next a ha =>
    obtain ⟨-, rfl⟩ := bufAddr_eq_some.1 ha
    exact ⟨bufAddr_lt ha, h⟩
  · cases h

/-- A run of bytes leaves every address before it and every address after it as it was. -/
theorem memRead_bufWrite_outside {sel : BufSel} {a : Nat} :
    ∀ {bytes : List Byte} {offset : Nat} {m m' : List Host.Cell}, bufWrite m sel offset bytes = some m' →
      a < sel.base + offset ∨ sel.base + offset + bytes.length ≤ a → memRead m' a = memRead m a
  | [], _, _, _, h, _ => by rw [Option.some.inj h]
  | b :: rest, offset, m, m', h, ha => by
    obtain ⟨-, hrest⟩ := bufWrite_cons_eq_some h
    rw [List.length_cons] at ha
    rw [memRead_bufWrite_outside hrest (by omega), memRead_memWrite_of_ne m b (by omega)]

/-- A run of bytes is read back byte for byte. -/
theorem memRead_bufWrite_inside {sel : BufSel} :
    ∀ {bytes : List Byte} {offset k : Nat} {m m' : List Host.Cell}, bufWrite m sel offset bytes = some m' →
      Memory.wf m = true → (hk : k < bytes.length) → memRead m' (sel.base + offset + k) = bytes[k]
  | b :: rest, offset, k, m, m', h, hm, hk => by
    obtain ⟨ha, hrest⟩ := bufWrite_cons_eq_some h
    cases k with
    | zero => rw [memRead_bufWrite_outside hrest (by omega)]; exact memRead_memWrite_same _ b hm
    | succ k =>
      have hread := memRead_bufWrite_inside hrest (memWrite_wf b ha hm) (Nat.lt_of_succ_lt_succ hk)
      rwa [show sel.base + (offset + 1) + k = sel.base + offset + (k + 1) by omega] at hread

end Sys2Proof.Machine
end

