-- ==== Sys2Proof/Proofs/Text.lean ====
section
/-! PROOF. The text helpers of 43_formatter.md: how each is said in the spec, and the bytes each can give. -/

namespace Sys2Proof.Machine

open Sys2Proof.Safety

/-! ## Decimal numbers -/

/-- The characters `0` to `9` are consecutive codes (43_formatter.md R155). -/
theorem toNat_digit {n : Nat} (h : n < 10) : (digit n).toNat = 0x30 + n := by
  simp only [digit, BitVec.toNat_ofNat]
  omega

theorem isDigit_digit {n : Nat} (h : n < 10) : isDigit (digit n) := by
  rw [isDigit, toNat_digit h]
  omega

theorem isDigit_of_mem_decDigits {b : Byte} : ∀ {fuel n : Nat}, b ∈ decDigits fuel n → isDigit b
  | fuel + 1, n, h => by
    unfold decDigits at h
    split at h
    · next hn => exact List.mem_singleton.1 h ▸ isDigit_digit hn
    · rcases List.mem_append.1 h with h | h
      · exact isDigit_of_mem_decDigits h
      · exact List.mem_singleton.1 h ▸ isDigit_digit (Nat.mod_lt _ (by decide))

/-- `dec_u` gives digits only (43_formatter.md R155). -/
theorem isDigit_of_mem_decU {n : Nat} {b : Byte} (h : b ∈ decU n) : isDigit b := isDigit_of_mem_decDigits h

/-- `dec_s` puts a minus sign in front exactly of a negative number (43_formatter.md R156). -/
theorem decS_eq (z : Int) : decS z = if z < 0 then 0x2D :: decU z.natAbs else decU z.natAbs := by
  by_cases hz : z < 0
  · rw [if_pos hz, decS, if_neg (by omega)]; rfl
  · rw [if_neg hz, decS, if_pos (by omega)]

/-- `dec_s` gives digits and the minus sign (43_formatter.md R156). -/
theorem mem_decS {z : Int} {b : Byte} (h : b ∈ decS z) : b = 0x2D ∨ isDigit b := by
  rw [decS_eq] at h
  split at h
  · exact (List.mem_cons.1 h).imp_right isDigit_of_mem_decU
  · exact .inr (isDigit_of_mem_decU h)

/-- `pad` puts `0` characters in front of the number (43_formatter.md R157). -/
theorem pad_eq (n w : Nat) : pad n w = List.replicate (w - (decU n).length) 0x30 ++ decU n := by
  simp [pad, ascii]

/-- `pad` fills up to `w` characters and cuts nothing (43_formatter.md R157). -/
theorem length_pad (n w : Nat) : (pad n w).length = max w (decU n).length := by
  rw [pad_eq, List.length_append, List.length_replicate]
  omega

/-- `pad` gives digits only (43_formatter.md R157). -/
theorem isDigit_of_mem_pad {n w : Nat} {b : Byte} (h : b ∈ pad n w) : isDigit b := by
  rw [pad_eq, List.mem_append] at h
  rcases h with h | h
  · exact List.eq_of_mem_replicate h ▸ isDigit_digit (n := 0) (by decide)
  · exact isDigit_of_mem_decU h

/-- `coord` gives digits, the minus sign and the point (43_formatter.md R158). -/
theorem mem_coord {x : Word} {b : Byte} (h : b ∈ coord x) : b = 0x2D ∨ b = 0x2E ∨ isDigit b := by
  simp only [coord, List.mem_append, List.mem_singleton] at h
  rcases h with ((h | h) | h) | h
  · split at h
    · exact .inl (List.mem_singleton.1 h)
    · cases h
  · exact .inr (.inr (isDigit_of_mem_decU h))
  · exact .inr (.inl h)
  · exact .inr (.inr (isDigit_of_mem_pad h))

/-! ## Hexadecimal numbers -/

/-- So are `A` to `F`, for the nibbles from ten on (43_formatter.md R163). -/
theorem toNat_hexDigit (n : BitVec 4) :
    (hexDigit n).toNat = if n.toNat < 10 then 0x30 + n.toNat else 0x37 + n.toNat := by
  revert n; decide

/-- `hex4` gives `0` to `9` and `A` to `F` (43_formatter.md R163). -/
theorem mem_hex4 {c : Half} {b : Byte} (h : b ∈ hex4 c) : isDigit b ∨ (0x41 ≤ b.toNat ∧ b.toNat ≤ 0x46) := by
  have hnibble (n : BitVec 4) : isDigit (hexDigit n) ∨ (0x41 ≤ (hexDigit n).toNat ∧ (hexDigit n).toNat ≤ 0x46) := by
    rw [isDigit, toNat_hexDigit]
    split <;> omega
  simp only [hex4, List.mem_cons, List.not_mem_nil, or_false] at h
  rcases h with rfl | rfl | rfl | rfl <;> exact hnibble _

/-- `hex4` gives four characters (43_formatter.md R163). -/
theorem length_hex4 (c : Half) : (hex4 c).length = 4 := rfl

/-- The characters of `hex4` are the hexadecimal digits, the most significant first (43_formatter.md R163). -/
theorem getElem?_hex4 (c : Half) {k : Nat} (hk : k < 4) :
    (hex4 c)[k]? = some (hexDigit (BitVec.ofNat 4 (c.toNat / 16 ^ (3 - k)))) := by
  have hnibble (start : Nat) : c.extractLsb' start 4 = BitVec.ofNat 4 (c.toNat / 2 ^ start) := by
    rw [BitVec.extractLsb', Nat.shiftRight_eq_div_pow]
  interval_cases k <;> simp [hex4, hnibble]

/-- A hexadecimal digit of a number, as the spec writes it (43_formatter.md R163). -/
theorem hexDigit_ofNat (n : Nat) : hexDigit (BitVec.ofNat 4 n)
    = BitVec.ofNat 8 (if n % 16 < 10 then 0x30 + n % 16 else 0x41 + (n % 16 - 10)) := by
  rw [hexDigit, BitVec.toNat_ofNat, show (2 : Nat) ^ 4 = 16 from rfl]
  split <;> rfl

end Sys2Proof.Machine
end

