-- ==== Sys2Proof/Proofs/Sentence.lean ====
section
/-! PROOF. The sentence: its grammar, byte for byte (30_encoding.md R94), the bytes it can contain and its terminator in
the buffer (R96). -/

namespace Sys2Proof.Machine

open Sys2Proof.Safety

/-! ## The grammar -/

/-- The body of a sentence, written out (30_encoding.md R94). -/
theorem sentenceBody_eq (callsign : List Byte) (n : Snapshot) :
    sentenceBody callsign n = callsign ++ [0x2C] ++ decU n.frame.toNat ++ [0x2C]
      ++ pad n.hh.toNat 2 ++ [0x3A] ++ pad n.mm.toNat 2 ++ [0x3A] ++ pad n.ss.toNat 2 ++ [0x2C]
      ++ coord n.lat ++ [0x2C] ++ coord n.lon ++ [0x2C] ++ decS (Int.tdiv n.alt.toInt 1000) ++ [0x2C]
      ++ decU n.speed.toNat ++ [0x2C] ++ decU n.sats.toNat ++ [0x2C] ++ decU (n.volt.toNat * 10) ++ [0x2C]
      ++ decS n.temp.toInt := by
  simp [sentenceBody, bodyFields, joinComma, timeField, altField, voltField, ascii]

/-- Settles O42: the sentence by `sentenceBody_eq`, each helper by its law. -/
theorem sentenceFollowsTheGrammar : Obligations.SentenceFollowsTheGrammar := by
  refine ⟨?_, decS_eq, fun n w => ⟨_, pad_eq n w, length_pad n w⟩, ?_, length_hex4⟩
  · intro callsign body n hbody
    rw [hbody, ← sentenceBody_eq, sentence]
    simp [frameMarker, ascii]
  · rintro c k v hk rfl
    rw [getElem?_hex4 c hk, hexDigit_ofNat]

/-! ## The bytes -/

/-- The bytes that the grammar puts into a sentence besides the callsign's (30_encoding.md R96). -/
def isGrammarByte (b : Byte) : Prop :=
  b = 0x24 ∨ b = 0x2A ∨ b = 0x2C ∨ b = 0x2D ∨ b = 0x2E ∨ isDigit b ∨ b = 0x3A ∨ (0x41 ≤ b.toNat ∧ b.toNat ≤ 0x46)
    ∨ b = 0x0A

/-- None of them is 0x00 (30_encoding.md R96). -/
theorem ne_zero_of_isGrammarByte {b : Byte} (h : isGrammarByte b) : b ≠ 0x00 := by
  rintro rfl
  revert h
  unfold isGrammarByte
  decide

/-- Nor is a byte of a legal callsign (00_scope.md R8). -/
theorem ne_zero_of_mem_callsign {p : Params} (hp : p.legal = true) {b : Byte} (h : b ∈ p.callsign) : b ≠ 0x00 := by
  rintro rfl
  simp only [Params.legal, Bool.and_eq_true, List.all_eq_true] at hp
  obtain ⟨⟨⟨⟨-, hall⟩, -⟩, -⟩, -⟩ := hp
  exact absurd (hall 0x00 h) (by decide)

theorem isGrammarByte_of_isDigit {b : Byte} (h : isDigit b) : isGrammarByte b :=
  .inr (.inr (.inr (.inr (.inr (.inl h)))))

theorem isGrammarByte_of_mem_decU {n : Nat} {b : Byte} (h : b ∈ decU n) : isGrammarByte b :=
  isGrammarByte_of_isDigit (isDigit_of_mem_decU h)

theorem isGrammarByte_of_mem_pad {n w : Nat} {b : Byte} (h : b ∈ pad n w) : isGrammarByte b :=
  isGrammarByte_of_isDigit (isDigit_of_mem_pad h)

theorem isGrammarByte_of_mem_decS {z : Int} {b : Byte} (h : b ∈ decS z) : isGrammarByte b := by
  rcases mem_decS h with rfl | h
  · simp [isGrammarByte]
  · exact isGrammarByte_of_isDigit h

theorem isGrammarByte_of_mem_coord {x : Word} {b : Byte} (h : b ∈ coord x) : isGrammarByte b := by
  rcases mem_coord h with rfl | rfl | h
  · simp [isGrammarByte]
  · simp [isGrammarByte]
  · exact isGrammarByte_of_isDigit h

theorem isGrammarByte_of_mem_timeField {n : Snapshot} {b : Byte} (h : b ∈ timeField n) : isGrammarByte b := by
  simp only [timeField, List.mem_append, List.mem_singleton] at h
  rcases h with (((h | rfl) | h) | rfl) | h
  · exact isGrammarByte_of_mem_pad h
  · simp [isGrammarByte, ascii]
  · exact isGrammarByte_of_mem_pad h
  · simp [isGrammarByte, ascii]
  · exact isGrammarByte_of_mem_pad h

theorem isGrammarByte_of_mem_hex4 {c : Half} {b : Byte} (h : b ∈ hex4 c) : isGrammarByte b := by
  rcases mem_hex4 h with h | h
  · exact isGrammarByte_of_isDigit h
  · simp [isGrammarByte, h]

/-- A byte of joined fields is a comma or a byte of one of them (43_formatter.md R164). -/
theorem mem_joinComma {b : Byte} : ∀ {fields : List (List Byte)}, b ∈ joinComma fields →
    b = 0x2C ∨ ∃ f ∈ fields, b ∈ f
  | [f], h => .inr ⟨f, List.mem_singleton_self f, h⟩
  | f :: g :: rest, h => by
    rcases List.mem_append.1 h with h | h
    · exact .inr ⟨f, List.mem_cons_self, h⟩
    · rcases List.mem_cons.1 h with h | h
      · exact .inl h
      · exact (mem_joinComma h).imp_right fun ⟨f', hf', hb⟩ => ⟨f', List.mem_cons_of_mem f hf', hb⟩

/-- A byte of the body is one the grammar puts there or one of the callsign (30_encoding.md R96). -/
theorem mem_sentenceBody {callsign : List Byte} {n : Snapshot} {b : Byte} (h : b ∈ sentenceBody callsign n) :
    isGrammarByte b ∨ b ∈ callsign := by
  rcases mem_joinComma h with rfl | ⟨f, hf, hb⟩
  · exact .inl (by simp [isGrammarByte])
  · simp only [bodyFields, List.mem_cons, List.not_mem_nil, or_false] at hf
    rcases hf with rfl | rfl | rfl | rfl | rfl | rfl | rfl | rfl | rfl | rfl
    · exact .inr hb
    · exact .inl (isGrammarByte_of_mem_decU hb)
    · exact .inl (isGrammarByte_of_mem_timeField hb)
    · exact .inl (isGrammarByte_of_mem_coord hb)
    · exact .inl (isGrammarByte_of_mem_coord hb)
    · exact .inl (isGrammarByte_of_mem_decS hb)
    · exact .inl (isGrammarByte_of_mem_decU hb)
    · exact .inl (isGrammarByte_of_mem_decU hb)
    · exact .inl (isGrammarByte_of_mem_decU hb)
    · exact .inl (isGrammarByte_of_mem_decS hb)

/-- A byte of a sentence is one the grammar puts there or one of the callsign (30_encoding.md R96). -/
theorem mem_sentence {callsign : List Byte} {n : Snapshot} {b : Byte} (h : b ∈ sentence callsign n) :
    isGrammarByte b ∨ b ∈ callsign := by
  simp only [sentence, frameMarker, List.mem_append, List.mem_singleton] at h
  rcases h with (((h | h) | h) | h) | h
  · rw [List.eq_of_mem_replicate h]
    exact .inl (by simp [isGrammarByte, ascii])
  · exact mem_sentenceBody h
  · exact .inl (by simp [isGrammarByte, h, ascii])
  · exact .inl (isGrammarByte_of_mem_hex4 h)
  · exact .inl (by simp [isGrammarByte, h])

/-- No byte of a sentence is 0x00 (30_encoding.md R96). -/
theorem ne_zero_of_mem_sentence {p : Params} {n : Snapshot} (hp : p.legal = true) {b : Byte}
    (h : b ∈ sentence p.callsign n) : b ≠ 0x00 :=
  (mem_sentence h).elim ne_zero_of_isGrammarByte (ne_zero_of_mem_callsign hp)

/-! ## In the buffer -/

/-- What `FMT.RTTY` wrote is read back from offset 0 of `RTTY_BUF`: the sentence, then its `NUL` (43_formatter.md R165). -/
theorem memRead_fmtRttyOp {s t : State} (hm : Memory.wf s.mem = true) (h : fmtRttyOp s = .next t) {k : Nat}
    (hk : k < (sentence s.params.callsign s.snap ++ [0x00]).length) :
    memRead t.mem k = (sentence s.params.callsign s.snap ++ [0x00])[k] := by
  obtain ⟨m, hw, rfl⟩ := fmtRttyOp_eq_next h
  simpa [BufSel.base] using memRead_bufWrite_inside hw hm hk

/-- Settles O44: the bytes by `mem_sentence`, the buffer by `memRead_fmtRttyOp`. -/
theorem sentenceBytesAndTerminator : Obligations.SentenceBytesAndTerminator := by
  refine ⟨fun p n hp b hb => ⟨?_, ne_zero_of_mem_sentence hp hb⟩, fun s t hp hm h => ⟨?_, fun k hk => ?_⟩⟩
  · simpa only [isGrammarByte, or_assoc] using mem_sentence hb
  · simpa using memRead_fmtRttyOp hm h (k := (sentence s.params.callsign s.snap).length) (by simp)
  · rw [memRead_fmtRttyOp hm h (by simp; omega), List.getElem_append_left hk]
    exact ne_zero_of_mem_sentence hp (List.getElem_mem hk)

end Sys2Proof.Machine
end

