-- ==== Sys2Proof/Proofs/Crc.lean ====
section
/-! PROOF. The checksum: one step as the spec writes it, `CRC.BYTE` as eight of them (40_crc16.md R111, R112), the table
method, and streaming over a concatenation (R114). -/

namespace Sys2Proof.Machine

/-! ## The step -/

/-- `{c[14:0], 0}` is the 16-bit shift to the left (40_crc16.md R112, R115). -/
theorem extractLsb'_append_zero_eq_shiftLeft (c : Half) : c.extractLsb' 0 15 ++ 0#1 = c <<< 1 := by
  refine BitVec.eq_of_getLsbD_eq fun i hi => BitVec.getLsbD_append.trans ?_
  rcases i with _ | i
  · simp
  · have hlt : i < 15 := by omega
    simpa [hlt] using fun _ => hi

/-- `CRC.STEP` as the spec writes it (40_crc16.md R112). -/
theorem crcStep_eq (c : Half) : crcStep c
    = if c.getLsbD 15 then (c.extractLsb' 0 15 ++ 0#1) ^^^ 0x1021#16 else c.extractLsb' 0 15 ++ 0#1 := by
  rw [extractLsb'_append_zero_eq_shiftLeft]
  rfl

/-- The step is linear over XOR: so are the shift and the choice by bit 15. -/
theorem crcStep_xor (a b : Half) : crcStep (a ^^^ b) = crcStep a ^^^ crcStep b := by
  have hcancel (x y p : Half) : (x ^^^ p) ^^^ (y ^^^ p) = x ^^^ y := by
    rw [BitVec.xor_comm y, BitVec.xor_assoc, ← BitVec.xor_assoc p, BitVec.xor_self, BitVec.zero_xor]
  simp only [crcStep, BitVec.shiftLeft_xor_distrib, BitVec.getLsbD_xor]
  cases a.getLsbD 15 <;> cases b.getLsbD 15
  · simp
  · simp [BitVec.xor_assoc]
  · simp [BitVec.xor_assoc, BitVec.xor_comm crcPoly]
  · simp [hcancel]

/-! ## Several steps -/

/-- `crcSteps n` is the `n`-fold iterate of the step. -/
theorem crcSteps_eq_iterate (n : Nat) (c : Half) : crcSteps n c = crcStep^[n] c := by
  induction n generalizing c with
  | zero => rfl
  | succ n ih => rw [crcSteps, ih, Function.iterate_succ_apply]

/-- Steps are linear over XOR: a register can be split and its parts stepped on their own. -/
theorem crcSteps_xor (n : Nat) (a b : Half) : crcSteps n (a ^^^ b) = crcSteps n a ^^^ crcSteps n b := by
  induction n generalizing a b with
  | zero => rfl
  | succ n ih => simp only [crcSteps, crcStep_xor, ih]

/-- Steps only shift while no bit set in the register reaches bit 15. -/
theorem crcSteps_eq_shiftLeft (n : Nat) (c : Half) (h : ∀ i, 16 ≤ i + n → c.getLsbD i = false) :
    crcSteps n c = c <<< n := by
  induction n generalizing c with
  | zero => simp [crcSteps]
  | succ n ih =>
    have hstep : crcStep c = c <<< 1 := by
      rw [crcStep, h 15 (by omega), if_neg Bool.false_ne_true]
    rw [crcSteps, hstep, ih, ← BitVec.shiftLeft_add, Nat.add_comm]
    intro i hi
    simp [BitVec.getLsbD_shiftLeft, h (i - 1) (by omega)]

/-! ## The byte -/

/-- `CRC.BYTE` goes on and writes only `crc_reg` (40_crc16.md R111). -/
@[simp] theorem exec_crcByte (b : Byte) (s : State) :
    exec (.crcByte b) s = .next { s with crcReg := crcByteOf s.crcReg b } := rfl

/-- Settles O15: the spec's step is `crcStep` by `crcStep_eq`, and `crcSteps` iterates it. -/
theorem crcByteIsEightPolynomialSteps : Obligations.CrcByteIsEightPolynomialSteps := by
  intro step1 hstep1 b s
  have hstep : step1 = crcStep := funext fun c => (hstep1 c).trans (crcStep_eq c).symm
  rw [hstep, exec_crcByte, crcByteOf, crcSteps_eq_iterate]

/-! ## The table method -/

/-- Bits 7:0 of two bytes put together are the second one's, bits 15:8 the first one's. -/
theorem getLsbD_append_byte (x y : Byte) (i : Nat) :
    (x ++ y : Half).getLsbD i = if i < 8 then y.getLsbD i else x.getLsbD (i - 8) :=
  BitVec.getLsbD_append

/-- The register with the byte in it is the table's index above the register's low byte (40_crc16.md R111). -/
theorem xor_append_zero_eq (c : Half) (b : Byte) :
    c ^^^ (b ++ 0#8) = ((c.extractLsb' 8 8 ^^^ b) ++ 0#8) ^^^ (0#8 ++ c.extractLsb' 0 8) := by
  refine BitVec.eq_of_getLsbD_eq fun i hi => ?_
  simp only [BitVec.getLsbD_xor, getLsbD_append_byte]
  by_cases h : i < 8
  · simp [h]
  · simp [h, show i - 8 < 8 by omega, show 8 + (i - 8) = i by omega]

/-- Eight steps shift the low byte to the top, where none of its bits has been tested yet. -/
theorem crcSteps_eight_lowByte (c : Half) : crcSteps 8 (0#8 ++ c.extractLsb' 0 8) = c <<< 8 := by
  rw [crcSteps_eq_shiftLeft]
  · refine BitVec.eq_of_getLsbD_eq fun i hi => ?_
    simp only [BitVec.getLsbD_shiftLeft, getLsbD_append_byte]
    by_cases h : i < 8
    · simp [h]
    · simp [h, hi, show i - 8 < 8 by omega]
  · intro i hi
    rw [getLsbD_append_byte, if_neg (by omega), BitVec.getLsbD_zero]

/-- The table method: the entry of the top byte XOR the input byte, XORed into the register shifted by 8
(40_crc16.md R114). -/
theorem crcByteOf_eq_table (c : Half) (b : Byte) :
    crcByteOf c b = (c <<< 8) ^^^ crcSteps 8 ((c.extractLsb' 8 8 ^^^ b) ++ 0#8) := by
  rw [crcByteOf, xor_append_zero_eq, crcSteps_xor, crcSteps_eight_lowByte, BitVec.xor_comm]

/-! ## Streaming -/

/-- Bytes in a row may be fed in two parts (40_crc16.md R114). -/
theorem crcOver_append (c : Half) (s1 s2 : List Byte) : crcOver c (s1 ++ s2) = crcOver (crcOver c s1) s2 := by
  induction s1 generalizing c with
  | nil => rfl
  | cons b s1 ih => exact ih (crcByteOf c b)

/-- `CRC.BYTE` on each byte in order leaves `crcOver` of them in `crc_reg` and changes nothing else. -/
theorem runOps_map_crcByte (bytes : List Byte) (s : State) :
    runOps (bytes.map .crcByte) s = .next { s with crcReg := crcOver s.crcReg bytes } := by
  induction bytes generalizing s with
  | nil => rfl
  | cons b bytes ih => rw [List.map_cons, runOps, exec_crcByte, andThen_next, ih, crcOver]

/-- A sequence without `NUL` is its own part up to the first one (40_crc16.md R113). -/
theorem untilNul_eq_self {bytes : List Byte} (h : ∀ b ∈ bytes, b ≠ 0) : untilNul bytes = bytes :=
  List.takeWhile_eq_self_iff.2 fun b hb => bne_iff_ne.2 (h b hb)

/-- `CRC.STR` of a sequence without `NUL` leaves its checksum in `crc_reg` and returns it (40_crc16.md R113). -/
theorem exec_crcStr {bytes : List Byte} (h : ∀ b ∈ bytes, b ≠ 0) (s : State) :
    exec (.crcStr bytes) s = .next { s with crcReg := crcOf bytes, result := some (.crc (crcOf bytes)) } := by
  change execCrcStr bytes s = _
  rw [execCrcStr, untilNul_eq_self h, setResult, setCrc]

/-- Settles O17: streaming by `crcOver_append`, the table by `crcByteOf_eq_table`. -/
theorem crcStreamsAndAllowsATable : Obligations.CrcStreamsAndAllowsATable := by
  refine ⟨fun s1 s2 s h => ?_, fun table htable b s => ?_⟩
  · have h1 : ∀ b ∈ s1, b ≠ 0 := fun b hb => h b (List.mem_append_left s2 hb)
    have hrun : runOps (.crcStr s1 :: s2.map .crcByte) s = .next
        { s with crcReg := crcOver (crcOf s1) s2, result := some (.crc (crcOf s1)) } := by
      rw [runOps, exec_crcStr h1, andThen_next, runOps_map_crcByte]
    exact ⟨_, _, hrun, exec_crcStr h s, (crcOver_append crcInitial s1 s2).symm⟩
  · rw [exec_crcByte, crcByteOf_eq_table, htable]

end Sys2Proof.Machine
end

