-- ==== Sys2Proof/Proofs/Decimal.lean ====
section
/-! PROOF. What decimal numbers stand for: `dec_u` by its recursion on the last digit, its value, length and first digit
(43_formatter.md R155), then `pad` (R157) and the coordinate (R158). -/

namespace Sys2Proof.Machine

open Sys2Proof.Safety

/-! ## The recursion on the last digit -/

/-- Fuel above the number is never used up, so its amount takes no part. -/
theorem decDigits_eq_of_lt {fuel fuel' n : Nat} (h : n < fuel) (h' : n < fuel') : decDigits fuel n = decDigits fuel' n := by
  induction fuel generalizing fuel' n with
  | zero => exact absurd h n.not_lt_zero
  | succ fuel ih =>
    obtain ⟨fuel', rfl⟩ := Nat.exists_eq_add_one_of_ne_zero (by omega : fuel' ≠ 0)
    rw [decDigits, decDigits]
    split
    · rfl
    · rw [ih (fuel' := fuel') (by omega) (by omega)]

/-- A number of one digit. -/
theorem decU_of_lt {n : Nat} (h : n < 10) : decU n = [digit n] := by
  rw [decU, decDigits, if_pos h]

/-- A number of more digits: those of its tenth, then the last one. -/
theorem decU_of_le {n : Nat} (h : 10 ≤ n) : decU n = decU (n / 10) ++ [digit (n % 10)] := by
  rw [decU, decDigits, if_neg (by omega), decU, decDigits_eq_of_lt (by omega) (Nat.lt_succ_self _)]

/-! ## The value -/

/-- A digit more is ten times the number and the digit's value. -/
theorem decValue_append_digit (digits : List Byte) {d : Nat} (h : d < 10) :
    decValue (digits ++ [digit d]) = decValue digits * 10 + d := by
  simp [decValue, List.foldl_append, toNat_digit h]

/-- Zeros in front change no value. -/
theorem decValue_replicate_zero_append (k : Nat) (digits : List Byte) :
    decValue (List.replicate k 0x30 ++ digits) = decValue digits := by
  induction k with
  | zero => rfl
  | succ k ih => exact ih

/-- `dec_u` stands for the number it is given (43_formatter.md R155). -/
theorem decValue_decU (n : Nat) : decValue (decU n) = n := by
  induction n using Nat.strong_induction_on with
  | h n ih =>
    by_cases h : n < 10
    · rw [decU_of_lt h, ← List.nil_append [digit n], decValue_append_digit [] h]
      exact Nat.zero_add n
    · rw [decU_of_le (by omega), decValue_append_digit _ (Nat.mod_lt n (by decide)), ih (n / 10) (by omega)]
      omega

/-- So does `pad` (43_formatter.md R157). -/
theorem decValue_pad (n w : Nat) : decValue (pad n w) = n := by
  rw [pad_eq, decValue_replicate_zero_append, decValue_decU]

/-! ## The form -/

/-- `dec_u` gives at least one digit, also for 0. -/
theorem decU_ne_nil (n : Nat) : decU n ≠ [] := by
  by_cases h : n < 10
  · simp [decU_of_lt h]
  · simp [decU_of_le (Nat.le_of_not_lt h)]

/-- Only 0 begins with the digit 0 (43_formatter.md R155): the first digit is the first one of the tenth, down to a number
of one digit. -/
theorem head?_decU_ne_zero {n : Nat} (hn : 0 < n) : (decU n).head? ≠ some 0x30 := by
  induction n using Nat.strong_induction_on with
  | h n ih =>
    by_cases h : n < 10
    · rw [decU_of_lt h, List.head?_singleton, Ne, Option.some.injEq, ← BitVec.toNat_inj, toNat_digit h]
      exact (Nat.lt_add_of_pos_right hn).ne'
    · rw [decU_of_le (by omega), List.head?_append_of_ne_nil _ (decU_ne_nil _)]
      exact ih (n / 10) (by omega) (by omega)

/-- A number below a power of ten has no more digits than the power. -/
theorem length_decU_le {n k : Nat} (h : n < 10 ^ (k + 1)) : (decU n).length ≤ k + 1 := by
  induction k generalizing n with
  | zero => rw [decU_of_lt (by simpa using h), List.length_singleton]
  | succ k ih =>
    by_cases hn : n < 10
    · simp [decU_of_lt hn]
    · rw [decU_of_le (by omega), List.length_append, List.length_singleton]
      exact Nat.succ_le_succ (ih (Nat.div_lt_of_lt_mul (by rwa [← Nat.pow_succ'])))

/-- Settles O40: digits by `isDigit_of_mem_decU`, their value by `decValue_decU`, no leading zero by `head?_decU_ne_zero`. -/
theorem decimalDigitsAreCanonical : Obligations.DecimalDigitsAreCanonical :=
  ⟨fun n => ⟨fun _ => isDigit_of_mem_decU, decValue_decU n, head?_decU_ne_zero, decU_ne_nil n⟩, decU_of_lt (by decide)⟩

/-! ## The coordinate -/

/-- The fraction of a coordinate fills its four places (43_formatter.md R158). -/
theorem length_pad_fraction (m : Nat) : (pad (m % 10000000 / 1000) 4).length = 4 := by
  rw [length_pad]
  exact Nat.max_eq_left (length_decU_le (k := 3) (by omega))

/-- Settles O41: the fraction's length by `length_pad_fraction`, the value of its parts by `decValue_decU` and
`decValue_pad`. -/
theorem coordinateForm : Obligations.CoordinateForm := by
  refine fun x => ⟨decU (abs32 x / 10000000), pad (abs32 x % 10000000 / 1000) 4, rfl, fun b hb => ?_, rfl,
    length_pad_fraction _, ?_⟩
  · exact (List.mem_append.1 hb).elim isDigit_of_mem_decU isDigit_of_mem_pad
  · rw [decValue_decU, decValue_pad, abs32]
    omega

end Sys2Proof.Machine
end

