-- ==== Sys2Proof/Proofs/Formatter.lean ====
section
/-! PROOF. The snapshot `SNAP.CAPTURE` takes (43_formatter.md R150 to R153), and what `FMT.FSK` leaves in the registers and
in the buffer space (R170). -/

namespace Sys2Proof.Machine

/-! ## The test frame -/

/-- A legal test frame fits in its buffer (00_scope.md R8). -/
theorem length_fskFrame_le {p : Params} (hp : p.legal = true) : p.fskFrame.length ≤ 128 := by
  simp only [Params.legal, Bool.and_eq_true, decide_eq_true_eq] at hp
  obtain ⟨⟨⟨-, hframe⟩, -⟩, -⟩ := hp
  exact hframe

/-- With legal parameters `FMT.FSK` always goes on: its frame fits, so it is written (43_formatter.md R170). -/
theorem fmtFskOp_of_legal {s : State} (hp : s.params.legal = true) : ∃ t, fmtFskOp s = .next t := by
  obtain ⟨m, hm⟩ := bufWrite_isSome (sel := .fskBuf) (offset := 0) (m := s.mem)
    (by simpa using length_fskFrame_le hp)
  exact ⟨_, by rw [fmtFskOp, hm]⟩

/-- Besides the buffer space `FMT.FSK` writes `pkt_len` and the selection only (43_formatter.md R170). -/
theorem fmtFskOp_frame {s t : State} (h : fmtFskOp s = .next t) :
    t = { s with pktLen := BitVec.ofNat 8 s.params.fskFrame.length, bufSel := .fskBuf, mem := t.mem } := by
  obtain ⟨m, -, rfl⟩ := fmtFskOp_eq_next h
  rfl

/-- What `FMT.FSK` wrote is read back from offset 0 of `FSK_BUF` (43_formatter.md R170). -/
theorem memRead_fmtFskOp_inside {s t : State} (hm : Memory.wf s.mem = true) (h : fmtFskOp s = .next t) {k : Nat}
    (hk : k < s.params.fskFrame.length) : memRead t.mem (0x80 + k) = s.params.fskFrame[k] := by
  obtain ⟨m, hw, rfl⟩ := fmtFskOp_eq_next h
  exact memRead_bufWrite_inside hw hm hk

/-- `FMT.FSK` leaves every other byte as it was, all of `RTTY_BUF` among them (43_formatter.md R170). -/
theorem memRead_fmtFskOp_outside {s t : State} (h : fmtFskOp s = .next t) {a : Nat}
    (ha : a < 0x80 ∨ 0x80 + s.params.fskFrame.length ≤ a) : memRead t.mem a = memRead s.mem a := by
  obtain ⟨m, hw, rfl⟩ := fmtFskOp_eq_next h
  exact memRead_bufWrite_outside hw ha

/-- Settles O46: it goes on by `fmtFskOp_of_legal`, the registers by `fmtFskOp_frame`, the bytes by
`memRead_fmtFskOp_inside` and `memRead_fmtFskOp_outside`. -/
theorem fmtFskWritesTheFrame : Obligations.FmtFskWritesTheFrame := by
  intro s hp hm
  obtain ⟨t, ht⟩ := fmtFskOp_of_legal hp
  have hlen := length_fskFrame_le hp
  refine ⟨t, ht, fmtFskOp_frame ht, ?_, fun k hk => ?_, fun a ha => memRead_fmtFskOp_outside ht ha⟩
  · rw [fmtFskOp_frame ht]
    exact Nat.mod_eq_of_lt (by omega)
  · rw [memRead_fmtFskOp_inside hm ht hk, List.getElem?_eq_getElem hk]

/-! ## The snapshot -/

/-- The lock in numbers (43_formatter.md R151). -/
theorem lockOf_eq (fix : Byte) : lockOf fix = decide (3 ≤ fix.toNat) := rfl

/-- `SNAP.CAPTURE` always goes on; it writes the counter and the snapshot, and nothing else (43_formatter.md R150). -/
theorem exec_snapCapture (s : State) : exec .snapCapture s = .next { s with
    frameCounter := s.frameCounter + 1
    snap := snapshotOf s.params s.ports (s.frameCounter + 1) } := rfl

/-- Settles O39: the frame by `exec_snapCapture`, what depends on the fix by `lockOf_eq`. -/
theorem snapCaptureSamplesThePorts : Obligations.SnapCaptureSamplesThePorts := by
  rintro s alt rfl
  rw [exec_snapCapture]
  simp only [snapshotOf, ledEnOf, lockOf_eq, Bool.or_eq_true, Bool.not_eq_true', decide_eq_true_eq]

end Sys2Proof.Machine
end

