-- ==== Sys2Proof/Proofs/Delay.lean ====
section
/-! PROOF. The inter-packet delay: `END_PACKET` starts it, `DELAY.STEP` counts it, and the steps from a delay to the one
that sets `tx_enable` (44_tick_engine.md R196, R198). -/

namespace Sys2Proof.Machine

open Sys2Proof.Safety

/-! ## The operations -/

/-- `END_PACKET` always goes on; it writes the flag and the counter, and nothing else (44_tick_engine.md R196). -/
theorem exec_endPacket (s : State) :
    exec .endPacket s = .next { s with txOn := false, delayCnt := s.params.txDelayTicks } := rfl

/-- Settles O28: `exec_endPacket` says the whole frame. -/
theorem endPacketStartsTheDelay : Obligations.EndPacketStartsTheDelay := exec_endPacket

/-- `DELAY.STEP` always goes on (44_tick_engine.md R198). -/
theorem exec_delayStep (s : State) : exec .delayStep s = .next (delayStepOp s) := rfl

/-! ## Steps in a row -/

/-- One more `DELAY.STEP` is one on the state before the others. -/
theorem execTimes_delayStep_succ (k : Nat) (s : State) :
    execTimes .delayStep (k + 1) s = execTimes .delayStep k (delayStepOp s) := rfl

/-- Once `tx_enable` is 1 no number of steps changes anything (44_tick_engine.md R198). -/
theorem execTimes_delayStep_of_txEnable (k : Nat) {s : State} (he : s.txEnable = true) :
    execTimes .delayStep k s = .next s := by
  induction k with
  | zero => rfl
  | succ k ih => rw [execTimes_delayStep_succ, delayStepOp_idle (.inr he), ih]

/-- From a delay of `N` the counter falls to 0, and the `max(N, 1)`-th step is the one that sets `tx_enable`
(44_tick_engine.md R198). -/
theorem execTimes_delayStep (k : Nat) {s : State} (ho : s.txOn = false) (he : s.txEnable = false) :
    ∃ t, execTimes .delayStep k s = .next t ∧ t.delayCnt.toNat = s.delayCnt.toNat - k
      ∧ t.txEnable = decide (max s.delayCnt.toNat 1 ≤ k) := by
  induction k generalizing s with
  | zero => exact ⟨s, rfl, rfl, by simp [he]⟩
  | succ k ih =>
    rw [execTimes_delayStep_succ]
    by_cases hd : s.delayCnt.toNat ≤ 1
    · rw [delayStepOp_runsOut ho he hd, execTimes_delayStep_of_txEnable k rfl]
      refine ⟨_, rfl, ?_, ?_⟩
      · exact (Nat.sub_eq_zero_of_le (by omega)).symm
      · exact (decide_eq_true (by omega)).symm
    · obtain ⟨t, ht, hcnt, hen⟩ := ih (s := { s with delayCnt := s.delayCnt - 1 }) ho he
      have hpred : (s.delayCnt - 1).toNat = s.delayCnt.toNat - 1 :=
        BitVec.toNat_sub_of_le (show 1 ≤ s.delayCnt.toNat by omega)
      rw [delayStepOp_counts ho he hd]
      refine ⟨t, ht, ?_, ?_⟩
      · rw [hcnt, hpred]
        omega
      · rw [hen, hpred, decide_eq_decide]
        omega

/-- Settles O26: one step by the three laws of `delayStepOp`, steps in a row by `execTimes_delayStep`, which an
`END_PACKET` before them starts at `TX_DELAY_TICKS`. -/
theorem delayRunsOutAfterTheGuardInterval : Obligations.DelayRunsOutAfterTheGuardInterval := by
  refine ⟨fun s => ⟨fun h => ?_, fun ho he hd => ?_, fun ho he hd => ?_⟩, fun s k => execTimes_delayStep k,
    fun s k he => ?_⟩
  · rw [exec_delayStep, delayStepOp_idle h]
  · rw [exec_delayStep, delayStepOp_runsOut ho he hd]
  · rw [exec_delayStep, delayStepOp_counts ho he (Nat.not_le.2 hd)]
  · exact execTimes_delayStep k (s := endPacketOp s) rfl he

end Sys2Proof.Machine
end

