-- ==== Sys2Proof/Proofs/Tick.lean ====
section
/-! PROOF. The tick operations: a tick without a modulation step (44_tick_engine.md R180, R181), one that sends a symbol
of an RTTY or an FSK packet (R182 to R185, R187 to R191), and the refused one (R199). -/

namespace Sys2Proof.Machine

open Sys2Proof.Safety

/-! ## Ticks without a modulation step -/

/-- Without a tick only `dev_we` is written (44_tick_engine.md R180). -/
theorem exec_tickNone (q o e : Bool) (m : ModeState) (s : State) :
    exec (.tickNone q o e m) s = .next { s with devWe := false } := rfl

/-- Settles O24: `exec_tickNone` says the whole frame. -/
theorem tickNoneOnlyClearsDevWe : Obligations.TickNoneOnlyClearsDevWe := exec_tickNone

/-- An idle tick is a `DELAY.STEP` with `dev_we` at 0 (44_tick_engine.md R181). -/
theorem exec_tickIdle (q e : Bool) (m : ModeState) (s : State) :
    exec (.tickIdle q e m) s = .next (delayStepOp (clearDevWe s)) := rfl

/-- Settles O25: `exec_tickIdle` and the three laws of `delayStepOp`. -/
theorem tickIdleOnlyCountsTheDelay : Obligations.TickIdleOnlyCountsTheDelay := by
  refine fun q e m s ho => ⟨fun he => ?_, fun he hd => ?_, fun he hd => ?_⟩
  · rw [exec_tickIdle, delayStepOp_idle (s := clearDevWe s) (.inr he), clearDevWe]
  · rw [exec_tickIdle, delayStepOp_runsOut (s := clearDevWe s) ho he hd, clearDevWe]
  · rw [exec_tickIdle, delayStepOp_counts (s := clearDevWe s) ho he (Nat.not_le.2 hd), clearDevWe]

/-! ## The reserved tick -/

/-- `TICK.RSVD` is refused by its name (44_tick_engine.md R199). -/
theorem exec_tickRsvd (q e : Bool) (s : State) : exec (.tickRsvd q e) s = .refused .tickRsvd := rfl

/-- A tick with `tx_on = 1` in `Startup` selects `TICK.RSVD`, and a sequencer operation after it (30_encoding.md R83). -/
theorem decodeEdge_packCw_tickRsvd (q e : Bool) :
    ∃ i, decodeEdge (packCw false true q true e .startup) = [.tickRsvd q e, i] := by
  have hr : cwRst (packCw false true q true e .startup) = false := cwRst_packCw ..
  obtain ⟨i, hi⟩ := decodeSeqCw_isOk hr
  exact ⟨i, decodeEdge_of_rst_clear hr (by simp [decodeTickCw]) hi⟩

/-- The refusal takes the whole edge with it (44_tick_engine.md R199). -/
theorem clockEdge_of_tickRsvd {s : State} (hr : s.ports.rst = false) (ht : s.ports.tick = true) (ho : s.txOn = true)
    (hm : s.mode = .startup) : clockEdge s = .refused .tickRsvd := by
  obtain ⟨i, hi⟩ := decodeEdge_packCw_tickRsvd s.ports.seqEn s.txEnable
  rw [clockEdge, controlWord, hr, ht, ho, hm, hi, runOps, exec_tickRsvd, andThen_refused, andThen_refused]

/-- Settles O29: the operation by `exec_tickRsvd`, its step by `clockEdge_of_tickRsvd`, and R49 (b) shuts out the states
that have it. -/
theorem tickRsvdIsRefused : Obligations.TickRsvdIsRefused := by
  refine ⟨exec_tickRsvd, fun s hl hp hr ht ho hm => ?_, fun s hs ⟨ho, hm⟩ => ?_⟩
  · rw [step_eq_clockEdge hl hp, clockEdge_of_tickRsvd hr ht ho hm]
  · obtain ⟨hmode, -⟩ := hs.spec.packetMatchesMode ho
    exact hmode hm

/-! ## A symbol of an RTTY packet -/

/-- A tick of an RTTY packet is the modulation step and `DELAY.STEP` (44_tick_engine.md R182, R194). -/
theorem exec_tickRtty (q e : Bool) (s : State) : exec (.tickRtty q e) s = tickWith rttyModulation s := rfl

/-- The generator writes its own registers only, so it leaves the packet on air (41_rtty_framer.md R120). -/
theorem rttyNextOp_txOn (b : Byte) (s : State) : (rttyNextOp b s).2.txOn = s.txOn := by
  rcases rttyNextOp_cases b s with ⟨-, h⟩ | ⟨-, -, h⟩ | ⟨-, -, -, h⟩ | ⟨-, -, h⟩ | ⟨-, -, h⟩ <;> rw [h]

/-- A tick in which the generator answers a bit, `One` or `Zero`, leaves the generator's registers as it left them and
writes deviation and LED of that bit, unless disarmed; the packet stays on air (44_tick_engine.md R185, R197). -/
theorem exec_tickRtty_symbol {q e : Bool} {s u : State} {b : Byte} (bit : Bool) (ho : s.txOn = true)
    (hb : byteAtCursor s = some b) (hz : ¬(s.bitIdx = 0 ∧ b = 0))
    (hn : rttyNextOp b (clearDevWe s) = (if bit then .one else .zero, u)) :
    exec (.tickRtty q e) s = .next { u with
      devReg := unlessDisarmed u u.devReg (if bit then u.params.rttyMarkDev else 0)
      devWe := !u.ports.disableArmed
      markLed := unlessDisarmed u u.markLed bit } := by
  have hu : u.txOn = true := by
    have htx := rttyNextOp_txOn b (clearDevWe s)
    rw [hn] at htx
    exact htx.trans ho
  rw [exec_tickRtty]
  refine tickWith_onAir ?_ hu
  rw [rttyModulation_query (s := clearDevWe s) hb hz, hn]
  cases bit <;> rfl

/-- Settles O30: the generator's sub-case gives the bit, `exec_tickRtty_symbol` what the tick does with it. -/
theorem tickRttySendsOneSymbol : Obligations.TickRttySendsOneSymbol := by
  refine fun q e s b ho hb => ⟨fun hp hz => ?preStart, fun hp hi hne => ?startBit, fun hp hi hd => ?dataBit,
    fun hp hd => ?stopBit⟩
  case preStart => exact exec_tickRtty_symbol true ho hb hz (rttyNextOp_preStart (s := clearDevWe s) b hp)
  case startBit =>
    have hz : ¬(s.bitIdx = 0 ∧ b = 0) := fun ⟨_, hb0⟩ => hne hb0
    exact exec_tickRtty_symbol false ho hb hz (rttyNextOp_startBit (s := clearDevWe s) b hp hi)
  case dataBit =>
    have hz : ¬(s.bitIdx = 0 ∧ b = 0) := fun ⟨hi0, _⟩ => hi hi0
    exact exec_tickRtty_symbol _ ho hb hz (rttyNextOp_dataBit (s := clearDevWe s) b hp hi hd)
  case stopBit =>
    have hz : ¬(s.bitIdx = 0 ∧ b = 0) := fun ⟨hi0, _⟩ => bitIdx_ne_zero hd.ge hi0
    exact exec_tickRtty_symbol true ho hb hz (rttyNextOp_stopBit (s := clearDevWe s) b hp hd)

/-! ## A symbol of an FSK packet -/

/-- A tick of a 4-level packet is the modulation step and `DELAY.STEP` (44_tick_engine.md R187, R194). -/
theorem exec_tickFsk4 (q e : Bool) (s : State) :
    exec (.tickFsk4 q e) s = tickWith (fskModulation (mapperNext 4 fsk4Field)) s := rfl

/-- So is one of a 2-level packet, with the other mapper (44_tick_engine.md R191, R194). -/
theorem exec_tickFsk2 (q e : Bool) (s : State) :
    exec (.tickFsk2 q e) s = tickWith (fskModulation (mapperNext 8 fsk2Field)) s := rfl

/-- The deviation value of a symbol is the symbol itself (30_encoding.md R87, R88). -/
theorem symbolDev_symbol (sym : BitVec 2) : symbolDev (.symbol sym) = sym.zeroExtend 8 := by
  rw [symbolDev, FskResult.sym, FskResult.code, BitVec.extractLsb'_append_eq_right]

/-- A tick that finds a symbol left in the byte at the cursor writes its value, and nothing else but the position; the
packet stays on air (44_tick_engine.md R190). -/
theorem tickWith_fskModulation_symbol {count : Nat} (field : Bool → Byte → Nat → BitVec 2) {s : State} {b : Byte}
    (ho : s.txOn = true) (hc : s.cursor ≠ s.pktLen) (hb : byteAtCursor s = some b) (hi : s.symIdx.toNat < count) :
    tickWith (fskModulation (mapperNext count field)) s = .next { s with
      symIdx := s.symIdx + 1
      devReg := unlessDisarmed s s.devReg ((field s.params.fskMsbFirst b s.symIdx.toNat).zeroExtend 8)
      devWe := !s.ports.disableArmed } := by
  refine tickWith_onAir ?_ ho
  rw [fskModulation_query _ (s := clearDevWe s) hc hb, mapperNext_symbol field (s := clearDevWe s) b hi, fskOnResult,
    symbolDev_symbol]
  rfl

/-- Settles O33: both mappers by `tickWith_fskModulation_symbol`. -/
theorem tickFskSendsOneSymbol : Obligations.TickFskSendsOneSymbol := by
  refine fun q e s b ho hc hb => ⟨fun hi => ?_, fun hi => ?_⟩
  · rw [exec_tickFsk4, tickWith_fskModulation_symbol fsk4Field ho hc hb hi]
  · rw [exec_tickFsk2, tickWith_fskModulation_symbol fsk2Field ho hc hb hi]

end Sys2Proof.Machine
end

