-- ==== Sys2Proof/Proofs/Sequencer.lean ====
section
/-! PROOF. The sequencer operations that wait and the one that wraps (45_sequencer.md R210, R213, R214), and which
operation the sequencer decoder selects (30_encoding.md R83). -/

namespace Sys2Proof.Machine

/-! ## The operations -/

/-- Without `seq_en` the sequencer does nothing (45_sequencer.md R210). -/
@[simp] theorem exec_seqNone (t o e : Bool) (m : ModeState) (s : State) : exec (.seqNone t o e m) s = .next s := rfl

/-- The wait while a packet is on air does nothing (45_sequencer.md R214). -/
@[simp] theorem exec_seqWaitTransmitting (t e : Bool) (m : ModeState) (s : State) :
    exec (.seqWaitTransmitting t e m) s = .next s := rfl

/-- The wait during the inter-packet delay does nothing (45_sequencer.md R214). -/
@[simp] theorem exec_seqWaitDelay (t : Bool) (m : ModeState) (s : State) : exec (.seqWaitDelay t m) s = .next s := rfl

/-- `SEQ.WRAP` always goes on; it writes the mode and nothing else (45_sequencer.md R213). -/
theorem exec_seqWrap (t m : Bool) (s : State) : exec (.seqWrap t m) s = .next { s with mode := .startup } := rfl

/-! ## The selection -/

/-- The guard in terms of the two flags (45_sequencer.md R215). -/
theorem guard_eq_true {s : State} : guard s = true ↔ s.txOn = false ∧ s.txEnable = true := by
  simp [guard]

/-- In `Startup` with the guard holding, `seq_en` selects `SEQ.STARTUP` (30_encoding.md R83). -/
theorem decodeSeqCw_of_guard_of_startup {s : State} (hr : s.ports.rst = false) (hq : s.ports.seqEn = true)
    (hg : guard s = true) (hm : s.mode = .startup) : decodeSeqCw (controlWord s) = .ok (.seqStartup s.ports.tick) := by
  obtain ⟨ho, he⟩ := guard_eq_true.1 hg
  simp [controlWord, decodeSeqCw, hr, hq, ho, he, hm]

/-- Settles O50: the frames by one equation an operation, the next step by `decodeSeqCw_of_guard_of_startup`, since the
guard reads neither the mode nor the ports. -/
theorem seqWaitsChangeNothingAndWrapOnlyTheMode : Obligations.SeqWaitsChangeNothingAndWrapOnlyTheMode := fun s =>
  ⟨fun t o e m => exec_seqNone t o e m s, fun t e m => exec_seqWaitTransmitting t e m s,
    fun t m => exec_seqWaitDelay t m s, fun t m => exec_seqWrap t m s, rfl,
    fun p hr hq hg => decodeSeqCw_of_guard_of_startup (s := { s with mode := .startup, ports := p }) hr hq hg rfl⟩

/-- The sequencer operations that change state: the steps along the mode cycle (45_sequencer.md R215). -/
def MovesAlongTheCycle (i : Instr) : Prop :=
  (∃ k, i = .seqStartup k) ∨ (∃ k, i = .seqFsk k) ∨ ∃ k m, i = .seqWrap k m

/-- Everything the sequencer decoder can select: an operation that does nothing, or, with no packet on air, a step along
the mode cycle (30_encoding.md R83, 45_sequencer.md R215). -/
theorem decodeSeqCw_eq_ok {cw : ControlWord} {i : Instr} (h : decodeSeqCw cw = .ok i) :
    (∀ s, exec i s = .next s) ∨ (cwTxOn cw = false ∧ MovesAlongTheCycle i) := by
  unfold decodeSeqCw at h
  split at h
  · cases h
  split at h
  · obtain rfl := Except.ok.inj h
    exact .inl (exec_seqNone _ _ _ _)
  split at h
  · obtain rfl := Except.ok.inj h
    exact .inl (exec_seqWaitTransmitting _ _ _)
  next ho =>
  split at h
  · obtain rfl := Except.ok.inj h
    exact .inl (exec_seqWaitDelay _ _)
  refine .inr ⟨by simpa using ho, ?_⟩
  split at h <;> obtain rfl := Except.ok.inj h
  · exact .inl ⟨_, rfl⟩
  · exact .inr (.inl ⟨_, rfl⟩)
  · exact .inr (.inr ⟨_, _, rfl⟩)
  · exact .inr (.inr ⟨_, _, rfl⟩)

end Sys2Proof.Machine
end

