-- ==== Sys2Proof/Proofs/TickFrame.lean ====
section
/-! PROOF. A tick operation writes the registers of the tick agent and no others (10_state.md R20, 60_exceptions.md R242).
The modulation steps are taken through their inversion lemmas, so each case is a chain of named updates. -/

namespace Sys2Proof.Machine

/-- `t` is `s` but for the registers that the tick agent owns (10_state.md R20). -/
def TickRegistersOnly (s t : State) : Prop :=
  t = { s with
    txOn := t.txOn, txEnable := t.txEnable, cursor := t.cursor, delayCnt := t.delayCnt, prestartCnt := t.prestartCnt
    bitIdx := t.bitIdx, symIdx := t.symIdx, devReg := t.devReg, devWe := t.devWe, markLed := t.markLed }

theorem TickRegistersOnly.trans {s u t : State} (hu : TickRegistersOnly s u) (ht : TickRegistersOnly u t) :
    TickRegistersOnly s t :=
  Eq.trans ht (by rw [hu])

/-! ## The shared operations -/

theorem clearDevWe_tickRegistersOnly (s : State) : TickRegistersOnly s (clearDevWe s) := rfl
theorem devWriteOp_tickRegistersOnly (v : Byte) (s : State) : TickRegistersOnly s (devWriteOp v s) := rfl
theorem markSymbol_tickRegistersOnly (s : State) : TickRegistersOnly s (markSymbol s) := rfl
theorem spaceSymbol_tickRegistersOnly (s : State) : TickRegistersOnly s (spaceSymbol s) := rfl
theorem advanceCursor_tickRegistersOnly (s : State) : TickRegistersOnly s (advanceCursor s) := rfl
theorem endPacketOp_tickRegistersOnly (s : State) : TickRegistersOnly s (endPacketOp s) := rfl

theorem delayStepOp_tickRegistersOnly (s : State) : TickRegistersOnly s (delayStepOp s) := by
  unfold delayStepOp
  split
  · split <;> exact rfl
  · exact rfl

theorem rttyNextOp_tickRegistersOnly (b : Byte) (s : State) : TickRegistersOnly s (rttyNextOp b s).2 := by
  rcases rttyNextOp_cases b s with ⟨-, h⟩ | ⟨-, -, h⟩ | ⟨-, -, -, h⟩ | ⟨-, -, h⟩ | ⟨-, -, h⟩ <;> rw [h] <;> exact rfl

theorem mapperNext_tickRegistersOnly (count : Nat) (field : Bool → Byte → Nat → BitVec 2) (b : Byte) (s : State) :
    TickRegistersOnly s (mapperNext count field b s).2 := by
  rcases mapperNext_cases count field b s with ⟨-, h⟩ | ⟨-, h⟩ <;> rw [h] <;> exact rfl

/-! ## The modulation steps -/

/-- What follows an `End` (44_tick_engine.md R184, R186). -/
theorem rttyCharacterEnd_tickRegistersOnly {offset : Nat} {s t : State} (h : rttyCharacterEnd offset s = .next t) :
    TickRegistersOnly s t := by
  have hadvance := advanceCursor_tickRegistersOnly s
  obtain ⟨b, -, ⟨-, rfl⟩ | ⟨-, -, rfl⟩ | ⟨-, -, rfl⟩⟩ := rttyCharacterEnd_eq_next h
  · exact hadvance.trans (endPacketOp_tickRegistersOnly _)
  · exact hadvance.trans ((rttyNextOp_tickRegistersOnly b _).trans (spaceSymbol_tickRegistersOnly _))
  · exact hadvance

/-- The modulation step of `TICK.RTTY` (44_tick_engine.md R182 to R186). -/
theorem rttyModulation_tickRegistersOnly {s t : State} (h : rttyModulation s = .next t) : TickRegistersOnly s t := by
  obtain ⟨b, -, ⟨-, -, rfl⟩ | ⟨-, -, rfl⟩ | ⟨-, -, rfl⟩ | ⟨-, -, hend⟩⟩ := rttyModulation_eq_next h
  · exact endPacketOp_tickRegistersOnly s
  · exact (rttyNextOp_tickRegistersOnly b s).trans (markSymbol_tickRegistersOnly _)
  · exact (rttyNextOp_tickRegistersOnly b s).trans (spaceSymbol_tickRegistersOnly _)
  · exact (rttyNextOp_tickRegistersOnly b s).trans (rttyCharacterEnd_tickRegistersOnly hend)

section
variable {gen : Byte → State → FskResult × State} (hgen : ∀ b s, TickRegistersOnly s (gen b s).2)
include hgen

/-- What follows a `NoSym` (44_tick_engine.md R189). -/
theorem fskByteEnd_tickRegistersOnly {offset : Nat} {s t : State} (h : fskByteEnd gen offset s = .next t) :
    TickRegistersOnly s t := by
  have hadvance := advanceCursor_tickRegistersOnly s
  obtain ⟨-, rfl⟩ | ⟨-, b, -, rfl⟩ := fskByteEnd_eq_next h
  · exact hadvance.trans (endPacketOp_tickRegistersOnly _)
  · exact hadvance.trans ((hgen b _).trans (devWriteOp_tickRegistersOnly _ _))

/-- The modulation step of an FSK tick (44_tick_engine.md R187 to R191). -/
theorem fskModulation_tickRegistersOnly {s t : State} (h : fskModulation gen s = .next t) : TickRegistersOnly s t := by
  obtain ⟨-, rfl⟩ | ⟨-, b, -, ⟨sym, -, rfl⟩ | ⟨-, hend⟩⟩ := fskModulation_eq_next h
  · exact endPacketOp_tickRegistersOnly s
  · exact (hgen b s).trans (devWriteOp_tickRegistersOnly _ _)
  · exact (hgen b s).trans (fskByteEnd_tickRegistersOnly hgen hend)

end

/-! ## The tick operations -/

/-- A tick whose modulation step keeps to the tick's registers does so too (44_tick_engine.md R194). -/
theorem tickWith_tickRegistersOnly {modulation : State → Res}
    (hmod : ∀ {s u}, modulation s = .next u → TickRegistersOnly s u) {s t : State} (h : tickWith modulation s = .next t) :
    TickRegistersOnly s t := by
  obtain ⟨u, hu, rfl⟩ := tickWith_eq_next.1 h
  exact (clearDevWe_tickRegistersOnly s).trans ((hmod hu).trans (delayStepOp_tickRegistersOnly u))

/-- Every tick operation writes the tick's registers only (10_state.md R20, 60_exceptions.md R242). -/
theorem exec_tick_tickRegistersOnly {i : Instr} {s t : State} (hi : i.format = .t) (h : exec i s = .next t) :
    TickRegistersOnly s t := by
  cases i with
  | tickNone =>
    obtain rfl := Host.Outcome.next.inj h
    exact clearDevWe_tickRegistersOnly s
  | tickIdle =>
    obtain rfl := Host.Outcome.next.inj h
    exact (clearDevWe_tickRegistersOnly s).trans (delayStepOp_tickRegistersOnly _)
  | tickRsvd => cases h
  | tickRtty => exact tickWith_tickRegistersOnly rttyModulation_tickRegistersOnly h
  | tickFsk4 =>
    exact tickWith_tickRegistersOnly (fskModulation_tickRegistersOnly (mapperNext_tickRegistersOnly 4 fsk4Field)) h
  | tickFsk2 =>
    exact tickWith_tickRegistersOnly (fskModulation_tickRegistersOnly (mapperNext_tickRegistersOnly 8 fsk2Field)) h
  | reset | seqNone | seqStartup | seqFsk | seqWrap | seqWaitTransmitting | seqWaitDelay | crcInit | crcByte | crcStr
  | rttyNext | fsk4Next | fsk2Next | snapCapture | fmtRtty | fmtFsk | arm | endPacket | devWrite | delayStep => cases hi

end Sys2Proof.Machine
end

