-- ==== Sys2Proof/Proofs/PacketOnAir.lean ====
section
/-! PROOF. What a step can do to the mode, the buffer identity, the packet length and the buffer bytes: nothing while a
packet is on air (45_sequencer.md R218, 70_reset_and_hazards.md R266). A step goes on through the model's own port or at a
clock edge, and an edge without reset is a tick operation, which keeps to the tick's registers, and a sequencer operation,
which does nothing or has `tx_on = 0`. -/

namespace Sys2Proof.Machine

open Sys2Proof.Safety

/-! ## Through the model's own port -/

/-- What decodes at the port is a micro-operation (log 4). -/
theorem format_of_decode_micro {bytes rest : List Byte} {i : Instr} (h : decode .m bytes = .ok (i, rest)) :
    i.format = .m := by
  change decodeMicro bytes = _ at h
  revert h
  fun_cases decodeMicro bytes <;> rintro ⟨⟩ <;> rfl

/-- A micro-operation that goes on at the port while a packet is on air leaves the packet as it is
(70_reset_and_hazards.md R266, log 15). -/
theorem bufferFrame_of_probe {s t : State} (hp : s.probe ≠ none) (ho : s.txOn = true) (h : step s = .next t) :
    BufferFrame s t := by
  obtain ⟨-, ⟨bytes, i, rest, -, hd, hw, hi⟩ | ⟨hnone, -⟩⟩ := step_eq_next h
  · obtain ⟨hmode, hsel, hlen, hmem⟩ := micro_keeps_buffers (format_of_decode_micro hd) (hw ho) hi
    exact ⟨hmode, hsel, hlen, hmem⟩
  · exact absurd hnone hp

/-! ## At an edge without reset -/

/-- What the tick decoder selects is a tick operation (30_encoding.md R83). -/
theorem format_of_decodeTickCw {cw : ControlWord} {i : Instr} (h : decodeTickCw cw = .ok i) : i.format = .t := by
  unfold decodeTickCw at h
  split at h
  · cases h
  split at h
  · obtain rfl := Except.ok.inj h; rfl
  split at h
  · obtain rfl := Except.ok.inj h; rfl
  split at h <;> obtain rfl := Except.ok.inj h <;> rfl

/-- Everything an edge without reset can do when it goes on: the tick operation, the sequencer operation on what it left,
both selected before the edge, and the environment's new ports (30_encoding.md R81, 60_exceptions.md R238). -/
theorem step_eq_next_of_edge {s t : State} (hp : s.probe = none) (hr : s.ports.rst = false) (h : step s = .next t) :
    ∃ i q u v, decodeTickCw (controlWord s) = .ok i ∧ decodeSeqCw (controlWord s) = .ok q
      ∧ exec i s = .next u ∧ exec q u = .next v ∧ t = advanceInputs v := by
  obtain ⟨-, ⟨bytes, i, rest, hbytes, -⟩ | ⟨-, v, hrun, ht⟩⟩ := step_eq_next h
  · simp [hp] at hbytes
  · have hrst : cwRst (controlWord s) = false := by rw [controlWord, cwRst_packCw, hr]
    obtain ⟨i, hi⟩ := decodeTickCw_isOk hrst
    obtain ⟨q, hq⟩ := decodeSeqCw_isOk hrst
    rw [decodeEdge_of_rst_clear hrst hi hq, runOps] at hrun
    obtain ⟨u, hu, hv⟩ := andThen_eq_next.1 hrun
    exact ⟨i, q, u, v, hi, hq, hu, runOps_singleton q u ▸ hv, ht⟩

/-- An edge without reset writes the tick's registers and no others, or performs a step along the mode cycle, and then no
packet is on air (45_sequencer.md R215, R218). -/
theorem edge_tickRegistersOnly_or_cycle {s t : State} (hp : s.probe = none) (hr : s.ports.rst = false)
    (h : step s = .next t) :
    (∃ u, TickRegistersOnly s u ∧ t = advanceInputs u)
    ∨ (s.txOn = false ∧ ∃ q, decodeSeqCw (controlWord s) = .ok q ∧ MovesAlongTheCycle q) := by
  obtain ⟨i, q, u, v, hi, hq, hu, hv, rfl⟩ := step_eq_next_of_edge hp hr h
  rcases decodeSeqCw_eq_ok hq with hnothing | ⟨ho, hcycle⟩
  · have huv : u = v := Host.Outcome.next.inj ((hnothing u).symm.trans hv)
    exact .inl ⟨u, exec_tick_tickRegistersOnly (format_of_decodeTickCw hi) hu, by rw [huv]⟩
  · rw [controlWord, cwTxOn_packCw] at ho
    exact .inr ⟨ho, q, hq, hcycle⟩

/-- The tick's registers are none of those a packet on air protects (10_state.md R20, 45_sequencer.md R218). -/
theorem TickRegistersOnly.bufferFrame {s t : State} (h : TickRegistersOnly s t) : BufferFrame s t :=
  ⟨by rw [h], by rw [h], by rw [h], by rw [h]⟩

/-- Nor are they the snapshot, the frame counter or `crc_reg` (10_state.md R20). -/
theorem TickRegistersOnly.snap_frameCounter_crcReg {s t : State} (h : TickRegistersOnly s t) :
    t.snap = s.snap ∧ t.frameCounter = s.frameCounter ∧ t.crcReg = s.crcReg :=
  ⟨by rw [h], by rw [h], by rw [h]⟩

/-- Settles O55: the port by `bufferFrame_of_probe`, an edge without reset by `edge_tickRegistersOnly_or_cycle`, whose
second case shuts out a packet on air. -/
theorem packetOnAirProtectsItsBuffer : Obligations.PacketOnAirProtectsItsBuffer := by
  intro s t hs h
  by_cases hp : s.probe = none
  · have hr : s.ports.rst = false := hs.resolve_left (not_not.2 hp)
    rcases edge_tickRegistersOnly_or_cycle hp hr h with ⟨u, hu, rfl⟩ | ⟨hoff, hcycle⟩
    · obtain ⟨hmode, hsel, hlen, hmem⟩ := hu.bufferFrame
      have hframe : BufferFrame s (advanceInputs u) := ⟨hmode, hsel, hlen, hmem⟩
      exact ⟨fun _ => hframe, fun _ => ⟨fun _ => hu.snap_frameCounter_crcReg, .inl hframe⟩⟩
    · have hnotOn : s.txOn ≠ true := Bool.eq_false_iff.1 hoff
      exact ⟨fun ho => absurd ho hnotOn, fun _ => ⟨fun ho => absurd ho hnotOn, .inr ⟨hoff, hcycle⟩⟩⟩
  · exact ⟨fun ho => bufferFrame_of_probe hp ho h, fun hnone => absurd hnone hp⟩

end Sys2Proof.Machine
end

