-- ==== Sys2Proof/Proofs/Encoding.lean ====
section
/-! PROOF. Encoding and decoding are inverse to each other (30_encoding.md section 1): every control word is its seven
fields, so each decoder of a control word is read off the fields; a string operand ends at its first `NUL`. -/

namespace Sys2Proof.Machine

/-! ## Control words -/

/-- A control word is the word of its fields (30_encoding.md R80). -/
theorem exists_eq_packCw (cw : ControlWord) : ∃ r t q o e m, cw = packCw r t q o e m :=
  ⟨cwRst cw, cwTick cw, cwSeqEn cw, cwTxOn cw, cwTxEnable cw, cwMode cw, by revert cw; decide⟩

/-- With `rst = 1` the reset decoder answers `RESET` with the other fields (30_encoding.md R83). -/
@[simp] theorem decodeResetCw_packCw (t q o e : Bool) (m : ModeState) :
    decodeResetCw (packCw true t q o e m) = .ok (.reset t q o e m) := by
  simp [decodeResetCw]

/-- What the reset decoder answers is well-formed and has the control word as its encoding. -/
theorem encode_of_decodeResetCw {cw : ControlWord} {i : Instr} (h : decodeResetCw cw = .ok i) :
    i.format = .r ∧ i.wf = true ∧ encode i = [controlByte cw] := by
  obtain ⟨r, t, q, o, e, m, rfl⟩ := exists_eq_packCw cw
  cases r <;> simp [decodeResetCw] at h
  subst h
  exact ⟨rfl, rfl, rfl⟩

/-- What the tick decoder answers is well-formed and has the control word as its encoding: the fields that select the
operation stand in its pattern, the others are its letter fields. -/
theorem encode_of_decodeTickCw {cw : ControlWord} {i : Instr} (h : decodeTickCw cw = .ok i) :
    i.format = .t ∧ i.wf = true ∧ encode i = [controlByte cw] := by
  obtain ⟨r, t, q, o, e, m, rfl⟩ := exists_eq_packCw cw
  cases r <;> cases t <;> cases o <;> cases m <;> simp [decodeTickCw] at h <;> subst h <;> exact ⟨rfl, rfl, rfl⟩

/-- What the sequencer decoder answers is well-formed and has the control word as its encoding. -/
theorem encode_of_decodeSeqCw {cw : ControlWord} {i : Instr} (h : decodeSeqCw cw = .ok i) :
    i.format = .s ∧ i.wf = true ∧ encode i = [controlByte cw] := by
  obtain ⟨r, t, q, o, e, m, rfl⟩ := exists_eq_packCw cw
  cases r <;> cases q <;> cases o <;> cases e <;> cases m <;> simp [decodeSeqCw] at h <;> subst h <;>
    exact ⟨rfl, rfl, rfl⟩

/-! ## Control bytes -/

/-- A byte with bit 7 clear is the control byte of its control word. -/
theorem controlByte_controlWordOf {b : Byte} (h : b.getLsbD 7 = false) : controlByte (controlWordOf b) = b := by
  revert b; decide

/-- A control byte is decoded as its control word, and what follows is left. -/
theorem decodeControl_controlByte {dec : ControlWord → Except Reject Instr} {cw : ControlWord} {i : Instr}
    (h : dec cw = .ok i) (rest : List Byte) : decodeControl dec (controlByte cw :: rest) = .ok (i, rest) := by
  simp [decodeControl, h]

/-- What a control-word decoder takes is one control byte, the encoding of its answer. -/
theorem encode_of_decodeControl {dec : ControlWord → Except Reject Instr} {f : Format}
    (hdec : ∀ {cw i}, dec cw = .ok i → i.format = f ∧ i.wf = true ∧ encode i = [controlByte cw]) {bytes rest : List Byte}
    {i : Instr} (h : decodeControl dec bytes = .ok (i, rest)) :
    i.format = f ∧ i.wf = true ∧ bytes = encode i ++ rest := by
  revert h
  fun_cases decodeControl dec bytes with
  | case1 | case2 | case4 => rintro ⟨⟩
  | case3 b tail h7 j hj =>
    rintro ⟨⟩
    obtain ⟨hf, hwf, henc⟩ := hdec hj
    exact ⟨hf, hwf, by rw [henc, controlByte_controlWordOf (Bool.eq_false_iff.2 h7)]; rfl⟩

/-! ## Strings -/

/-- A string without `NUL` is read back up to the `NUL` that ends it. -/
theorem splitAtNul_append_nul {s : List Byte} (h : ∀ b ∈ s, b ≠ 0) (rest : List Byte) :
    splitAtNul (s ++ 0 :: rest) = some (s, rest) := by
  induction s with
  | nil => rfl
  | cons b s ih =>
    obtain ⟨hb, hs⟩ := List.forall_mem_cons.1 h
    rw [List.cons_append, splitAtNul, if_neg hb, ih hs]

/-- A string that is read has no `NUL` in it, and one after it. -/
theorem splitAtNul_eq_some {bytes s rest : List Byte} (h : splitAtNul bytes = some (s, rest)) :
    bytes = s ++ 0 :: rest ∧ ∀ b ∈ s, b ≠ 0 := by
  induction bytes generalizing s with
  | nil => cases h
  | cons b bytes ih =>
    unfold splitAtNul at h
    split at h
    · next hb =>
      obtain ⟨rfl, rfl⟩ := Prod.mk.inj (Option.some.inj h)
      exact ⟨by rw [hb]; rfl, by simp⟩
    next hb =>
    split at h
    · next s' tail hs =>
      obtain ⟨rfl, rfl⟩ := Prod.mk.inj (Option.some.inj h)
      obtain ⟨rfl, hne⟩ := ih hs
      exact ⟨rfl, List.forall_mem_cons.2 ⟨hb, hne⟩⟩
    · cases h

/-- The check of `CRC.STR`'s operand: no `NUL` (40_crc16.md R113). -/
theorem wf_crcStr {s : List Byte} : (Instr.crcStr s).wf = true ↔ ∀ b ∈ s, b ≠ 0 := by
  simp [Instr.wf]

/-! ## Micro-operations -/

/-- A byte is the literal of its value. -/
theorem eq_ofNat_of_toNat_eq {b : Byte} {n : Nat} (h : b.toNat = n) : b = BitVec.ofNat 8 n := by
  rw [← h, BitVec.ofNat_toNat, BitVec.setWidth_eq]

/-- What the micro-operation decoder answers is well-formed, and the bytes are its encoding (log 4). -/
theorem encode_of_decodeMicro {bytes rest : List Byte} {i : Instr} (h : decodeMicro bytes = .ok (i, rest)) :
    i.format = .m ∧ i.wf = true ∧ bytes = encode i ++ rest := by
  revert h
  fun_cases decodeMicro bytes <;> rintro ⟨⟩
  case case4 hidx s hs =>
    obtain ⟨rfl, hne⟩ := splitAtNul_eq_some hs
    exact ⟨rfl, wf_crcStr.2 hne, by rw [eq_ofNat_of_toNat_eq hidx]; simp [encode]⟩
  all_goals next hidx => exact ⟨rfl, rfl, by rw [eq_ofNat_of_toNat_eq hidx]; rfl⟩

/-- Index 2 and a string ended by a `NUL` decode to `CRC.STR` (30_encoding.md R85, log 4). -/
theorem decodeMicro_string {bytes s rest : List Byte} (h : splitAtNul bytes = some (s, rest)) :
    decodeMicro (2 :: bytes) = .ok (.crcStr s, rest) := by
  simp [decodeMicro, h]

/-! ## The round trips -/

/-- Settles O1: a control word by its decoder's answer at its fields, `CRC.STR` by `splitAtNul_append_nul`, every other
micro-operation by evaluation. -/
theorem decodeOfEncodeIsTheOperation : Obligations.DecodeOfEncodeIsTheOperation := by
  intro i rest hwf
  cases i with
  | reset | tickNone | tickIdle | tickRsvd | tickRtty | tickFsk4 | tickFsk2 | seqNone | seqStartup | seqFsk
  | seqWaitTransmitting | seqWaitDelay =>
    exact decodeControl_controlByte (by simp [decodeTickCw, decodeSeqCw]) rest
  | seqWrap t m => exact decodeControl_controlByte (by cases m <;> simp [decodeSeqCw]) rest
  | crcStr s =>
    have hs : splitAtNul (s ++ [0] ++ rest) = some (s, rest) := by
      rw [List.append_assoc]
      exact splitAtNul_append_nul (wf_crcStr.1 hwf) rest
    exact decodeMicro_string hs
  | crcInit | crcByte | rttyNext | fsk4Next | fsk2Next | snapCapture | fmtRtty | fmtFsk | arm | endPacket | devWrite
  | delayStep => rfl

/-- Settles O2: control words by `encode_of_decodeControl`, micro-operations by `encode_of_decodeMicro`. -/
theorem decodedBytesAreTheEncoding : Obligations.DecodedBytesAreTheEncoding := by
  intro f bytes i rest h
  cases f with
  | r => exact encode_of_decodeControl encode_of_decodeResetCw h
  | t => exact encode_of_decodeControl encode_of_decodeTickCw h
  | s => exact encode_of_decodeControl encode_of_decodeSeqCw h
  | m => exact encode_of_decodeMicro h

end Sys2Proof.Machine
end

