-- ==== Sys2Proof/Proofs/SentenceLength.lean ====
section
/-! PROOF. How long a sentence can be (43_formatter.md R166): the bounds of each field, and their sum. -/

namespace Sys2Proof.Machine

/-! ## The fields -/

/-- A decimal number has at least one digit. -/
theorem length_decU_pos (n : Nat) : 1 ≤ (decU n).length := List.length_pos_iff.2 (decU_ne_nil n)

/-- A signed number has the digits of its magnitude, and a sign at most. -/
theorem length_decS_bounds {z : Int} {k : Nat} (h : z.natAbs < 10 ^ (k + 1)) :
    1 ≤ (decS z).length ∧ (decS z).length ≤ k + 2 := by
  have hlo := length_decU_pos z.natAbs
  have hhi := length_decU_le h
  rw [decS_eq]
  split
  · rw [List.length_cons]; omega
  · omega

/-- An altitude in whole metres has seven digits at most (43_formatter.md R160). -/
theorem length_decS_metres_bounds (x : Word) :
    1 ≤ (decS (Int.tdiv x.toInt 1000)).length ∧ (decS (Int.tdiv x.toInt 1000)).length ≤ 8 := by
  refine length_decS_bounds (k := 6) ?_
  have hlo := BitVec.le_toInt x
  have hhi := BitVec.toInt_lt (x := x)
  rw [Int.natAbs_tdiv]
  exact Nat.div_lt_of_lt_mul (by simp only [Int.reduceAbs]; omega)

/-- A signed byte has three digits at most. -/
theorem length_decS_byte_bounds (b : Byte) : 1 ≤ (decS b.toInt).length ∧ (decS b.toInt).length ≤ 4 := by
  refine length_decS_bounds (k := 2) ?_
  have hlo := BitVec.le_toInt b
  have hhi := BitVec.toInt_lt (x := b)
  omega

/-- A byte padded to two places has two or three (43_formatter.md R162). -/
theorem length_pad_byte_bounds (b : Byte) : 2 ≤ (pad b.toNat 2).length ∧ (pad b.toNat 2).length ≤ 3 := by
  have hhi := length_decU_le (n := b.toNat) (k := 2) (by omega)
  rw [length_pad]
  omega

/-- A coordinate: at most a sign, one to three digits, the point and four digits (43_formatter.md R158). -/
theorem length_coord_bounds (x : Word) : 6 ≤ (coord x).length ∧ (coord x).length ≤ 9 := by
  have hx : abs32 x < 10 ^ 3 * 10000000 := by
    have hlo := BitVec.le_toInt x
    have hhi := BitVec.toInt_lt (x := x)
    rw [abs32]
    omega
  have hlo := length_decU_pos (abs32 x / 10000000)
  have hhi := length_decU_le (k := 2) (Nat.div_lt_of_lt_mul (Nat.mul_comm .. ▸ hx))
  have hsign : (if x.toInt < 0 then [ascii '-'] else []).length ≤ 1 := by split <;> simp
  simp only [coord, List.length_append, List.length_singleton, length_pad_fraction]
  omega

/-! ## The sentence -/

/-- A legal callsign has one to fifteen bytes (00_scope.md R8). -/
theorem length_callsign_bounds {p : Params} (hp : p.legal = true) : 1 ≤ p.callsign.length ∧ p.callsign.length ≤ 15 := by
  simp only [Params.legal, Bool.and_eq_true, decide_eq_true_eq] at hp
  obtain ⟨⟨⟨⟨⟨hlo, hhi⟩, -⟩, -⟩, -⟩, -⟩ := hp
  exact ⟨hlo, hhi⟩

/-- The body of a sentence has 36 to 84 bytes: the ten fields and nine commas. -/
theorem length_sentenceBody_bounds {p : Params} (hp : p.legal = true) (n : Snapshot) :
    36 ≤ (sentenceBody p.callsign n).length ∧ (sentenceBody p.callsign n).length ≤ 84 := by
  have hcall := length_callsign_bounds hp
  have hframe := length_decU_le (n := n.frame.toNat) (k := 4) (by omega)
  have hspeed := length_decU_le (n := n.speed.toNat) (k := 4) (by omega)
  have hsats := length_decU_le (n := n.sats.toNat) (k := 2) (by omega)
  have hvolt := length_decU_le (n := n.volt.toNat * 10) (k := 5) (by omega)
  have halt := length_decS_metres_bounds n.alt
  have htemp := length_decS_byte_bounds n.temp
  have hh := length_pad_byte_bounds n.hh
  have hm := length_pad_byte_bounds n.mm
  have hs := length_pad_byte_bounds n.ss
  have hlat := length_coord_bounds n.lat
  have hlon := length_coord_bounds n.lon
  have hframe' := length_decU_pos n.frame.toNat
  have hspeed' := length_decU_pos n.speed.toNat
  have hsats' := length_decU_pos n.sats.toNat
  have hvolt' := length_decU_pos (n.volt.toNat * 10)
  rw [sentenceBody_eq]
  simp only [List.length_append, List.length_singleton]
  omega

/-- The marker, the star, the checksum and the newline are eleven bytes more (30_encoding.md R94). -/
theorem length_sentence (callsign : List Byte) (n : Snapshot) :
    (sentence callsign n).length = (sentenceBody callsign n).length + 11 := by
  simp only [sentence, frameMarker, List.length_append, List.length_replicate, List.length_singleton, length_hex4]
  omega

/-- Settles O43: `length_sentence` and the bounds of the body. -/
theorem sentenceFitsTheBuffer : Obligations.SentenceFitsTheBuffer := by
  intro p n hp
  have hbody := length_sentenceBody_bounds hp n
  rw [length_sentence]
  omega

end Sys2Proof.Machine
end

