-- ==== Sys2Proof/Proofs/FormatAndArm.lean ====
section
/-! PROOF. `FMT.RTTY` in the registers and in the buffer space (43_formatter.md R165), `ARM` (45_sequencer.md R216), and the
two sequencer operations that format a packet and arm it (R211, R212). -/

namespace Sys2Proof.Machine

/-! ## `FMT.RTTY` -/

/-- With legal parameters `FMT.RTTY` always goes on: the sentence and its `NUL` fit (43_formatter.md R166). -/
theorem fmtRttyOp_of_legal {s : State} (hp : s.params.legal = true) : ∃ t, fmtRttyOp s = .next t := by
  have hlen := (sentenceFitsTheBuffer s.params s.snap hp).2
  obtain ⟨m, hm⟩ := bufWrite_isSome (sel := .rttyBuf) (offset := 0) (m := s.mem)
    (bytes := sentence s.params.callsign s.snap ++ [0x00]) (by simp; omega)
  exact ⟨_, by rw [fmtRttyOp, hm]⟩

/-- Besides the buffer space `FMT.RTTY` writes `crc_reg` and the selection only (43_formatter.md R165). -/
theorem fmtRttyOp_frame {s t : State} (h : fmtRttyOp s = .next t) :
    t = { s with crcReg := crcOf (sentenceBody s.params.callsign s.snap), bufSel := .rttyBuf, mem := t.mem } := by
  obtain ⟨m, -, rfl⟩ := fmtRttyOp_eq_next h
  rfl

/-- `FMT.RTTY` leaves every byte after the `NUL` as it was (43_formatter.md R165). -/
theorem memRead_fmtRttyOp_outside {s t : State} (h : fmtRttyOp s = .next t) {a : Nat}
    (ha : (sentence s.params.callsign s.snap).length < a) : memRead t.mem a = memRead s.mem a := by
  obtain ⟨m, hw, rfl⟩ := fmtRttyOp_eq_next h
  exact memRead_bufWrite_outside hw (.inr (by simpa [BufSel.base] using ha))

/-- The bytes of the sentence in the buffer after `FMT.RTTY` (43_formatter.md R165). -/
theorem memRead_fmtRttyOp_sentence {s t : State} (hm : Memory.wf s.mem = true) (h : fmtRttyOp s = .next t) {k : Nat}
    (hk : k < (sentence s.params.callsign s.snap).length) :
    some (memRead t.mem k) = (sentence s.params.callsign s.snap)[k]? := by
  rw [memRead_fmtRttyOp hm h (by simp; omega), List.getElem_append_left hk, List.getElem?_eq_getElem hk]

/-- The `NUL` after them (43_formatter.md R165). -/
theorem memRead_fmtRttyOp_nul {s t : State} (hm : Memory.wf s.mem = true) (h : fmtRttyOp s = .next t) :
    memRead t.mem (sentence s.params.callsign s.snap).length = 0x00 := by
  simpa using memRead_fmtRttyOp hm h (k := (sentence s.params.callsign s.snap).length) (by simp)

/-- Settles O45: it goes on by `fmtRttyOp_of_legal`, the registers by `fmtRttyOp_frame`, the bytes by the three laws of
`memRead`. -/
theorem fmtRttyWritesTheSentence : Obligations.FmtRttyWritesTheSentence := by
  intro s hp hm
  obtain ⟨t, ht⟩ := fmtRttyOp_of_legal hp
  exact ⟨t, ht, fmtRttyOp_frame ht, fun k hk => memRead_fmtRttyOp_sentence hm ht hk, memRead_fmtRttyOp_nul hm ht,
    fun a ha => memRead_fmtRttyOp_outside ht ha⟩

/-! ## `ARM` -/

/-- `ARM` always goes on (45_sequencer.md R216). -/
theorem exec_arm (s : State) : exec .arm s = .next (armOp s) := rfl

/-- Settles O49: the update is `armOp`'s own. -/
theorem armLoadsTheTickRegisters : Obligations.ArmLoadsTheTickRegisters := fun s => by
  rw [exec_arm, armOp]

/-! ## `SEQ.STARTUP` and `SEQ.FSK` -/

/-- Everything `SEQ.STARTUP` can do when it goes on: the sentence of the new snapshot is formatted, then the packet is armed
(45_sequencer.md R211). -/
theorem execSeqStartup_eq_next {s t : State} :
    execSeqStartup s = .next t ↔ ∃ u, fmtRttyOp (setMode .rtty (snapCaptureOp s)) = .next u ∧ t = armOp u := by
  simp only [execSeqStartup, andThen_eq_next, Host.Outcome.next.injEq, eq_comm (a := t)]

/-- Everything `SEQ.FSK` can do when it goes on: the frame is formatted, then the packet is armed
(45_sequencer.md R212). -/
theorem execSeqFsk_eq_next {s t : State} :
    execSeqFsk s = .next t ↔ ∃ u, fmtFskOp (setMode (fskMode s.params.fskSelect) s) = .next u ∧ t = armOp u := by
  simp only [execSeqFsk, andThen_eq_next, Host.Outcome.next.injEq, eq_comm (a := t)]

/-- Settles O51: `FMT.RTTY` on the new snapshot, between the capture and `ARM`, which touch no buffer byte. -/
theorem seqStartupCapturesFormatsAndArms : Obligations.SeqStartupCapturesFormatsAndArms := by
  rintro tk s n hp hm rfl
  obtain ⟨u, hu, hframe, hbytes, hnul, hrest⟩ := fmtRttyWritesTheSentence (setMode .rtty (snapCaptureOp s)) hp hm
  exact ⟨armOp u, execSeqStartup_eq_next.2 ⟨u, hu, rfl⟩, congrArg armOp hframe, hbytes, hnul, hrest⟩

/-- Settles O52: `FMT.FSK` in the new mode, before `ARM`, which touches no buffer byte. -/
theorem seqFskFormatsAndArms : Obligations.SeqFskFormatsAndArms := by
  intro tk s hp hm
  obtain ⟨u, hu, hframe, -, hbytes, hrest⟩ := fmtFskWritesTheFrame (setMode (fskMode s.params.fskSelect) s) hp hm
  exact ⟨armOp u, execSeqFsk_eq_next.2 ⟨u, hu, rfl⟩, congrArg armOp hframe, hbytes, hrest⟩

end Sys2Proof.Machine
end

