-- ==== Sys2Proof/Proofs/Generators.lean ====
section
/-! PROOF. The three generators run alone: one call (41_rtty_framer.md, 42_fsk_mappers.md), a whole character or byte, and
what a call depends on. What a call returns is read from `result` (log 5). -/

namespace Sys2Proof.Machine

open Sys2Proof.Safety

/-! ## Operations in a row -/

/-- One more performance of an operation is one on what the others left. -/
theorem execTimes_succ (i : Instr) (n : Nat) (s : State) :
    execTimes i (n + 1) s = andThen (execTimes i n s) (exec i) := by
  induction n generalizing s with
  | zero => exact runOps_singleton i s
  | succ n ih =>
    rw [execTimes]
    cases hs : exec i s with
    | next u => rw [andThen_next, ih, execTimes, hs, andThen_next]
    | fault r => rw [execTimes, hs]; rfl
    | refused r => rw [execTimes, hs]; rfl

/-- A run written out state by state: if each performance leads from one state to the next, all of them lead from the
first to the last. -/
theorem execTimes_of_run {i : Instr} {run : Nat → State} {n : Nat}
    (h : ∀ k < n, exec i (run k) = .next (run (k + 1))) : execTimes i n (run 0) = .next (run n) := by
  induction n with
  | zero => rfl
  | succ n ih =>
    rw [execTimes_succ, ih fun k hk => h k (by omega), andThen_next]
    exact h n (Nat.lt_succ_self n)

/-! ## One call of `RTTY.NEXT` -/

/-- `RTTY.NEXT` run alone always goes on; its answer goes to `result` (log 5). -/
theorem exec_rttyNext (b : Byte) (s : State) :
    exec (.rttyNext b) s = .next (setResult (.rtty (rttyNextOp b s).1) (rttyNextOp b s).2) := rfl

/-- Settles O18: the five laws of `rttyNextOp`. -/
theorem rttyNextSubCases : Obligations.RttyNextSubCases := by
  intro b s
  refine ⟨fun hp => ?_, fun hp hi => ?_, fun hp hi hd => ?_, fun hp hd => ?_, fun hp hd => ?_⟩
  · rw [exec_rttyNext, rttyNextOp_preStart b hp, setResult]
  · rw [exec_rttyNext, rttyNextOp_startBit b hp hi, setResult]
  · rw [exec_rttyNext, rttyNextOp_dataBit b hp hi hd, setResult]
  · rw [exec_rttyNext, rttyNextOp_stopBit b hp hd, setResult]
  · rw [exec_rttyNext, rttyNextOp_end b hp hd, setResult]

/-- `End` is the answer exactly once the stop bit is sent, with no pre-start bits left (41_rtty_framer.md R125). -/
theorem rttyNextOp_eq_fin {b : Byte} {s : State} :
    (rttyNextOp b s).1 = .fin ↔ s.prestartCnt = 0 ∧ s.params.dataBits.toNat + 2 ≤ s.bitIdx.toNat := by
  rcases rttyNextOp_cases b s with ⟨hp, h⟩ | ⟨hp, hi, h⟩ | ⟨hp, hi, hd, h⟩ | ⟨hp, hd, h⟩ | ⟨hp, hd, h⟩ <;> rw [h]
  · exact iff_of_false nofun fun ⟨h0, _⟩ => hp h0
  · simp [hi]
  · have hnot : ¬s.params.dataBits.toNat + 2 ≤ s.bitIdx.toNat := by omega
    split <;> simp [hnot]
  · simp [hd]
  · simp [hp, hd]

/-- Settles O20: the three registers and the byte decide the sub-case and its answer; an `End` leaves the start bit next. -/
theorem rttyNextIsPureAndNeverEndsTwice : Obligations.RttyNextIsPureAndNeverEndsTwice := by
  constructor
  · intro b s s' t t' hp hi hd ht ht'
    obtain rfl := Host.Outcome.next.inj ht
    obtain rfl := Host.Outcome.next.inj ht'
    rcases rttyNextOp_cases b s with ⟨h1, h⟩ | ⟨h1, h2, h⟩ | ⟨h1, h2, h3, h⟩ | ⟨h1, h2, h⟩ | ⟨h1, h2, h⟩ <;>
      rw [h] <;> simp only [hp, hi, hd] at *
    · rw [rttyNextOp_preStart b h1]; simp
    · rw [rttyNextOp_startBit b h1 h2]; simp
    · rw [rttyNextOp_dataBit b h1 h2 h3]; simp
    · rw [rttyNextOp_stopBit b h1 h2]; simp
    · rw [rttyNextOp_end b h1 h2]; simp
  · intro b b' s t u ht hfin hu
    obtain rfl := Host.Outcome.next.inj ht
    obtain ⟨hp, hd⟩ := rttyNextOp_eq_fin.1 (show (rttyNextOp b s).1 = .fin by simpa using hfin)
    rw [rttyNextOp_end b hp hd] at hu
    obtain rfl := Host.Outcome.next.inj hu
    rw [rttyNextOp_startBit (s := setResult _ { s with bitIdx := 0 }) b' hp rfl]
    rfl

/-! ## A character -/

/-- The answer to the call numbered `k` for a character (41_rtty_framer.md R122 to R125). -/
def characterResult (dataBits : DataBits) (b : Byte) (k : Nat) : RttyResult :=
  if k = 0 then .zero
  else if k ≤ dataBits.toNat then (if b.getLsbD (k - 1) then .one else .zero)
  else if k = dataBits.toNat + 1 then .one
  else .fin

/-- `bit_idx` after `k` calls for a character: it counts them, and an `End` takes it back to 0. -/
def characterPosition (dataBits : DataBits) (k : Nat) : Nibble :=
  if k ≤ dataBits.toNat + 2 then BitVec.ofNat 4 k else 0

/-- The state after `k` calls for a character. -/
def characterRun (b : Byte) (s : State) (k : Nat) : State :=
  { s with
    bitIdx := characterPosition s.params.dataBits k
    result := match k with
      | 0 => s.result
      | k + 1 => some (.rtty (characterResult s.params.dataBits b k)) }

theorem toNat_dataBits_le (d : DataBits) : d.toNat ≤ 8 := by cases d <;> decide

/-- While a character is sent, `bit_idx` is the number of calls made for it. -/
theorem toNat_characterPosition {d : DataBits} {k : Nat} (h : k ≤ d.toNat + 2) : (characterPosition d k).toNat = k := by
  have hd := toNat_dataBits_le d
  rw [characterPosition, if_pos h, BitVec.toNat_ofNat]
  omega

/-- While a character is sent, `bit_idx` counts. -/
theorem characterPosition_succ {d : DataBits} {k : Nat} (h : k + 1 ≤ d.toNat + 2) :
    characterPosition d (k + 1) = characterPosition d k + 1 := by
  rw [characterPosition, characterPosition, if_pos h, if_pos (by omega), BitVec.ofNat_add]
  rfl

/-- The call numbered `k` for a character answers as the framer should, and counts. -/
theorem rttyNextOp_of_bitIdx {s : State} (b : Byte) {k : Nat} (hp : s.prestartCnt = 0)
    (hk : k ≤ s.params.dataBits.toNat + 2) (hi : s.bitIdx = characterPosition s.params.dataBits k) :
    rttyNextOp b s = (characterResult s.params.dataBits b k,
      { s with bitIdx := characterPosition s.params.dataBits (k + 1) }) := by
  have hpos : s.bitIdx.toNat = k := hi ▸ toNat_characterPosition hk
  have hne (h : 1 ≤ k) : s.bitIdx ≠ 0 := bitIdx_ne_zero (n := 0) (by omega)
  unfold characterResult
  split_ifs with h0 hdata hbit hstop
  · rw [rttyNextOp_startBit b hp (BitVec.eq_of_toNat_eq (hpos.trans h0)), h0]
    rfl
  · rw [rttyNextOp_dataBit b hp (hne (by omega)) (by omega), hpos, if_pos hbit, characterPosition_succ (by omega), hi]
  · rw [rttyNextOp_dataBit b hp (hne (by omega)) (by omega), hpos, if_neg hbit, characterPosition_succ (by omega), hi]
  · rw [rttyNextOp_stopBit b hp (by omega), characterPosition_succ (by omega), hi]
  · rw [rttyNextOp_end b hp (by omega), characterPosition, if_neg (by omega)]

/-- The calls for a character, from a character boundary (41_rtty_framer.md R122 to R125). -/
theorem execTimes_rttyNext (b : Byte) {s : State} (hp : s.prestartCnt = 0) (hi : s.bitIdx = 0) {n : Nat}
    (hn : n ≤ s.params.dataBits.toNat + 3) : execTimes (.rttyNext b) n s = .next (characterRun b s n) := by
  have hstart : characterRun b s 0 = s := by
    rw [characterRun, show characterPosition s.params.dataBits 0 = s.bitIdx from hi.symm]
  have hstep (k : Nat) (hk : k < n) : exec (.rttyNext b) (characterRun b s k) = .next (characterRun b s (k + 1)) := by
    rw [exec_rttyNext, rttyNextOp_of_bitIdx (s := characterRun b s k) (k := k) b hp
      (show k ≤ s.params.dataBits.toNat + 2 by omega) rfl]
    rfl
  have hrun := execTimes_of_run hstep
  rwa [hstart] at hrun

/-- Settles O19: `execTimes_rttyNext`, whose last call takes `bit_idx` back to 0. -/
theorem rttyCharacterIsFramed : Obligations.RttyCharacterIsFramed := by
  refine fun b s hp hi => ⟨fun k hk => ⟨_, execTimes_rttyNext b hp hi hk, rfl⟩, ?_⟩
  rw [execTimes_rttyNext b hp hi le_rfl]
  simp [characterRun, characterPosition, characterResult]

/-! ## One call of a mapper -/

/-- `FSK4.NEXT` run alone always goes on; its answer goes to `result` (log 5). -/
theorem exec_fsk4Next (b : Byte) (s : State) : exec (.fsk4Next b) s
    = .next (setResult (.fsk (mapperNext 4 fsk4Field b s).1) (mapperNext 4 fsk4Field b s).2) := rfl

/-- So does `FSK2.NEXT`. -/
theorem exec_fsk2Next (b : Byte) (s : State) : exec (.fsk2Next b) s
    = .next (setResult (.fsk (mapperNext 8 fsk2Field b s).1) (mapperNext 8 fsk2Field b s).2) := rfl

/-- The field of the 4-level mapper, written out (42_fsk_mappers.md R137). -/
theorem fsk4Field_eq (msbFirst : Bool) (b : Byte) (i : Nat) :
    fsk4Field msbFirst b i = if msbFirst then b.extractLsb' (6 - 2 * i) 2 else b.extractLsb' (2 * i) 2 := rfl

/-- One bit as a 2-bit symbol. -/
theorem zeroExtend_extractLsb'_one (b : Byte) (i : Nat) :
    (b.extractLsb' i 1).zeroExtend 2 = if b.getLsbD i then 1 else 0 := by
  refine BitVec.eq_of_getLsbD_eq fun j hj => ?_
  cases h : b.getLsbD i <;> interval_cases j <;> simp [h]

/-- The field of the 2-level mapper, written out (42_fsk_mappers.md R141). -/
theorem fsk2Field_eq (msbFirst : Bool) (b : Byte) (i : Nat) :
    fsk2Field msbFirst b i = if b.getLsbD (if msbFirst then 7 - i else i) then 1 else 0 := by
  unfold fsk2Field
  split <;> exact zeroExtend_extractLsb'_one b _

/-- Settles O21: the two laws of `mapperNext` for each mapper, and its field written out. -/
theorem fskNextSymbolOrSentinel : Obligations.FskNextSymbolOrSentinel := by
  refine fun b s => ⟨fun hi => ?_, fun hi => ?_, fun hi => ?_, fun hi => ?_⟩
  · rw [exec_fsk4Next, mapperNext_noSym fsk4Field b hi, setResult]
  · rw [exec_fsk4Next, mapperNext_symbol fsk4Field b hi, setResult, fsk4Field_eq]
  · rw [exec_fsk2Next, mapperNext_noSym fsk2Field b hi, setResult]
  · rw [exec_fsk2Next, mapperNext_symbol fsk2Field b hi, setResult, fsk2Field_eq]

/-! ## A byte -/

/-- The answer to the call numbered `k` for a byte of `count` symbols (42_fsk_mappers.md R136, R140). -/
def byteResult (count : Nat) (symbolAt : Nat → BitVec 2) (k : Nat) : FskResult :=
  if k < count then .symbol (symbolAt k) else .noSym

/-- `sym_idx` after `k` calls for a byte: it counts them, and a `NoSym` takes it back to 0. -/
def bytePosition (count k : Nat) : Nibble := if k ≤ count then BitVec.ofNat 4 k else 0

/-- The state after `k` calls for a byte of `count` symbols. -/
def byteRun (count : Nat) (field : Bool → Byte → Nat → BitVec 2) (b : Byte) (s : State) (k : Nat) : State :=
  { s with
    symIdx := bytePosition count k
    result := match k with
      | 0 => s.result
      | k + 1 => some (.fsk (byteResult count (field s.params.fskMsbFirst b) k)) }

/-- The call numbered `k` for a byte answers as the mapper should, and counts. -/
theorem mapperNext_of_symIdx {count : Nat} (field : Bool → Byte → Nat → BitVec 2) (b : Byte) {s : State} {k : Nat}
    (hcount : count ≤ 8) (hk : k ≤ count) (hi : s.symIdx = bytePosition count k) : mapperNext count field b s
      = (byteResult count (field s.params.fskMsbFirst b) k, { s with symIdx := bytePosition count (k + 1) }) := by
  have hpos : s.symIdx.toNat = k := by
    rw [hi, bytePosition, if_pos hk, BitVec.toNat_ofNat]
    omega
  by_cases hlt : k < count
  · rw [mapperNext_symbol field b (by omega), byteResult, if_pos hlt, hpos, hi, bytePosition, bytePosition, if_pos hk,
      if_pos (show k + 1 ≤ count from hlt), BitVec.ofNat_add]
    rfl
  · rw [mapperNext_noSym field b (by omega), byteResult, if_neg hlt, bytePosition, if_neg (by omega)]

/-- The calls for a byte, from its first symbol (42_fsk_mappers.md R135, R139). -/
theorem execTimes_mapper {i : Instr} {count : Nat} {field : Bool → Byte → Nat → BitVec 2} {b : Byte} {s : State}
    (hexec : ∀ u, exec i u = .next (setResult (.fsk (mapperNext count field b u).1) (mapperNext count field b u).2))
    (hcount : count ≤ 8) (hi : s.symIdx = 0) {n : Nat} (hn : n ≤ count + 1) :
    execTimes i n s = .next (byteRun count field b s n) := by
  have hstart : byteRun count field b s 0 = s := by
    rw [byteRun, show bytePosition count 0 = s.symIdx from hi.symm]
  have hstep (k : Nat) (hk : k < n) : exec i (byteRun count field b s k) = .next (byteRun count field b s (k + 1)) := by
    rw [hexec, mapperNext_of_symIdx (s := byteRun count field b s k) (k := k) field b hcount (by omega) rfl]
    rfl
  have hrun := execTimes_of_run hstep
  rwa [hstart] at hrun

/-- A `NoSym` takes `sym_idx` back to 0, so the next call returns a symbol (42_fsk_mappers.md R136, R140). -/
theorem mapperNext_after_noSym {count : Nat} (field : Bool → Byte → Nat → BitVec 2) {b : Byte} (b' : Byte) {s : State}
    (r : MicroResult) (hcount : 0 < count) (h : (mapperNext count field b s).1 = .noSym) :
    (mapperNext count field b' (setResult r (mapperNext count field b s).2)).1 ≠ .noSym := by
  rcases mapperNext_cases count field b s with ⟨-, he⟩ | ⟨-, he⟩ <;> rw [he] at h ⊢
  · rw [mapperNext_symbol field b' (show (0 : Nibble).toNat < count from hcount)]
    exact nofun
  · cases h

/-- Settles O22: the calls for a byte by `execTimes_mapper`, two calls in a row by `mapperNext_after_noSym`. -/
theorem fskByteIsMappedThenSentinel : Obligations.FskByteIsMappedThenSentinel := by
  refine ⟨fun b s hi => ⟨fun k hk => ?_, ?_, fun k hk => ?_, ?_⟩, ?_⟩
  · exact ⟨_, execTimes_mapper (exec_fsk4Next b) (by decide) hi (by omega), by simp [byteRun, byteResult, hk]⟩
  · exact execTimes_mapper (exec_fsk4Next b) (by decide) hi le_rfl
  · exact ⟨_, execTimes_mapper (exec_fsk2Next b) (by decide) hi (by omega), by simp [byteRun, byteResult, hk]⟩
  · exact execTimes_mapper (exec_fsk2Next b) (by decide) hi le_rfl
  · rintro i b b' s t u (⟨rfl, ht, hu⟩ | ⟨rfl, ht, hu⟩) hsym hsym'
    · obtain rfl := Host.Outcome.next.inj ((exec_fsk4Next b s).symm.trans ht)
      obtain rfl := Host.Outcome.next.inj ((exec_fsk4Next b' _).symm.trans hu)
      exact mapperNext_after_noSym (count := 4) fsk4Field b' _ (by decide) (by simpa using hsym) (by simpa using hsym')
    · obtain rfl := Host.Outcome.next.inj ((exec_fsk2Next b s).symm.trans ht)
      obtain rfl := Host.Outcome.next.inj ((exec_fsk2Next b' _).symm.trans hu)
      exact mapperNext_after_noSym (count := 8) fsk2Field b' _ (by decide) (by simpa using hsym) (by simpa using hsym')

/-! ## Codes and phases -/

/-- The generator is at its end exactly once the stop bit is sent (10_state.md R41). -/
theorem rttyPhase_eq_ending {s : State} :
    rttyPhase s = .ending ↔ s.prestartCnt = 0 ∧ s.params.dataBits.toNat + 2 ≤ s.bitIdx.toNat := by
  unfold rttyPhase
  split_ifs with hstart hdata
  · refine iff_of_false nofun fun ⟨hp, hd⟩ => ?_
    exact hstart.elim (fun hne => hne hp) (bitIdx_ne_zero hd)
  · exact iff_of_false nofun fun ⟨_, hd⟩ => by omega
  · exact iff_of_true rfl ⟨by_contra fun hp => hstart (.inl hp), by omega⟩

/-- The 2-level mapper sends 0 and 1 only (42_fsk_mappers.md R141). -/
theorem fsk2Next_result (b : Byte) (s : State) : (mapperNext 8 fsk2Field b s).1 = .noSym
    ∨ (mapperNext 8 fsk2Field b s).1 = .symbol 0 ∨ (mapperNext 8 fsk2Field b s).1 = .symbol 1 := by
  rcases mapperNext_cases 8 fsk2Field b s with ⟨-, h⟩ | ⟨-, h⟩ <;> rw [h]
  · exact .inl rfl
  · rw [fsk2Field_eq]
    cases b.getLsbD (if s.params.fskMsbFirst then 7 - s.symIdx.toNat else s.symIdx.toNat)
    · exact .inr (.inl rfl)
    · exact .inr (.inr rfl)

/-- A result code is the symbol, or 4 for `NoSym` (30_encoding.md R87). -/
theorem toNat_code_le (r : FskResult) : r.code.toNat ≤ 4 := by
  cases r with
  | noSym => decide
  | symbol sym => revert sym; decide

/-- Settles O23: outputs and codes by definition, the mapper's answers by `fsk2Next_result`, `End` by
`rttyNextOp_eq_fin` and `rttyPhase_eq_ending`. -/
theorem outputsAndResultCodes : Obligations.OutputsAndResultCodes := by
  refine ⟨fun s => ⟨rfl, rfl, rfl, rfl, rfl, rfl, rfl, rfl, rfl, rfl, rfl, rfl⟩,
    ⟨rfl, rfl, rfl, fun r => by cases r <;> decide⟩, ⟨fun _ => rfl, rfl, toNat_code_le⟩, fun b s t ht => ?_,
    fun s => ⟨fun h => if_pos h, fun hp hlo hhi => ?_, fun hp hd => rttyPhase_eq_ending.2 ⟨hp, hd.ge⟩⟩,
    fun b s t ht => ?_⟩
  · obtain rfl := Host.Outcome.next.inj ((exec_fsk2Next b s).symm.trans ht)
    simpa using fsk2Next_result b s
  · have hstart : ¬(s.prestartCnt ≠ 0 ∨ s.bitIdx = 0) := not_or.2 ⟨not_not.2 hp, bitIdx_ne_zero (n := 0) hlo⟩
    rw [rttyPhase, if_neg hstart, if_pos hhi]
  · obtain rfl := Host.Outcome.next.inj ((exec_rttyNext b s).symm.trans ht)
    rw [rttyPhase_eq_ending, ← rttyNextOp_eq_fin (b := b)]
    simp

end Sys2Proof.Machine
end

