-- ==== Sys2Proof/Proofs/TickEnd.lean ====
section
/-! PROOF. How a byte and a packet end in a tick (44_tick_engine.md R183, R184, R186, R188, R189), and which ticks fault
(20_memory.md R65). -/

namespace Sys2Proof.Machine

open Sys2Proof.Safety

/-! ## The end of a packet -/

/-- `END_PACKET` and the `DELAY.STEP` of the same tick (44_tick_engine.md R196, R198). -/
theorem delayStepOp_endPacketOp (s : State) : delayStepOp (endPacketOp s)
    = { s with txOn := false, delayCnt := delayAfterEnd s, txEnable := enableAfterEnd s } := by
  cases he : s.txEnable with
  | true =>
    rw [delayStepOp_idle (s := endPacketOp s) (.inr he)]
    simp [endPacketOp, he]
  | false =>
    by_cases hd : s.params.txDelayTicks ≤ 1
    · rw [delayStepOp_runsOut (s := endPacketOp s) rfl he hd]
      simp only [endPacketOp, delayAfterEnd, enableAfterEnd, he, Bool.false_eq_true, if_false, if_pos hd, Bool.false_or,
        decide_eq_true hd]
    · rw [delayStepOp_counts (s := endPacketOp s) rfl he hd]
      simp only [endPacketOp, delayAfterEnd, enableAfterEnd, he, Bool.false_eq_true, if_false, if_neg hd, Bool.false_or,
        decide_eq_false hd]

/-- A tick whose modulation step ends the packet counts the first delay step (44_tick_engine.md R194). -/
theorem tickWith_endPacket {modulation : State → Res} {s u : State}
    (h : modulation (clearDevWe s) = .next (endPacketOp u)) : tickWith modulation s = .next { u with
      txOn := false, delayCnt := delayAfterEnd u, txEnable := enableAfterEnd u } := by
  rw [tickWith, h, andThen_next, delayStepOp_endPacketOp]

/-- Settles O32: the modulation step of a packet with nothing to send is `END_PACKET`. -/
theorem zeroLengthPacketEndsAtOnce : Obligations.ZeroLengthPacketEndsAtOnce := by
  refine fun q e s _ => ⟨fun hi hb => ?_, fun hc => ⟨?_, ?_⟩⟩
  · rw [exec_tickRtty, tickWith_endPacket (rttyModulation_zeroLength (s := clearDevWe s) hb hi)]
    rfl
  · rw [exec_tickFsk4, tickWith_endPacket (fskModulation_zeroLength _ (s := clearDevWe s) hc)]
    rfl
  · rw [exec_tickFsk2, tickWith_endPacket (fskModulation_zeroLength _ (s := clearDevWe s) hc)]
    rfl

/-! ## The end of an RTTY character -/

/-- At a `NUL` after the character the packet ends (44_tick_engine.md R184). -/
theorem rttyCharacterEnd_nul {offset : Nat} {s : State} (h : bufRead s offset = some 0) :
    rttyCharacterEnd offset s = .next (endPacketOp (advanceCursor s)) := by
  simp [rttyCharacterEnd, h]

/-- At another byte the tick sends nothing, without `RTTY_END_REQUERY` (44_tick_engine.md R186). -/
theorem rttyCharacterEnd_silent {offset : Nat} {s : State} {c : Byte} (h : bufRead s offset = some c) (hc : c ≠ 0)
    (hq : s.params.rttyEndRequery = false) : rttyCharacterEnd offset s = .next (advanceCursor s) := by
  unfold rttyCharacterEnd
  rw [h]
  simp only [if_neg hc, hq, Bool.false_eq_true, if_false]

/-- With `RTTY_END_REQUERY` the same tick sends the start bit of that byte (44_tick_engine.md R186). -/
theorem rttyCharacterEnd_requery {offset : Nat} {s : State} {c : Byte} (h : bufRead s offset = some c) (hc : c ≠ 0)
    (hq : s.params.rttyEndRequery = true) (hp : s.prestartCnt = 0) (hi : s.bitIdx = 0) :
    rttyCharacterEnd offset s = .next (spaceSymbol { advanceCursor s with bitIdx := 1 }) := by
  unfold rttyCharacterEnd
  rw [h]
  simp only [if_neg hc, if_pos hq, rttyNextOp_startBit (s := advanceCursor s) c hp hi]

/-- Once the stop bit is sent, the modulation step is what follows an `End` (44_tick_engine.md R182). -/
theorem rttyModulation_end {s : State} {b : Byte} (hb : byteAtCursor s = some b) (hp : s.prestartCnt = 0)
    (hd : s.params.dataBits.toNat + 2 ≤ s.bitIdx.toNat) :
    rttyModulation s = rttyCharacterEnd (s.cursor.toNat + 1) { s with bitIdx := 0 } := by
  rw [rttyModulation_query hb fun ⟨hi, _⟩ => bitIdx_ne_zero hd hi, rttyNextOp_end b hp hd, rttyOnResult]

/-- Settles O31: `rttyModulation_end` and the three laws of `rttyCharacterEnd`. -/
theorem tickRttyEndsTheCharacter : Obligations.TickRttyEndsTheCharacter := by
  intro q e s b c ho hb hc hp hd
  have hend := rttyModulation_end (s := clearDevWe s) hb hp hd
  refine ⟨?nul, fun hne hq => ?silent, fun hne hq => ?requery⟩
  case nul =>
    rintro rfl
    rw [exec_tickRtty, tickWith_endPacket (hend.trans (rttyCharacterEnd_nul hc))]
    rfl
  case silent =>
    rw [exec_tickRtty, tickWith_onAir (hend.trans (rttyCharacterEnd_silent hc hne hq)) ho]
    rfl
  case requery =>
    rw [exec_tickRtty, tickWith_onAir (hend.trans (rttyCharacterEnd_requery hc hne hq hp rfl)) ho]
    rfl

/-! ## The end of an FSK byte -/

section
variable {count : Nat} (field : Bool → Byte → Nat → BitVec 2) {s : State} {b : Byte} (hc : s.cursor ≠ s.pktLen)
  (hb : byteAtCursor s = some b) (hi : count ≤ s.symIdx.toNat)
include hc hb hi

/-- Once the symbols of a byte are sent, the modulation step is what follows a `NoSym` (44_tick_engine.md R189). -/
theorem fskModulation_byteEnd : fskModulation (mapperNext count field) s
    = fskByteEnd (mapperNext count field) (s.cursor.toNat + 1) { s with symIdx := 0 } := by
  rw [fskModulation_query _ hc hb, mapperNext_noSym field b hi, fskOnResult]

/-- After the last byte the tick ends the packet, without a write (44_tick_engine.md R189). -/
theorem tickWith_fskModulation_last (hl : s.cursor.toNat + 1 = s.pktLen.toNat) :
    tickWith (fskModulation (mapperNext count field)) s = .next { s with
      symIdx := 0, cursor := s.cursor + 1, txOn := false, delayCnt := delayAfterEnd s, txEnable := enableAfterEnd s
      devWe := false } := by
  have hend := fskModulation_byteEnd field (s := clearDevWe s) hc hb hi
  rw [tickWith_endPacket (hend.trans (if_pos hl))]
  rfl

/-- Elsewhere the tick sends the first symbol of the next byte (44_tick_engine.md R189). -/
theorem tickWith_fskModulation_nextByte {c : Byte} (ho : s.txOn = true) (hcount : 0 < count)
    (hl : s.cursor.toNat + 1 ≠ s.pktLen.toNat) (hnext : bufRead s (s.cursor.toNat + 1) = some c) :
    tickWith (fskModulation (mapperNext count field)) s = .next { s with
      symIdx := 1, cursor := s.cursor + 1
      devReg := unlessDisarmed s s.devReg ((field s.params.fskMsbFirst c 0).zeroExtend 8)
      devWe := !s.ports.disableArmed } := by
  refine tickWith_onAir ?_ ho
  rw [fskModulation_byteEnd field (s := clearDevWe s) hc hb hi]
  refine (if_neg hl).trans ?_
  rw [show bufRead { clearDevWe s with symIdx := 0 } ((clearDevWe s).cursor.toNat + 1) = some c from hnext]
  dsimp only
  rw [mapperNext_symbol field (s := advanceCursor { clearDevWe s with symIdx := 0 }) c hcount, symbolDev_symbol]
  rfl

end

/-- Settles O34: both mappers by `tickWith_fskModulation_last` and `tickWith_fskModulation_nextByte`. -/
theorem tickFskEndsTheByte : Obligations.TickFskEndsTheByte := by
  refine fun q e s b ho hc hb => ⟨fun hl hi => ?_, fun hl hi => ?_, fun c hl hnext => ⟨fun hi => ?_, fun hi => ?_⟩⟩
  · rw [exec_tickFsk4, tickWith_fskModulation_last fsk4Field hc hb hi hl]
  · rw [exec_tickFsk2, tickWith_fskModulation_last fsk2Field hc hb hi hl]
  · rw [exec_tickFsk4, tickWith_fskModulation_nextByte fsk4Field hc hb hi ho (by decide) hl hnext]
  · rw [exec_tickFsk2, tickWith_fskModulation_nextByte fsk2Field hc hb hi ho (by decide) hl hnext]

/-! ## Faults -/

/-- What follows an `End` faults exactly if the next offset is off the buffer (20_memory.md R65). -/
theorem rttyCharacterEnd_eq_fault {offset : Nat} {s : State} {r : Fault} :
    rttyCharacterEnd offset s = .fault r ↔ 128 ≤ offset := by
  cases r
  rw [← bufRead_eq_none (s := s)]
  unfold rttyCharacterEnd
  cases bufRead s offset with
  | none => simp
  | some c => simp only [reduceCtorEq, iff_false]; split_ifs <;> exact nofun

/-- Unless the generator answers `End`, the modulation step of `TICK.RTTY` goes on. -/
theorem rttyModulation_of_not_end {s : State} {b : Byte} (hb : byteAtCursor s = some b)
    (hend : ¬(s.prestartCnt = 0 ∧ s.params.dataBits.toNat + 2 ≤ s.bitIdx.toNat)) : ∃ t, rttyModulation s = .next t := by
  by_cases hz : s.bitIdx = 0 ∧ b = 0
  · obtain ⟨hi, rfl⟩ := hz
    exact ⟨_, rttyModulation_zeroLength hb hi⟩
  · rw [rttyModulation_query hb hz]
    cases hr : (rttyNextOp b s).1 with
    | zero | one => exact ⟨_, rfl⟩
    | fin => exact absurd (rttyNextOp_eq_fin.1 hr) hend

/-- The modulation step of `TICK.RTTY` faults exactly where it would read off the buffer: the byte at the cursor, or after
an `End` the byte after it (20_memory.md R65, log 8). -/
theorem rttyModulation_eq_fault {s : State} {r : Fault} : rttyModulation s = .fault r ↔
    128 ≤ s.cursor.toNat
      ∨ (s.cursor.toNat = 127 ∧ s.prestartCnt = 0 ∧ s.params.dataBits.toNat + 2 ≤ s.bitIdx.toNat) := by
  cases hb : byteAtCursor s with
  | none =>
    have hoff : 128 ≤ s.cursor.toNat := bufRead_eq_none.1 hb
    cases r
    simp [rttyModulation, hb, hoff]
  | some b =>
    obtain ⟨hon, -⟩ := bufRead_eq_some.1 hb
    by_cases hend : s.prestartCnt = 0 ∧ s.params.dataBits.toNat + 2 ≤ s.bitIdx.toNat
    · obtain ⟨hp, hd⟩ := hend
      rw [rttyModulation_end hb hp hd, rttyCharacterEnd_eq_fault]
      simp only [hp, hd, and_true]
      omega
    · obtain ⟨t, ht⟩ := rttyModulation_of_not_end hb hend
      rw [ht]
      exact iff_of_false nofun fun h => h.elim (by omega) fun ⟨_, h⟩ => hend h

/-- What follows a `NoSym` faults exactly if it is not the end of the packet and the next offset is off the buffer
(20_memory.md R65). -/
theorem fskByteEnd_eq_fault {gen : Byte → State → FskResult × State} {offset : Nat} {s : State} {r : Fault} :
    fskByteEnd gen offset s = .fault r ↔ offset ≠ s.pktLen.toNat ∧ 128 ≤ offset := by
  cases r
  rw [← bufRead_eq_none (s := s)]
  unfold fskByteEnd
  split
  · next hl => exact iff_of_false nofun fun ⟨hne, _⟩ => hne hl
  · next hl => cases bufRead s offset <;> simp [hl]

/-- The modulation step of an FSK tick faults exactly where it would read off the buffer (20_memory.md R65, log 8). -/
theorem fskModulation_eq_fault {count : Nat} {field : Bool → Byte → Nat → BitVec 2} {s : State} {r : Fault} :
    fskModulation (mapperNext count field) s = .fault r ↔ s.cursor ≠ s.pktLen ∧
      (128 ≤ s.cursor.toNat ∨ (s.cursor.toNat = 127 ∧ count ≤ s.symIdx.toNat ∧ s.pktLen.toNat ≠ 128)) := by
  by_cases hc : s.cursor = s.pktLen
  · rw [fskModulation_zeroLength _ hc]
    exact iff_of_false nofun fun ⟨hne, _⟩ => hne hc
  cases hb : byteAtCursor s with
  | none =>
    have hoff : 128 ≤ s.cursor.toNat := bufRead_eq_none.1 hb
    cases r
    simp [fskModulation, hb, hoff, hc]
  | some b =>
    obtain ⟨hon, -⟩ := bufRead_eq_some.1 hb
    by_cases hi : count ≤ s.symIdx.toNat
    · rw [fskModulation_byteEnd field hc hb hi, fskByteEnd_eq_fault]
      simp only [ne_eq, hc, not_false_eq_true, true_and]
      omega
    · rw [fskModulation_query _ hc hb, mapperNext_symbol field b (by omega)]
      exact iff_of_false nofun fun ⟨_, h⟩ => by omega

/-! ## Refusals -/

/-- What follows an `End` refuses nothing. -/
theorem rttyCharacterEnd_ne_refused (offset : Nat) (s : State) (r : Refusal) :
    rttyCharacterEnd offset s ≠ .refused r := by
  unfold rttyCharacterEnd
  split
  · exact nofun
  · split_ifs <;> exact nofun

/-- The modulation step of `TICK.RTTY` refuses nothing. -/
theorem rttyModulation_ne_refused (s : State) (r : Refusal) : rttyModulation s ≠ .refused r := by
  cases hb : byteAtCursor s with
  | none => simp [rttyModulation, hb]
  | some b =>
    by_cases hz : s.bitIdx = 0 ∧ b = 0
    · obtain ⟨hi, rfl⟩ := hz
      simp [rttyModulation_zeroLength hb hi]
    · rw [rttyModulation_query hb hz]
      cases (rttyNextOp b s).1 with
      | zero | one => exact nofun
      | fin => exact rttyCharacterEnd_ne_refused _ _ r

/-- What follows a `NoSym` refuses nothing. -/
theorem fskByteEnd_ne_refused (gen : Byte → State → FskResult × State) (offset : Nat) (s : State) (r : Refusal) :
    fskByteEnd gen offset s ≠ .refused r := by
  unfold fskByteEnd
  split
  · exact nofun
  · split <;> exact nofun

/-- The modulation step of an FSK tick refuses nothing. -/
theorem fskModulation_ne_refused (gen : Byte → State → FskResult × State) (s : State) (r : Refusal) :
    fskModulation gen s ≠ .refused r := by
  by_cases hc : s.cursor = s.pktLen
  · simp [fskModulation_zeroLength gen hc]
  cases hb : byteAtCursor s with
  | none => simp [fskModulation, hc, hb]
  | some b =>
    rw [fskModulation_query gen hc hb]
    cases (gen b s).1 with
    | symbol sym => exact nofun
    | noSym => exact fskByteEnd_ne_refused gen _ _ r

/-- A tick refuses exactly what its modulation step refuses (44_tick_engine.md R194). -/
theorem tickWith_refused {modulation : State → Res} {s : State} {r : Refusal} :
    tickWith modulation s = .refused r ↔ modulation (clearDevWe s) = .refused r := by
  unfold tickWith
  cases modulation (clearDevWe s) <;> simp

/-- No tick operation but `TICK.RSVD` is refused (44_tick_engine.md R199). -/
theorem eq_tickRsvd_of_refused {i : Instr} {s : State} {r : Refusal} (hi : i.format = .t) (h : exec i s = .refused r) :
    ∃ q e, i = .tickRsvd q e := by
  cases i with
  | tickNone | tickIdle => cases h
  | tickRsvd q e => exact ⟨q, e, rfl⟩
  | tickRtty => exact absurd (tickWith_refused.1 h) (rttyModulation_ne_refused _ r)
  | tickFsk4 | tickFsk2 => exact absurd (tickWith_refused.1 h) (fskModulation_ne_refused _ _ r)
  | reset | seqNone | seqStartup | seqFsk | seqWrap | seqWaitTransmitting | seqWaitDelay | crcInit | crcByte | crcStr
  | rttyNext | fsk4Next | fsk2Next | snapCapture | fmtRtty | fmtFsk | arm | endPacket | devWrite | delayStep => cases hi

/-- Settles O35: a tick faults as its modulation step does. -/
theorem tickFaultsExactlyOffTheBuffer : Obligations.TickFaultsExactlyOffTheBuffer := fun _ _ s =>
  ⟨tickWith_fault.trans rttyModulation_eq_fault, tickWith_fault.trans (fskModulation_eq_fault (s := clearDevWe s)),
    tickWith_fault.trans (fskModulation_eq_fault (s := clearDevWe s)), fun _ _ => eq_tickRsvd_of_refused⟩

end Sys2Proof.Machine
end

