-- ==== Sys2Proof/Proofs/Edge.lean ====
section
/-! PROOF. What an edge without reset performs, read off the state before it: at most one of its two operations changes
anything but `dev_we`, since the sequencer moves only where the guard holds, and the tick then has nothing to do
(30_encoding.md R81, R83, 60_exceptions.md R238). -/

namespace Sys2Proof.Machine

/-! ## The selected operations -/

/-- The modulation step that a tick makes while a packet is on air, by the mode (30_encoding.md R83). -/
def modulation : ModeState → State → Res
  | .startup => fun _ => .refused .tickRsvd
  | .rtty => rttyModulation
  | .fsk4 => fskModulation (mapperNext 4 fsk4Field)
  | .fsk2 => fskModulation (mapperNext 8 fsk2Field)

/-- What the tick operation that `s` selects does to `u` (30_encoding.md R83). -/
def selectedTick (s u : State) : Res :=
  if s.ports.tick then tickWith (if s.txOn then modulation s.mode else .next) u else .next (clearDevWe u)

/-- The steps along the mode cycle (45_sequencer.md R215). -/
def cycleStep : ModeState → State → Res
  | .startup => execSeqStartup
  | .rtty => execSeqFsk
  | .fsk4 | .fsk2 => execSeqWrap

/-- The sequencer moves: the guard holds and `seq_en` is 1 (45_sequencer.md R215). -/
def sequencerMoves (s : State) : Bool := s.ports.seqEn && guard s

/-- What the sequencer operation that `s` selects does to `u` (30_encoding.md R83). -/
def selectedSeq (s u : State) : Res := if sequencerMoves s then cycleStep s.mode u else .next u

theorem sequencerMoves_eq_true {s : State} :
    sequencerMoves s = true ↔ s.ports.seqEn = true ∧ guard s = true := Bool.and_eq_true_iff

/-- `selectedTick` is what the tick decoder selects. -/
theorem exec_of_decodeTickCw {s : State} {i : Instr} (h : decodeTickCw (controlWord s) = .ok i) (u : State) :
    exec i u = selectedTick s u := by
  unfold selectedTick
  cases hr : s.ports.rst <;> cases ht : s.ports.tick <;> cases ho : s.txOn <;> cases hm : s.mode <;>
    simp [decodeTickCw, controlWord, hr, ht, ho, hm] at h <;> subst h <;> rfl

/-- `selectedSeq` is what the sequencer decoder selects. -/
theorem exec_of_decodeSeqCw {s : State} {i : Instr} (h : decodeSeqCw (controlWord s) = .ok i) (u : State) :
    exec i u = selectedSeq s u := by
  unfold selectedSeq sequencerMoves guard
  cases hr : s.ports.rst <;> cases hq : s.ports.seqEn <;> cases ho : s.txOn <;> cases he : s.txEnable <;>
    cases hm : s.mode <;> simp [decodeSeqCw, controlWord, hr, hq, ho, he, hm] at h <;> subst h <;> rfl

/-! ## The edge -/

/-- The operations of an edge without reset (60_exceptions.md R238). -/
theorem runOps_decodeEdge {s : State} (hr : s.ports.rst = false) :
    runOps (decodeEdge (controlWord s)) s = andThen (selectedTick s s) (selectedSeq s) := by
  have hrst : cwRst (controlWord s) = false := by rw [controlWord, cwRst_packCw, hr]
  obtain ⟨i, hi⟩ := decodeTickCw_isOk hrst
  obtain ⟨q, hq⟩ := decodeSeqCw_isOk hrst
  rw [decodeEdge_of_rst_clear hrst hi hq, runOps, exec_of_decodeTickCw hi]
  congr 1
  funext u
  rw [runOps_singleton, exec_of_decodeSeqCw hq]

/-- Where the guard holds the selected tick only clears `dev_we`, on any state that is on air or ready to transmit: there
is no modulation step, and no delay to count (44_tick_engine.md R181). -/
theorem selectedTick_of_guard {s u : State} (hg : guard s = true) (hu : u.txOn = true ∨ u.txEnable = true) :
    selectedTick s u = .next (clearDevWe u) := by
  obtain ⟨ho, -⟩ := guard_eq_true.1 hg
  unfold selectedTick
  rw [ho]
  split
  · exact congrArg Host.Outcome.next (delayStepOp_idle (s := clearDevWe u) hu)
  · rfl

/-- An edge at which the sequencer moves is its step along the cycle, with `dev_we` cleared. -/
theorem runOps_decodeEdge_of_moves {s : State} (hr : s.ports.rst = false) (hm : sequencerMoves s = true) :
    runOps (decodeEdge (controlWord s)) s = cycleStep s.mode (clearDevWe s) := by
  obtain ⟨-, hg⟩ := sequencerMoves_eq_true.1 hm
  rw [runOps_decodeEdge hr, selectedTick_of_guard hg (.inr (guard_eq_true.1 hg).2), andThen_next, selectedSeq, if_pos hm]

/-- Any other edge without reset is its tick. -/
theorem runOps_decodeEdge_of_not_moves {s : State} (hr : s.ports.rst = false) (hm : ¬sequencerMoves s = true) :
    runOps (decodeEdge (controlWord s)) s = selectedTick s s := by
  rw [runOps_decodeEdge hr]
  cases selectedTick s s with
  | next u => rw [andThen_next, selectedSeq, if_neg hm]
  | fault r => rfl
  | refused r => rfl

/-- Everything an edge without reset can do when it goes on: a step along the cycle where the sequencer moves, else a
tick; then the environment drives the ports. -/
theorem step_edge_cases {s t : State} (hp : s.probe = none) (hr : s.ports.rst = false) (h : step s = .next t) :
    ∃ u, t = advanceInputs u
      ∧ ((sequencerMoves s = true ∧ cycleStep s.mode (clearDevWe s) = .next u)
        ∨ (¬sequencerMoves s = true ∧ selectedTick s s = .next u)) := by
  obtain ⟨-, ⟨bytes, i, rest, hbytes, -⟩ | ⟨-, u, hrun, ht⟩⟩ := step_eq_next h
  · simp [hp] at hbytes
  · refine ⟨u, ht, ?_⟩
    by_cases hm : sequencerMoves s = true
    · exact .inl ⟨hm, runOps_decodeEdge_of_moves hr hm ▸ hrun⟩
    · exact .inr ⟨hm, runOps_decodeEdge_of_not_moves hr hm ▸ hrun⟩

/-- Everything the selected tick can do when it goes on: nothing but `dev_we` without a tick; else a modulation step if a
packet is on air, and a `DELAY.STEP` (44_tick_engine.md R180, R181, R194). -/
theorem selectedTick_eq_next {s t : State} (h : selectedTick s s = .next t) :
    (s.ports.tick = false ∧ t = clearDevWe s)
    ∨ (s.ports.tick = true ∧ ∃ u, t = delayStepOp u
        ∧ ((s.txOn = false ∧ u = clearDevWe s)
          ∨ (s.txOn = true ∧ modulation s.mode (clearDevWe s) = .next u))) := by
  unfold selectedTick at h
  split at h
  · next ht =>
    obtain ⟨u, hu, rfl⟩ := tickWith_eq_next.1 h
    refine .inr ⟨ht, u, rfl, ?_⟩
    split at hu
    · next ho => exact .inr ⟨ho, hu⟩
    · next ho => exact .inl ⟨by simpa using ho, (Host.Outcome.next.inj hu).symm⟩
  · next ht => exact .inl ⟨by simpa using ht, (Host.Outcome.next.inj h).symm⟩

/-- Every modulation step writes the tick's registers only (10_state.md R20). -/
theorem modulation_tickRegistersOnly {m : ModeState} {s t : State} (h : modulation m s = .next t) :
    TickRegistersOnly s t := by
  cases m with
  | startup => cases h
  | rtty => exact rttyModulation_tickRegistersOnly h
  | fsk4 => exact fskModulation_tickRegistersOnly (mapperNext_tickRegistersOnly 4 fsk4Field) h
  | fsk2 => exact fskModulation_tickRegistersOnly (mapperNext_tickRegistersOnly 8 fsk2Field) h

/-- Everything a step along the cycle can do when it goes on (45_sequencer.md R211 to R213). -/
theorem cycleStep_eq_next {m : ModeState} {s t : State} (h : cycleStep m s = .next t) :
    (m = .startup ∧ ∃ u, fmtRttyOp (setMode .rtty (snapCaptureOp s)) = .next u ∧ t = armOp u)
    ∨ (m = .rtty ∧ ∃ u, fmtFskOp (setMode (fskMode s.params.fskSelect) s) = .next u ∧ t = armOp u)
    ∨ ((m = .fsk4 ∨ m = .fsk2) ∧ t = setMode .startup s) := by
  cases m with
  | startup => exact .inl ⟨rfl, execSeqStartup_eq_next.1 h⟩
  | rtty => exact .inr (.inl ⟨rfl, execSeqFsk_eq_next.1 h⟩)
  | fsk4 => exact .inr (.inr ⟨.inl rfl, (Host.Outcome.next.inj h).symm⟩)
  | fsk2 => exact .inr (.inr ⟨.inr rfl, (Host.Outcome.next.inj h).symm⟩)

/-! ## The edge as the decoders say it -/

/-- An edge of two operations performs what the tick and the sequencer decoder select (30_encoding.md R81). -/
theorem decoders_of_decodeEdge {cw : ControlWord} {t q : Instr} (h : decodeEdge cw = [t, q]) :
    decodeTickCw cw = .ok t ∧ decodeSeqCw cw = .ok q := by
  revert h
  fun_cases decodeEdge cw <;> simp_all


/-- A control-word decoder on a control byte answers for its control word. -/
theorem decodeControl_controlByte_eq_ok {dec : ControlWord → Except Reject Instr} {cw : ControlWord} {i : Instr}
    {rest : List Byte} : decodeControl dec (controlByte cw :: rest) = .ok (i, rest) ↔ dec cw = .ok i := by
  refine ⟨fun h => ?_, fun h => decodeControl_controlByte h rest⟩
  simp only [decodeControl, BitVec.getLsbD_eq_getElem (show 7 < 8 by decide), controlByte_bit7, Bool.false_eq_true,
    if_false, controlWordOf_controlByte] at h
  cases hd : dec cw with
  | ok j => simp_all
  | error e => simp [hd] at h

/-- Settles O8: the edge is the list of operations that the three decoders name, `RESET` alone or the tick operation and
then the sequencer operation. -/
theorem clockEdgeRunsTheDecodedOperations : Obligations.ClockEdgeRunsTheDecodedOperations := by
  refine ⟨fun s hl hp hr i hi => ?_, fun s hl hp hr t q ht hq => ?_, fun s p rest hs => ?_, fun s hs => ?_⟩
  · have hreset : decodeResetCw (controlWord s) = .ok i := decodeControl_controlByte_eq_ok.1 hi
    rw [step_eq_clockEdge hl hp, clockEdge]
    simp [decodeEdge, hreset]
  · have hrst : cwRst (controlWord s) = false := by rw [controlWord, cwRst_packCw, hr]
    rw [step_eq_clockEdge hl hp, clockEdge, decodeEdge_of_rst_clear hrst (decodeControl_controlByte_eq_ok.1 ht)
      (decodeControl_controlByte_eq_ok.1 hq), runOps]
    cases exec t s with
    | next u => simp only [andThen_next, runOps_singleton]
    | fault r => rfl
    | refused r => rfl
  · simp only [advanceInputs, hs, List.tail_cons]
  · simp only [advanceInputs, hs, List.tail_nil]

/-! ## The order of the two operations -/

/-- A change of state that `FMT.RTTY` neither reads nor overwrites can as well be made after it (43_formatter.md R165). -/
theorem fmtRttyOp_comm (f : State → State) {s : State} (hparams : (f s).params = s.params) (hsnap : (f s).snap = s.snap)
    (hmem : (f s).mem = s.mem) (hwrite : ∀ c m, { f s with crcReg := c, mem := m, bufSel := .rttyBuf }
      = f { s with crcReg := c, mem := m, bufSel := .rttyBuf }) :
    fmtRttyOp (f s) = andThen (fmtRttyOp s) (fun t => .next (f t)) := by
  unfold fmtRttyOp
  rw [hparams, hsnap, hmem]
  cases bufWrite s.mem .rttyBuf 0 (sentence s.params.callsign s.snap ++ [0x00]) with
  | some m => simp only [andThen_next, ← hwrite, hparams, hsnap]
  | none => rfl

/-- So it can after `FMT.FSK` (43_formatter.md R170). -/
theorem fmtFskOp_comm (f : State → State) {s : State} (hparams : (f s).params = s.params) (hmem : (f s).mem = s.mem)
    (hwrite : ∀ m n, { f s with mem := m, pktLen := n, bufSel := .fskBuf }
      = f { s with mem := m, pktLen := n, bufSel := .fskBuf }) :
    fmtFskOp (f s) = andThen (fmtFskOp s) (fun t => .next (f t)) := by
  unfold fmtFskOp
  rw [hparams, hmem]
  cases bufWrite s.mem .fskBuf 0 s.params.fskFrame with
  | some m => simp only [andThen_next, ← hwrite, hparams]
  | none => rfl

/-- An operation after which `ARM` is performed: a change that `ARM` neither reads nor overwrites passes it too. -/
theorem andThen_armOp_comm (f : State → State) {o : Res} (hf : ∀ t, armOp (f t) = f (armOp t)) :
    andThen (andThen o fun t => .next (f t)) (fun t => .next (armOp t))
      = andThen (andThen o fun t => .next (armOp t)) (fun t => .next (f t)) := by
  cases o with
  | next t => exact congrArg Host.Outcome.next (hf t)
  | fault r => rfl
  | refused r => rfl

/-- A step along the cycle neither reads nor writes `dev_we`. -/
theorem cycleStep_clearDevWe (m : ModeState) (s : State) :
    cycleStep m (clearDevWe s) = andThen (cycleStep m s) (fun t => .next (clearDevWe t)) := by
  cases m with
  | startup =>
    have hfmt := fmtRttyOp_comm clearDevWe (s := setMode .rtty (snapCaptureOp s)) rfl rfl rfl fun _ _ => rfl
    exact (congrArg (andThen · _) hfmt).trans (andThen_armOp_comm clearDevWe fun _ => rfl)
  | rtty =>
    have hfmt := fmtFskOp_comm clearDevWe (s := setMode (fskMode s.params.fskSelect) s) rfl rfl fun _ _ => rfl
    exact (congrArg (andThen · _) hfmt).trans (andThen_armOp_comm clearDevWe fun _ => rfl)
  | fsk4 | fsk2 => rfl

/-- After a step along the cycle the packet is on air, or it is still ready to transmit (45_sequencer.md R213, R216). -/
theorem cycleStep_flags {m : ModeState} {s t : State} (h : cycleStep m s = .next t) :
    t.txOn = true ∨ t.txEnable = s.txEnable := by
  rcases cycleStep_eq_next h with ⟨-, u, -, rfl⟩ | ⟨-, u, -, rfl⟩ | ⟨-, rfl⟩
  · exact .inl rfl
  · exact .inl rfl
  · exact .inr rfl

/-- Settles O59: where the sequencer does not move it does nothing; where it moves, the tick only clears `dev_we`, before
and after it. -/
theorem tickAndSequencerCommute : Obligations.TickAndSequencerCommute := by
  intro s t q hedge
  obtain ⟨ht, hq⟩ := decoders_of_decodeEdge hedge
  rw [show exec t = selectedTick s from funext (exec_of_decodeTickCw ht),
    show exec q = selectedSeq s from funext (exec_of_decodeSeqCw hq)]
  by_cases hm : sequencerMoves s = true
  · obtain ⟨-, hg⟩ := sequencerMoves_eq_true.1 hm
    have hready : s.txEnable = true := (guard_eq_true.1 hg).2
    rw [selectedTick_of_guard hg (.inr hready), andThen_next, selectedSeq, selectedSeq, if_pos hm, if_pos hm,
      cycleStep_clearDevWe]
    cases hc : cycleStep s.mode s with
    | next u =>
      have hu : u.txOn = true ∨ u.txEnable = true := (cycleStep_flags hc).imp_right fun h => h.trans hready
      rw [andThen_next, andThen_next, selectedTick_of_guard hg hu]
    | fault r => rfl
    | refused r => rfl
  · have hnothing : selectedSeq s = Host.Outcome.next := funext fun u => if_neg hm
    rw [hnothing, andThen_next]
    cases selectedTick s s <;> rfl

end Sys2Proof.Machine
end

