-- ==== Sys2Proof/Proofs/Invariant.lean ====
section
/-! PROOF. Good states stay good, and no step from one stops (10_state.md R49, 60_exceptions.md R235). A good state is
between packets, or has an RTTY or an FSK packet on air; each of the three has its own way in, and the operations of an
edge lead from one to another. -/

namespace Sys2Proof.Machine

open Sys2Proof.Safety

/-! ## The three kinds of good state -/

/-- What every good state has besides the invariants of R49. -/
structure Sound (s : State) : Prop where
  legal : s.params.legal = true
  memWf : Memory.wf s.mem = true
  noProbe : s.probe = none

/-- An RTTY packet on air, the cursor in it (10_state.md R49). -/
structure RttyOnAir (s : State) : Prop where
  txOn : s.txOn = true
  txEnable : s.txEnable = false
  mode : s.mode = .rtty
  bufSel : s.bufSel = .rttyBuf
  symIdx : s.symIdx = 0
  bitIdx : s.bitIdx.toNat ≤ s.params.dataBits.toNat + 2
  nul : ∃ k, s.cursor.toNat ≤ k ∧ bufRead s k = some 0
  cursor : byteAtCursor s = some 0 → s.cursor = 0 ∧ s.bitIdx = 0

/-- An FSK packet on air of `count` symbols a byte, the cursor in it (10_state.md R49). -/
structure FskOnAir (count : Nat) (s : State) : Prop where
  txOn : s.txOn = true
  txEnable : s.txEnable = false
  mode : (s.mode = .fsk4 ∧ count = 4) ∨ (s.mode = .fsk2 ∧ count = 8)
  bufSel : s.bufSel = .fskBuf
  bitIdx : s.bitIdx = 0
  symIdx : s.symIdx.toNat ≤ count
  pktLen : s.pktLen.toNat ≤ 128
  cursorLe : s.cursor.toNat ≤ s.pktLen.toNat
  cursor : s.cursor = s.pktLen → s.pktLen = 0 ∧ s.symIdx = 0

/-- No packet on air, both generators at their start (10_state.md R49). -/
structure BetweenPackets (s : State) : Prop where
  txOn : s.txOn = false
  bitIdx : s.bitIdx = 0
  symIdx : s.symIdx = 0
  delay : s.txEnable = true → s.delayCnt = 0

theorem sound_of_inv {s : State} (h : Inv s) : Sound s := ⟨h.paramsLegal, h.memoryWf, h.noProbe⟩

theorem inv_of_betweenPackets {s : State} (hs : Sound s) (h : BetweenPackets s) : Inv s := by
  obtain ⟨ho, hb, hy, hd⟩ := h
  have hoff : ¬s.txOn = true := by simp [ho]
  exact
    { spec :=
        { flagsExclusive := fun h => hoff h.1
          packetMatchesMode := fun h => absurd h hoff
          readyMeansNoDelay := fun _ => hd
          rttyCursorInPacket := fun h => absurd h hoff
          fskCursorInPacket := fun h => absurd h hoff
          positionsInRange := by simp [PositionsInRange, hb, hy]
          positionsZeroBetweenPackets := fun _ => ⟨hb, hy⟩ }
      idleGeneratorZero := fun h => absurd h hoff
      paramsLegal := hs.legal
      memoryWf := hs.memWf
      noProbe := hs.noProbe }

theorem inv_of_rttyOnAir {s : State} (hs : Sound s) (h : RttyOnAir s) : Inv s := by
  obtain ⟨k, hck, hk⟩ := h.nul
  have hk127 : k < 128 := (bufRead_eq_some.1 hk).1
  exact
    { spec :=
        { flagsExclusive := by simp [FlagsExclusive, h.txEnable]
          packetMatchesMode := fun _ => by simp [h.mode, h.bufSel]
          readyMeansNoDelay := by simp [ReadyMeansNoDelay, h.txOn]
          rttyCursorInPacket := fun _ _ => ⟨by omega, ⟨k, List.mem_range.2 hk127, hck, hk⟩, h.cursor⟩
          fskCursorInPacket := by simp [FskCursorInPacket, h.mode]
          positionsInRange := ⟨h.bitIdx, by simp [h.mode], by simp [h.mode]⟩
          positionsZeroBetweenPackets := by simp [PositionsZeroBetweenPackets, h.txOn] }
      idleGeneratorZero := by simp [IdleGeneratorZero, h.mode, h.symIdx]
      paramsLegal := hs.legal
      memoryWf := hs.memWf
      noProbe := hs.noProbe }

theorem inv_of_fskOnAir {count : Nat} {s : State} (hs : Sound s) (h : FskOnAir count s) : Inv s := by
  have hne : s.mode ≠ .rtty := by rcases h.mode with ⟨hm, -⟩ | ⟨hm, -⟩ <;> simp [hm]
  exact
    { spec :=
        { flagsExclusive := by simp [FlagsExclusive, h.txEnable]
          packetMatchesMode := fun _ => by rcases h.mode with ⟨hm, -⟩ | ⟨hm, -⟩ <;> simp [hm, h.bufSel]
          readyMeansNoDelay := by simp [ReadyMeansNoDelay, h.txOn]
          rttyCursorInPacket := fun _ hm => absurd hm hne
          fskCursorInPacket := fun _ _ => ⟨h.cursorLe, h.pktLen, h.cursor⟩
          positionsInRange := by
            have hi := h.symIdx
            rcases h.mode with ⟨hm, rfl⟩ | ⟨hm, rfl⟩ <;> simp [PositionsInRange, hm, h.bitIdx, hi]
          positionsZeroBetweenPackets := by simp [PositionsZeroBetweenPackets, h.txOn] }
      idleGeneratorZero := fun _ => ⟨fun hm => absurd hm hne, fun _ => h.bitIdx⟩
      paramsLegal := hs.legal
      memoryWf := hs.memWf
      noProbe := hs.noProbe }

/-- A good state is one of the three kinds. -/
theorem kind_of_inv {s : State} (h : Inv s) :
    BetweenPackets s ∨ RttyOnAir s ∨ ∃ count, FskOnAir count s := by
  obtain ⟨⟨hflags, hmatch, hready, hrtty, hfsk, hpos, hzero⟩, hidle, -, -, -⟩ := h
  cases ho : s.txOn with
  | false => exact .inl ⟨ho, (hzero ho).1, (hzero ho).2, hready ho⟩
  | true =>
    have he : s.txEnable = false := Bool.eq_false_iff.2 fun he => hflags ⟨ho, he⟩
    obtain ⟨hstartup, hbuf⟩ := hmatch ho
    obtain ⟨hsym, hbit⟩ := hidle ho
    have hfskOnAir (count : Nat) (hm : (s.mode = .fsk4 ∧ count = 4) ∨ (s.mode = .fsk2 ∧ count = 8)) : FskOnAir count s := by
      have hne : s.mode ≠ .rtty := by rcases hm with ⟨hm, -⟩ | ⟨hm, -⟩ <;> simp [hm]
      obtain ⟨hle, h128, hcur⟩ := hfsk ho (hm.imp And.left And.left)
      have hsel : s.bufSel = .fskBuf := by
        cases hb : s.bufSel with
        | rttyBuf => exact absurd (hbuf.1 hb) hne
        | fskBuf => rfl
      have hi : s.symIdx.toNat ≤ count := by
        rcases hm with ⟨hm, rfl⟩ | ⟨hm, rfl⟩
        · exact hpos.2.1 hm
        · exact hpos.2.2 hm
      exact ⟨ho, he, hm, hsel, hbit hne, hi, h128, hle, hcur⟩
    cases hm : s.mode with
    | startup => exact absurd hm hstartup
    | rtty =>
      obtain ⟨-, ⟨k, -, hck, hk⟩, hcur⟩ := hrtty ho hm
      exact .inr (.inl ⟨ho, he, hm, hbuf.2 hm, hsym hm, hpos.1, ⟨k, hck, hk⟩, hcur⟩)
    | fsk4 => exact .inr (.inr ⟨4, hfskOnAir 4 (.inl ⟨hm, rfl⟩)⟩)
    | fsk2 => exact .inr (.inr ⟨8, hfskOnAir 8 (.inr ⟨hm, rfl⟩)⟩)

/-! ## Resets and inputs -/

/-- The ports and `dev_we` take no part in a state being good. -/
theorem inv_with_inputs {s : State} (h : Inv s) (ports : Ports) (script : List Ports) (edge : Nat) (devWe : Bool) :
    Inv { s with ports := ports, script := script, edge := edge, devWe := devWe } :=
  { spec :=
      { flagsExclusive := h.spec.flagsExclusive
        packetMatchesMode := h.spec.packetMatchesMode
        readyMeansNoDelay := h.spec.readyMeansNoDelay
        rttyCursorInPacket := h.spec.rttyCursorInPacket
        fskCursorInPacket := h.spec.fskCursorInPacket
        positionsInRange := h.spec.positionsInRange
        positionsZeroBetweenPackets := h.spec.positionsZeroBetweenPackets }
    idleGeneratorZero := h.idleGeneratorZero
    paramsLegal := h.paramsLegal
    memoryWf := h.memoryWf
    noProbe := h.noProbe }

theorem inv_clearDevWe {s : State} (h : Inv s) : Inv (clearDevWe s) := inv_with_inputs h _ _ _ _

theorem inv_advanceInputs {s : State} (h : Inv s) : Inv (advanceInputs s) := inv_with_inputs h _ _ _ _

/-- After `RESET` no packet is on air, and no delay is left (70_reset_and_hazards.md R262). -/
theorem inv_resetOp {s : State} (hl : s.params.legal = true) (hp : s.probe = none) : Inv (resetOp s) :=
  inv_of_betweenPackets ⟨hl, rfl, hp⟩ ⟨rfl, rfl, rfl, fun _ => rfl⟩

/-- Settles O12: no packet is on air after reset. -/
theorem resetStateIsGood : Obligations.ResetStateIsGood := by
  have hinv (p : Params) (hp : p.legal = true) : Inv (State.resetWith p) :=
    inv_of_betweenPackets ⟨hp, rfl, rfl⟩ ⟨rfl, rfl, rfl, fun _ => rfl⟩
  exact ⟨fun p hp => ⟨hinv p hp, rfl⟩, hinv _ (by decide)⟩

/-! ## The tick -/

theorem sound_of_tickRegistersOnly {s t : State} (hs : Sound s) (h : TickRegistersOnly s t) : Sound t := by
  obtain ⟨hl, hm, hp⟩ := hs
  rw [h]
  exact ⟨hl, hm, hp⟩

/-- What `RTTY.NEXT` does to its registers: `bit_idx` stays in its range (41_rtty_framer.md R120). -/
theorem rttyNextOp_registers (b : Byte) {s : State} (hi : s.bitIdx.toNat ≤ s.params.dataBits.toNat + 2) :
    ∃ p i, (rttyNextOp b s).2 = { s with prestartCnt := p, bitIdx := i } ∧ i.toNat ≤ s.params.dataBits.toNat + 2 := by
  have hd := toNat_dataBits_le s.params.dataBits
  have hsucc (h : s.bitIdx.toNat ≤ s.params.dataBits.toNat + 1) :
      (s.bitIdx + 1).toNat ≤ s.params.dataBits.toNat + 2 := by
    rw [BitVec.toNat_add]
    exact (Nat.mod_le _ _).trans (Nat.succ_le_succ h)
  rcases rttyNextOp_cases b s with ⟨-, h⟩ | ⟨-, -, h⟩ | ⟨-, -, hle, h⟩ | ⟨-, heq, h⟩ | ⟨-, -, h⟩ <;> rw [h]
  · exact ⟨_, _, rfl, hi⟩
  · exact ⟨_, _, rfl, Nat.le_add_left 1 _⟩
  · exact ⟨_, _, rfl, hsucc (by omega)⟩
  · exact ⟨_, _, rfl, hsucc heq.le⟩
  · exact ⟨_, _, rfl, Nat.zero_le _⟩

/-- Inside a packet a symbol moves the generator and writes the output; the packet stays on air. -/
theorem RttyOnAir.of_symbol {s : State} {b : Byte} (h : RttyOnAir s) (hb : byteAtCursor s = some b) (hne : b ≠ 0)
    (p : Byte) {i : Nibble} (hi : i.toNat ≤ s.params.dataBits.toNat + 2) (r : Byte) (w l : Bool) :
    RttyOnAir { s with prestartCnt := p, bitIdx := i, devReg := r, devWe := w, markLed := l } :=
  { h with
    bitIdx := hi
    cursor := fun h0 => absurd (Option.some.inj (hb.symm.trans h0)) hne }

/-- At a character boundary the cursor can advance to a byte that is not the `NUL`. -/
theorem RttyOnAir.of_advance {s : State} {b c : Byte} (h : RttyOnAir s) (hb : byteAtCursor s = some b) (hne : b ≠ 0)
    (hc : bufRead s (s.cursor.toNat + 1) = some c) (hcne : c ≠ 0) :
    RttyOnAir (advanceCursor { s with bitIdx := 0 }) ∧ byteAtCursor (advanceCursor { s with bitIdx := 0 }) = some c := by
  obtain ⟨hlt, -⟩ := bufRead_eq_some.1 hc
  have hcur : (s.cursor + 1).toNat = s.cursor.toNat + 1 := by
    rw [BitVec.toNat_add]
    exact Nat.mod_eq_of_lt (by simp; omega)
  have hbyte : byteAtCursor (advanceCursor { s with bitIdx := 0 }) = some c := by
    rw [← hc, ← hcur]
    rfl
  obtain ⟨k, hck, hk⟩ := h.nul
  have hkne : s.cursor.toNat ≠ k := by
    rintro rfl
    exact hne (Option.some.inj (hb.symm.trans hk))
  refine ⟨{ h with bitIdx := Nat.zero_le _, nul := ⟨k, ?_, hk⟩, cursor := fun h0 => ?_ }, hbyte⟩
  · exact hcur.le.trans (by omega)
  · exact absurd (Option.some.inj (hbyte.symm.trans h0)) hcne

/-- The modulation step of `TICK.RTTY` keeps the packet on air, or ends it at a character boundary. -/
theorem rttyModulation_kind {s t : State} (h : RttyOnAir s) (ht : rttyModulation s = .next t) :
    RttyOnAir t ∨ BetweenPackets t := by
  obtain ⟨b, hb, ⟨hi, -, rfl⟩ | hquery⟩ := rttyModulation_eq_next ht
  · exact .inr ⟨rfl, hi, h.symIdx, by simp [h.txEnable]⟩
  have hne : b ≠ 0 := by
    rintro rfl
    have hi := (h.cursor hb).2
    rcases hquery with ⟨hz, -⟩ | ⟨hz, -⟩ | ⟨hz, -⟩ <;> exact hz ⟨hi, rfl⟩
  obtain ⟨p, i, hreg, hi⟩ := rttyNextOp_registers b h.bitIdx
  rcases hquery with ⟨-, -, rfl⟩ | ⟨-, -, rfl⟩ | ⟨-, hfin, hend⟩
  · rw [hreg]
    exact .inl (h.of_symbol hb hne p hi _ _ _)
  · rw [hreg]
    exact .inl (h.of_symbol hb hne p hi _ _ _)
  · obtain ⟨hp, hd⟩ := rttyNextOp_eq_fin.1 hfin
    rw [rttyNextOp_end b hp hd] at hend
    obtain ⟨c, hc, ⟨-, rfl⟩ | ⟨hcne, -, rfl⟩ | ⟨hcne, -, rfl⟩⟩ := rttyCharacterEnd_eq_next hend
    · exact .inr ⟨rfl, rfl, h.symIdx, by simp [h.txEnable]⟩
    · obtain ⟨hair, hbyte⟩ := h.of_advance hb hne hc hcne
      obtain ⟨p, i, hreg, hi⟩ := rttyNextOp_registers c hair.bitIdx
      rw [hreg]
      exact .inl (hair.of_symbol hbyte hcne p hi _ _ _)
    · exact .inl (h.of_advance hb hne hc hcne).1

/-- A packet of symbols has at least one and at most eight of them a byte. -/
theorem FskOnAir.count_bounds {count : Nat} {s : State} (h : FskOnAir count s) : 1 ≤ count ∧ count ≤ 8 := by
  rcases h.mode with ⟨-, rfl⟩ | ⟨-, rfl⟩ <;> decide

/-- Inside a packet a symbol moves the generator and writes the output; the packet stays on air. -/
theorem FskOnAir.of_symbol {count : Nat} {s : State} (h : FskOnAir count s) (hc : s.cursor ≠ s.pktLen) {i : Nibble}
    (hi : i.toNat ≤ count) (r : Byte) (w : Bool) : FskOnAir count { s with symIdx := i, devReg := r, devWe := w } :=
  { h with
    symIdx := hi
    cursor := fun heq => absurd heq hc }

/-- After a byte that is not the last one the cursor can advance. -/
theorem FskOnAir.of_advance {count : Nat} {s : State} (h : FskOnAir count s) (hc : s.cursor ≠ s.pktLen)
    (hl : s.cursor.toNat + 1 ≠ s.pktLen.toNat) : FskOnAir count (advanceCursor { s with symIdx := 0 })
      ∧ (advanceCursor { s with symIdx := 0 }).cursor ≠ s.pktLen := by
  have hle := h.cursorLe
  have h128 := h.pktLen
  have hcur : (s.cursor + 1).toNat = s.cursor.toNat + 1 := by
    rw [BitVec.toNat_add]
    exact Nat.mod_eq_of_lt (by simp; omega)
  have hlt : s.cursor.toNat ≠ s.pktLen.toNat := fun heq => hc (BitVec.eq_of_toNat_eq heq)
  have hle' : s.cursor.toNat + 1 ≤ s.pktLen.toNat := by omega
  have hne : s.cursor + 1 ≠ s.pktLen := fun heq => hl (hcur.symm.trans (congrArg BitVec.toNat heq))
  exact ⟨{ h with symIdx := Nat.zero_le _, cursorLe := hcur.le.trans hle', cursor := fun heq => absurd heq hne }, hne⟩

/-- The modulation step of an FSK tick keeps the packet on air, or ends it at a byte boundary. -/
theorem fskModulation_kind {count : Nat} {field : Bool → Byte → Nat → BitVec 2} {s t : State} (h : FskOnAir count s)
    (ht : fskModulation (mapperNext count field) s = .next t) : FskOnAir count t ∨ BetweenPackets t := by
  obtain ⟨hcount, hcount8⟩ := h.count_bounds
  obtain ⟨hc, rfl⟩ | ⟨hc, b, hb, hquery⟩ := fskModulation_eq_next ht
  · exact .inr ⟨rfl, h.bitIdx, (h.cursor hc).2, by simp [h.txEnable]⟩
  rcases mapperNext_cases count field b s with ⟨hi, he⟩ | ⟨hi, he⟩ <;> rw [he] at hquery
  · obtain ⟨sym, hsym, -⟩ | ⟨-, hend⟩ := hquery
    · cases hsym
    obtain ⟨-, rfl⟩ | ⟨hl, c, -, rfl⟩ := fskByteEnd_eq_next hend
    · exact .inr ⟨rfl, h.bitIdx, rfl, by simp [h.txEnable]⟩
    · obtain ⟨hair, hne⟩ := h.of_advance hc hl
      rw [mapperNext_symbol field c (show (0 : Nibble).toNat < count from hcount)]
      exact .inl (hair.of_symbol hne (i := 1) hcount _ _)
  · obtain ⟨sym, -, rfl⟩ | ⟨hno, -⟩ := hquery
    · have hsucc : (s.symIdx + 1).toNat ≤ count := by
        rw [BitVec.toNat_add]
        exact (Nat.mod_le _ _).trans hi
      exact .inl (h.of_symbol hc hsucc _ _)
    · cases hno

/-- `DELAY.STEP` counts between packets (44_tick_engine.md R198). -/
theorem BetweenPackets.delayStepOp {s : State} (h : BetweenPackets s) : BetweenPackets (delayStepOp s) := by
  cases he : s.txEnable with
  | true => rwa [delayStepOp_idle (.inr he)]
  | false =>
    by_cases hd : s.delayCnt ≤ 1
    · rw [delayStepOp_runsOut h.txOn he hd]
      exact ⟨h.txOn, h.bitIdx, h.symIdx, fun _ => rfl⟩
    · rw [delayStepOp_counts h.txOn he hd]
      exact ⟨h.txOn, h.bitIdx, h.symIdx, fun h => absurd h (by simp [he])⟩

/-- The modulation step of the packet on air and the `DELAY.STEP` after it keep a state good. -/
theorem inv_of_modulation {s u : State} (h : Inv s) (ho : s.txOn = true) (hu : modulation s.mode s = .next u) :
    Inv (delayStepOp u) := by
  have hsound : Sound (delayStepOp u) := sound_of_tickRegistersOnly (sound_of_inv h)
    ((modulation_tickRegistersOnly hu).trans (delayStepOp_tickRegistersOnly u))
  rcases kind_of_inv h with hb | hr | ⟨count, hf⟩
  · simp [hb.txOn] at ho
  · rw [hr.mode] at hu
    rcases rttyModulation_kind hr hu with hair | hbetween
    · rw [delayStepOp_idle (.inl hair.txOn)] at hsound ⊢
      exact inv_of_rttyOnAir hsound hair
    · exact inv_of_betweenPackets hsound hbetween.delayStepOp
  · have hkind : FskOnAir count u ∨ BetweenPackets u := by
      rcases hf.mode with ⟨hm, rfl⟩ | ⟨hm, rfl⟩ <;> rw [hm] at hu <;> exact fskModulation_kind hf hu
    rcases hkind with hair | hbetween
    · rw [delayStepOp_idle (.inl hair.txOn)] at hsound ⊢
      exact inv_of_fskOnAir hsound hair
    · exact inv_of_betweenPackets hsound hbetween.delayStepOp

/-- The selected tick keeps a state good. -/
theorem inv_selectedTick {s t : State} (h : Inv s) (ht : selectedTick s s = .next t) : Inv t := by
  have hclear := inv_clearDevWe h
  obtain ⟨-, rfl⟩ | ⟨-, u, rfl, ⟨ho, rfl⟩ | ⟨ho, hu⟩⟩ := selectedTick_eq_next ht
  · exact hclear
  · rcases kind_of_inv hclear with hb | hr | ⟨count, hf⟩
    · exact inv_of_betweenPackets
        (sound_of_tickRegistersOnly (sound_of_inv hclear) (delayStepOp_tickRegistersOnly _)) hb.delayStepOp
    · exact absurd hr.txOn (by simp [ho])
    · exact absurd hf.txOn (by simp [ho])
  · exact inv_of_modulation hclear ho hu

/-! ## The sequencer -/

/-- After `FMT.RTTY` the `NUL` of the sentence stands in the selected buffer (43_formatter.md R165, R166). -/
theorem bufRead_fmtRttyOp_nul {s t : State} (hs : Sound s) (h : fmtRttyOp s = .next t) :
    bufRead t (sentence s.params.callsign s.snap).length = some 0 := by
  have hfits := (sentenceFitsTheBuffer s.params s.snap hs.legal).2
  refine bufRead_eq_some.2 ⟨by omega, ?_⟩
  have hnul := memRead_fmtRttyOp_nul hs.memWf h
  obtain ⟨m, -, rfl⟩ := fmtRttyOp_eq_next h
  simpa [BufSel.base] using hnul

theorem sound_of_fmtRttyOp {s t : State} (hs : Sound s) (h : fmtRttyOp s = .next t) : Sound t := by
  obtain ⟨m, hm, rfl⟩ := fmtRttyOp_eq_next h
  exact ⟨hs.legal, bufWrite_wf hm hs.memWf, hs.noProbe⟩

theorem sound_of_fmtFskOp {s t : State} (hs : Sound s) (h : fmtFskOp s = .next t) : Sound t := by
  obtain ⟨m, hm, rfl⟩ := fmtFskOp_eq_next h
  exact ⟨hs.legal, bufWrite_wf hm hs.memWf, hs.noProbe⟩

/-- `FSK_SELECT` names a mode of four or eight symbols a byte (45_sequencer.md R212). -/
theorem exists_count_fskMode (f : FskSelect) :
    ∃ count, (fskMode f = .fsk4 ∧ count = 4) ∨ (fskMode f = .fsk2 ∧ count = 8) := by
  cases f with
  | fsk4 => exact ⟨4, .inl ⟨rfl, rfl⟩⟩
  | fsk2 => exact ⟨8, .inr ⟨rfl, rfl⟩⟩

/-- A step along the cycle with no packet on air leads to a good state: a formatted packet at its first byte, or the
state between packets in another mode (45_sequencer.md R211 to R213). -/
theorem inv_cycleStep {s t : State} {m : ModeState} (hs : Sound s) (h : BetweenPackets s)
    (ht : cycleStep m s = .next t) : Inv t := by
  rcases cycleStep_eq_next ht with ⟨-, u, hu, rfl⟩ | ⟨-, u, hu, rfl⟩ | ⟨-, rfl⟩
  · have hs' : Sound (setMode .rtty (snapCaptureOp s)) := ⟨hs.legal, hs.memWf, hs.noProbe⟩
    have hsu := sound_of_fmtRttyOp hs' hu
    have hnul := bufRead_fmtRttyOp_nul hs' hu
    obtain ⟨w, -, rfl⟩ := fmtRttyOp_eq_next hu
    exact inv_of_rttyOnAir ⟨hsu.legal, hsu.memWf, hsu.noProbe⟩
      ⟨rfl, rfl, rfl, rfl, rfl, Nat.zero_le _, ⟨_, Nat.zero_le _, hnul⟩, fun _ => ⟨rfl, rfl⟩⟩
  · have hs' : Sound (setMode (fskMode s.params.fskSelect) s) := ⟨hs.legal, hs.memWf, hs.noProbe⟩
    have hsu := sound_of_fmtFskOp hs' hu
    obtain ⟨count, hmode⟩ := exists_count_fskMode s.params.fskSelect
    obtain ⟨w, -, rfl⟩ := fmtFskOp_eq_next hu
    have hlen : (BitVec.ofNat 8 s.params.fskFrame.length : Byte).toNat ≤ 128 :=
      (Nat.mod_le _ _).trans (length_fskFrame_le hs.legal)
    exact inv_of_fskOnAir ⟨hsu.legal, hsu.memWf, hsu.noProbe⟩
      ⟨rfl, rfl, hmode, rfl, rfl, Nat.zero_le _, hlen, Nat.zero_le _, fun h0 => ⟨h0.symm, rfl⟩⟩
  · exact inv_of_betweenPackets ⟨hs.legal, hs.memWf, hs.noProbe⟩ ⟨h.txOn, h.bitIdx, h.symIdx, h.delay⟩

/-! ## The step -/

/-- With the guard holding, a good state is between packets. -/
theorem betweenPackets_of_guard {s : State} (h : Inv s) (hg : guard s = true) : BetweenPackets s := by
  obtain ⟨ho, -⟩ := guard_eq_true.1 hg
  rcases kind_of_inv h with hb | hr | ⟨count, hf⟩
  · exact hb
  · simp [hr.txOn] at ho
  · simp [hf.txOn] at ho

/-- Settles O53: a reset by `inv_resetOp`, a step along the cycle by `inv_cycleStep`, any other edge by
`inv_selectedTick`. -/
theorem stepKeepsGoodStates : Obligations.StepKeepsGoodStates := by
  intro s t h ht
  cases hr : s.ports.rst with
  | true =>
    rw [step_eq_clockEdge h.paramsLegal h.noProbe, clockEdge_of_rst hr] at ht
    obtain rfl := Host.Outcome.next.inj ht
    exact inv_advanceInputs (inv_resetOp h.paramsLegal h.noProbe)
  | false =>
    obtain ⟨u, rfl, ⟨hm, hu⟩ | ⟨-, hu⟩⟩ := step_edge_cases h.noProbe hr ht
    · obtain ⟨-, hg⟩ := sequencerMoves_eq_true.1 hm
      have hclear := inv_clearDevWe h
      exact inv_advanceInputs (inv_cycleStep (sound_of_inv hclear) (betweenPackets_of_guard hclear hg) hu)
    · exact inv_advanceInputs (inv_selectedTick h hu)

/-! ## Progress -/

/-- An operation that neither faults nor refuses goes on. -/
theorem exists_next_of_not_stop {o : Res} (hf : ∀ r, o ≠ .fault r) (hr : ∀ r, o ≠ .refused r) : ∃ t, o = .next t := by
  cases o with
  | next t => exact ⟨t, rfl⟩
  | fault r => exact absurd rfl (hf r)
  | refused r => exact absurd rfl (hr r)

/-- In an RTTY packet on air the byte at the cursor is in the buffer, and after a character that is not the last one so is
the next (20_memory.md R65). -/
theorem RttyOnAir.goesOn {s : State} (h : RttyOnAir s) : ∃ t, rttyModulation s = .next t := by
  refine exists_next_of_not_stop (fun r hfault => ?_) (rttyModulation_ne_refused s)
  obtain ⟨k, hck, hk⟩ := h.nul
  have hk128 := (bufRead_eq_some.1 hk).1
  rcases rttyModulation_eq_fault.1 hfault with hoff | ⟨h127, -, hd⟩
  · omega
  · obtain rfl : s.cursor.toNat = k := by omega
    exact bitIdx_ne_zero hd (h.cursor hk).2

/-- In an FSK packet on air the byte at the cursor is in the buffer, and so is the next, if there is one. -/
theorem FskOnAir.goesOn {count : Nat} {s : State} (h : FskOnAir count s) (field : Bool → Byte → Nat → BitVec 2) :
    ∃ t, fskModulation (mapperNext count field) s = .next t := by
  refine exists_next_of_not_stop (fun r hfault => ?_) (fskModulation_ne_refused _ s)
  obtain ⟨hne, hoff⟩ := fskModulation_eq_fault.1 hfault
  have hne' : s.cursor.toNat ≠ s.pktLen.toNat := fun heq => hne (BitVec.eq_of_toNat_eq heq)
  have hle := h.cursorLe
  have h128 := h.pktLen
  omega

/-- The modulation step of a packet on air goes on. -/
theorem modulation_goesOn {s : State} (h : Inv s) (ho : s.txOn = true) : ∃ t, modulation s.mode s = .next t := by
  rcases kind_of_inv h with hb | hr | ⟨count, hf⟩
  · simp [hb.txOn] at ho
  · rw [hr.mode]
    exact hr.goesOn
  · rcases hf.mode with ⟨hm, rfl⟩ | ⟨hm, rfl⟩ <;> rw [hm] <;> exact hf.goesOn _

/-- The selected tick goes on from a good state. -/
theorem selectedTick_goesOn {s : State} (h : Inv s) : ∃ t, selectedTick s s = .next t := by
  unfold selectedTick
  split
  · split
    · next ho =>
      obtain ⟨u, hu⟩ := modulation_goesOn (inv_clearDevWe h) ho
      exact ⟨_, tickWith_eq_next.2 ⟨u, hu, rfl⟩⟩
    · exact ⟨_, rfl⟩
  · exact ⟨_, rfl⟩

/-- With legal parameters a step along the cycle goes on: what it formats fits (43_formatter.md R166). -/
theorem cycleStep_goesOn (m : ModeState) {s : State} (hl : s.params.legal = true) : ∃ t, cycleStep m s = .next t := by
  cases m with
  | startup =>
    obtain ⟨u, hu⟩ := fmtRttyOp_of_legal (s := setMode .rtty (snapCaptureOp s)) hl
    exact ⟨_, execSeqStartup_eq_next.2 ⟨u, hu, rfl⟩⟩
  | rtty =>
    obtain ⟨u, hu⟩ := fmtFskOp_of_legal (s := setMode (fskMode s.params.fskSelect) s) hl
    exact ⟨_, execSeqFsk_eq_next.2 ⟨u, hu, rfl⟩⟩
  | fsk4 | fsk2 => exact ⟨_, rfl⟩

/-- Settles O54: the operations of an edge go on, and so does a reset. -/
theorem goodStatesNeverStop : Obligations.GoodStatesNeverStop := by
  intro s h
  rw [StepGoesOn, step_eq_clockEdge h.paramsLegal h.noProbe]
  cases hr : s.ports.rst with
  | true => exact ⟨_, clockEdge_of_rst hr⟩
  | false =>
    have hops : ∃ u, runOps (decodeEdge (controlWord s)) s = .next u := by
      by_cases hm : sequencerMoves s = true
      · rw [runOps_decodeEdge_of_moves hr hm]
        exact cycleStep_goesOn _ h.paramsLegal
      · rw [runOps_decodeEdge_of_not_moves hr hm]
        exact selectedTick_goesOn h
    obtain ⟨u, hu⟩ := hops
    exact ⟨advanceInputs u, by rw [clockEdge, hu, andThen_next]⟩

end Sys2Proof.Machine
end

