-- ==== Sys2Proof/Proofs/Ownership.lean ====
section
/-! PROOF. Which registers the two agents write (10_state.md R20, 60_exceptions.md R242), and what follows for an edge: when
the mode and the frame counter move (45_sequencer.md R215, R217), when the flags rise and fall (10_state.md R27, R28), and
that the radio stays keyed (R46). -/

namespace Sys2Proof.Machine

open Sys2Proof.Safety

/-! ## The agents -/

/-- `t` is `s` but for the registers that the sequencer owns and those that `ARM` loads (10_state.md R20). -/
def SeqRegistersOnly (s t : State) : Prop :=
  t = { s with
    mode := t.mode, bufSel := t.bufSel, pktLen := t.pktLen, frameCounter := t.frameCounter, crcReg := t.crcReg
    snap := t.snap, mem := t.mem, txOn := t.txOn, txEnable := t.txEnable, cursor := t.cursor
    prestartCnt := t.prestartCnt, bitIdx := t.bitIdx, symIdx := t.symIdx, radioEn := t.radioEn }

/-- The tick's registers that `ARM` loads are as before, or loaded (45_sequencer.md R216). -/
def KeptOrArmed (s t : State) : Prop :=
  (t.txOn = s.txOn ∧ t.txEnable = s.txEnable ∧ t.cursor = s.cursor ∧ t.prestartCnt = s.prestartCnt
    ∧ t.bitIdx = s.bitIdx ∧ t.symIdx = s.symIdx ∧ t.radioEn = s.radioEn) ∨ Armed s t

/-- A step along the cycle writes the sequencer's registers, and of the tick's those that `ARM` loads. -/
theorem cycleStep_registers {m : ModeState} {s t : State} (h : cycleStep m s = .next t) :
    SeqRegistersOnly s t ∧ KeptOrArmed s t := by
  rcases cycleStep_eq_next h with ⟨-, u, hu, rfl⟩ | ⟨-, u, hu, rfl⟩ | ⟨-, rfl⟩
  · obtain ⟨w, -, rfl⟩ := fmtRttyOp_eq_next hu
    exact ⟨rfl, .inr ⟨rfl, rfl, rfl, rfl, rfl, rfl, rfl⟩⟩
  · obtain ⟨w, -, rfl⟩ := fmtFskOp_eq_next hu
    exact ⟨rfl, .inr ⟨rfl, rfl, rfl, rfl, rfl, rfl, rfl⟩⟩
  · exact ⟨rfl, .inl ⟨rfl, rfl, rfl, rfl, rfl, rfl, rfl⟩⟩

/-- Every sequencer operation does nothing or makes a step along the cycle (30_encoding.md R83). -/
theorem exec_seq {i : Instr} (hi : i.format = .s) : (∀ s, exec i s = .next s) ∨ ∃ m, ∀ s, exec i s = cycleStep m s := by
  cases i with
  | seqNone | seqWaitTransmitting | seqWaitDelay => exact .inl fun _ => rfl
  | seqStartup => exact .inr ⟨.startup, fun _ => rfl⟩
  | seqFsk => exact .inr ⟨.rtty, fun _ => rfl⟩
  | seqWrap => exact .inr ⟨.fsk4, fun _ => rfl⟩
  | reset | tickNone | tickIdle | tickRsvd | tickRtty | tickFsk4 | tickFsk2 | crcInit | crcByte | crcStr | rttyNext
  | fsk4Next | fsk2Next | snapCapture | fmtRtty | fmtFsk | arm | endPacket | devWrite | delayStep => cases hi

/-- Every sequencer operation writes the sequencer's registers, and of the tick's those that `ARM` loads. -/
theorem exec_seq_registers {i : Instr} {s t : State} (hi : i.format = .s) (h : exec i s = .next t) :
    SeqRegistersOnly s t ∧ KeptOrArmed s t := by
  rcases exec_seq hi with hnothing | ⟨m, hm⟩
  · obtain rfl := Host.Outcome.next.inj ((hnothing s).symm.trans h)
    exact ⟨rfl, .inl ⟨rfl, rfl, rfl, rfl, rfl, rfl, rfl⟩⟩
  · exact cycleStep_registers ((hm s).symm.trans h)

/-- Settles O60: a tick operation by `exec_tick_tickRegistersOnly`, a sequencer operation by `exec_seq_registers`. -/
theorem eachAgentWritesItsOwnRegisters : Obligations.EachAgentWritesItsOwnRegisters := by
  refine fun i s t h => ⟨fun hi => ?_, fun hi => ?_⟩
  · have hreg := exec_tick_tickRegistersOnly hi h
    refine ⟨hreg.bufferFrame, ?_⟩
    rw [hreg]
    exact ⟨rfl, rfl, rfl, rfl, rfl, rfl, rfl, rfl, rfl, rfl⟩
  · obtain ⟨hreg, harm⟩ := exec_seq_registers hi h
    rw [hreg] at harm ⊢
    exact ⟨rfl, rfl, rfl, rfl, rfl, rfl, rfl, rfl, rfl, rfl, harm⟩

/-! ## The mode and the frame counter -/

/-- The selected tick writes the tick's registers only. -/
theorem selectedTick_tickRegistersOnly {s t : State} (h : selectedTick s s = .next t) : TickRegistersOnly s t := by
  have hclear := clearDevWe_tickRegistersOnly s
  obtain ⟨-, rfl⟩ | ⟨-, u, rfl, ⟨-, rfl⟩ | ⟨-, hu⟩⟩ := selectedTick_eq_next h
  · exact hclear
  · exact hclear.trans (delayStepOp_tickRegistersOnly _)
  · exact hclear.trans ((modulation_tickRegistersOnly hu).trans (delayStepOp_tickRegistersOnly u))

/-- Settles O56: where the sequencer moves, `cycleStep` says how; a tick writes neither the mode nor the counter. -/
theorem modeMovesAlongTheCycle : Obligations.ModeMovesAlongTheCycle := by
  intro s t hp hr h
  obtain ⟨u, rfl, ⟨hm, hu⟩ | ⟨hm, hu⟩⟩ := step_edge_cases hp hr h
  · rw [if_pos (sequencerMoves_eq_true.1 hm)]
    rcases cycleStep_eq_next hu with ⟨hmode, v, hv, rfl⟩ | ⟨hmode, v, hv, rfl⟩ | ⟨hmode, rfl⟩
    · obtain ⟨w, -, rfl⟩ := fmtRttyOp_eq_next hv
      rw [hmode]
      exact ⟨rfl, rfl⟩
    · obtain ⟨w, -, rfl⟩ := fmtFskOp_eq_next hv
      rw [hmode]
      exact ⟨rfl, rfl⟩
    · rcases hmode with hmode | hmode <;> rw [hmode] <;> exact ⟨rfl, rfl⟩
  · rw [if_neg fun hg => hm (sequencerMoves_eq_true.2 hg)]
    have hreg := selectedTick_tickRegistersOnly hu
    exact ⟨hreg.bufferFrame.mode, hreg.snap_frameCounter_crcReg.2.1⟩

/-! ## The flags -/

/-- A generator's answer leaves the flags and `dev_we` as they are (41_rtty_framer.md R120). -/
theorem rttyNextOp_flags (b : Byte) (s : State) :
    (rttyNextOp b s).2.txOn = s.txOn ∧ (rttyNextOp b s).2.txEnable = s.txEnable ∧ (rttyNextOp b s).2.devWe = s.devWe := by
  rcases rttyNextOp_cases b s with ⟨-, h⟩ | ⟨-, -, h⟩ | ⟨-, -, -, h⟩ | ⟨-, -, h⟩ | ⟨-, -, h⟩ <;> rw [h] <;>
    exact ⟨rfl, rfl, rfl⟩

/-- So does a mapper's (42_fsk_mappers.md R135). -/
theorem mapperNext_flags (count : Nat) (field : Bool → Byte → Nat → BitVec 2) (b : Byte) (s : State) :
    (mapperNext count field b s).2.txOn = s.txOn ∧ (mapperNext count field b s).2.txEnable = s.txEnable
      ∧ (mapperNext count field b s).2.devWe = s.devWe := by
  rcases mapperNext_cases count field b s with ⟨-, h⟩ | ⟨-, h⟩ <;> rw [h] <;> exact ⟨rfl, rfl, rfl⟩

/-- A symbol's write leaves the flags as they are (44_tick_engine.md R185). -/
theorem spaceSymbol_flags (s : State) : (spaceSymbol s).txOn = s.txOn ∧ (spaceSymbol s).txEnable = s.txEnable := ⟨rfl, rfl⟩

theorem markSymbol_flags (s : State) : (markSymbol s).txOn = s.txOn ∧ (markSymbol s).txEnable = s.txEnable := ⟨rfl, rfl⟩

/-- What a modulation step does to the flags: `tx_enable` stays, and `tx_on` stays or falls without a write. -/
def FlagsStayOrEnd (s t : State) : Prop := t.txEnable = s.txEnable ∧ (t.txOn = s.txOn ∨ t.txOn = false ∧ t.devWe = s.devWe)

/-- The modulation step of `TICK.RTTY` (44_tick_engine.md R182 to R186). -/
theorem rttyModulation_flags {s t : State} (h : rttyModulation s = .next t) : FlagsStayOrEnd s t := by
  obtain ⟨b, -, ⟨-, -, rfl⟩ | ⟨-, -, rfl⟩ | ⟨-, -, rfl⟩ | ⟨-, -, hend⟩⟩ := rttyModulation_eq_next h
  · exact ⟨rfl, .inr ⟨rfl, rfl⟩⟩
  · obtain ⟨hon, hen⟩ := markSymbol_flags (rttyNextOp b s).2
    exact ⟨hen.trans (rttyNextOp_flags b s).2.1, .inl (hon.trans (rttyNextOp_flags b s).1)⟩
  · obtain ⟨hon, hen⟩ := spaceSymbol_flags (rttyNextOp b s).2
    exact ⟨hen.trans (rttyNextOp_flags b s).2.1, .inl (hon.trans (rttyNextOp_flags b s).1)⟩
  · obtain ⟨hon, hen, hwe⟩ := rttyNextOp_flags b s
    generalize (rttyNextOp b s).2 = u at hend hon hen hwe
    obtain ⟨c, -, ⟨-, rfl⟩ | ⟨-, -, rfl⟩ | ⟨-, -, rfl⟩⟩ := rttyCharacterEnd_eq_next hend
    · exact ⟨hen, .inr ⟨rfl, hwe⟩⟩
    · obtain ⟨hon', hen', -⟩ := rttyNextOp_flags c (advanceCursor u)
      obtain ⟨hon'', hen''⟩ := spaceSymbol_flags (rttyNextOp c (advanceCursor u)).2
      exact ⟨hen''.trans (hen'.trans hen), .inl (hon''.trans (hon'.trans hon))⟩
    · exact ⟨hen, .inl hon⟩

/-- The modulation step of an FSK tick (44_tick_engine.md R187 to R191). -/
theorem fskModulation_flags {count : Nat} {field : Bool → Byte → Nat → BitVec 2} {s t : State}
    (h : fskModulation (mapperNext count field) s = .next t) : FlagsStayOrEnd s t := by
  obtain ⟨-, rfl⟩ | ⟨-, b, -, ⟨sym, -, rfl⟩ | ⟨-, hend⟩⟩ := fskModulation_eq_next h
  · exact ⟨rfl, .inr ⟨rfl, rfl⟩⟩
  · exact ⟨(mapperNext_flags count field b s).2.1, .inl (mapperNext_flags count field b s).1⟩
  · obtain ⟨hon, hen, hwe⟩ := mapperNext_flags count field b s
    generalize (mapperNext count field b s).2 = u at hend hon hen hwe
    obtain ⟨-, rfl⟩ | ⟨-, c, -, rfl⟩ := fskByteEnd_eq_next hend
    · exact ⟨hen, .inr ⟨rfl, hwe⟩⟩
    · obtain ⟨hon', hen', -⟩ := mapperNext_flags count field c (advanceCursor u)
      exact ⟨hen'.trans hen, .inl (hon'.trans hon)⟩

/-- Every modulation step. -/
theorem modulation_flags {m : ModeState} {s t : State} (h : modulation m s = .next t) : FlagsStayOrEnd s t := by
  cases m with
  | startup => cases h
  | rtty => exact rttyModulation_flags h
  | fsk4 | fsk2 => exact fskModulation_flags h

/-- Everything the selected tick does to the flags: without a tick they stay; with one, `tx_on` stays or falls without a
write, and the `DELAY.STEP` that follows can raise `tx_enable` (44_tick_engine.md R194). -/
theorem selectedTick_flags {s t : State} (h : selectedTick s s = .next t) :
    (t.txOn = s.txOn ∧ t.txEnable = s.txEnable)
    ∨ (s.ports.tick = true ∧ ∃ u, t = delayStepOp u ∧ u.txEnable = s.txEnable
        ∧ (u.txOn = s.txOn ∨ u.txOn = false ∧ u.devWe = false)) := by
  obtain ⟨-, rfl⟩ | ⟨ht, u, rfl, ⟨-, rfl⟩ | ⟨-, hu⟩⟩ := selectedTick_eq_next h
  · exact .inl ⟨rfl, rfl⟩
  · exact .inr ⟨ht, _, rfl, rfl, .inl rfl⟩
  · obtain ⟨hen, hon⟩ := modulation_flags hu
    exact .inr ⟨ht, u, rfl, hen, hon⟩

/-- The `DELAY.STEP` that raises `tx_enable` leaves the delay at 0, and no packet is on air (44_tick_engine.md R198). -/
theorem delayStepOp_raises {s : State} (he : s.txEnable = false) (h : (delayStepOp s).txEnable = true) :
    s.txOn = false ∧ (delayStepOp s).delayCnt = 0 := by
  cases ho : s.txOn with
  | true => simp [delayStepOp_idle (.inl ho), he] at h
  | false =>
    by_cases hd : s.delayCnt ≤ 1
    · exact ⟨rfl, by rw [delayStepOp_runsOut ho he hd]⟩
    · simp [delayStepOp_counts ho he hd, he] at h

/-- How the flags can change at the selected tick: `tx_on` only falls, at a tick and without a write; `tx_enable` only
rises, at a tick that leaves the delay at 0 (10_state.md R27, R28). -/
theorem selectedTick_flagChanges {s t : State} (h : selectedTick s s = .next t) :
    (s.txOn = false → t.txOn = false) ∧ (s.txOn = true → t.txOn = false → s.ports.tick = true ∧ t.devWe = false)
    ∧ (s.txEnable = false → t.txEnable = true → s.ports.tick = true ∧ t.txOn = false ∧ t.delayCnt = 0)
    ∧ (s.txEnable = true → t.txEnable = true) := by
  rcases selectedTick_flags h with ⟨hon, hen⟩ | ⟨ht, u, rfl, hen, hon⟩
  · simp_all
  have hkept : (delayStepOp u).txOn = u.txOn ∧ (delayStepOp u).devWe = u.devWe := by simp
  refine ⟨fun ho => ?_, fun ho hoff => ⟨ht, ?_⟩, fun he hraise => ⟨ht, ?_⟩, fun he => ?_⟩
  · rw [hkept.1]
    exact hon.elim (fun h => h.trans ho) And.left
  · rw [hkept.1] at hoff
    rw [hkept.2]
    exact hon.elim (fun h => absurd (hoff.symm.trans (h.trans ho)) Bool.false_ne_true) And.right
  · rw [hkept.1]
    exact delayStepOp_raises (hen.trans he) hraise
  · simp [hen.trans he]

/-- Everything a step along the cycle does to the flags: it arms in `Startup` and in `Rtty`, and leaves them elsewhere
(45_sequencer.md R211 to R213). -/
theorem cycleStep_arms {m : ModeState} {s t : State} (h : cycleStep m s = .next t) :
    ((m = .startup ∨ m = .rtty) ∧ t.txOn = true)
    ∨ (¬(m = .startup ∨ m = .rtty) ∧ t.txOn = s.txOn ∧ t.txEnable = s.txEnable) := by
  rcases cycleStep_eq_next h with ⟨rfl, u, -, rfl⟩ | ⟨rfl, u, -, rfl⟩ | ⟨hm, rfl⟩
  · exact .inl ⟨.inl rfl, rfl⟩
  · exact .inl ⟨.inr rfl, rfl⟩
  · refine .inr ⟨?_, rfl, rfl⟩
    rcases hm with rfl | rfl <;> decide

/-- Settles O57: where the sequencer moves, `cycleStep_arms` says what becomes of the flags; elsewhere
`selectedTick_flags` and `delayStepOp_raises`. -/
theorem txFlagsChangeOnlyAtArmAndTick : Obligations.TxFlagsChangeOnlyAtArmAndTick := by
  intro s t hp hr h
  obtain ⟨u, rfl, ⟨hm, hu⟩ | ⟨hm, hu⟩⟩ := step_edge_cases hp hr h
  · obtain ⟨hq, hg⟩ := sequencerMoves_eq_true.1 hm
    obtain ⟨ho, he⟩ := guard_eq_true.1 hg
    rcases cycleStep_arms hu with ⟨hmode, hon⟩ | ⟨hmode, hon, hen⟩
    · exact ⟨fun _ => ⟨fun _ => ⟨hq, hg, hmode⟩, fun _ => hon⟩, fun h => by simp [ho] at h, fun h => by simp [he] at h,
        fun _ _ => ⟨ho, hon⟩⟩
    · have hoff : u.txOn = false := hon.trans ho
      have hready : u.txEnable = true := hen.trans he
      exact ⟨fun _ => ⟨fun h => by simp [hoff] at h, fun h => absurd h.2.2 hmode⟩, fun h => by simp [ho] at h,
        fun h => by simp [he] at h, fun _ h => by simp [hready] at h⟩
  · obtain ⟨hstay, hfall, hraise, hkeep⟩ := selectedTick_flagChanges hu
    have hidle : ¬(s.ports.seqEn = true ∧ guard s = true ∧ (s.mode = .startup ∨ s.mode = .rtty)) :=
      fun ⟨hq, hg, _⟩ => hm (sequencerMoves_eq_true.2 ⟨hq, hg⟩)
    refine ⟨fun ho => iff_of_false (fun hon => ?_) hidle, hfall, hraise, fun he hoff => ?_⟩
    · exact absurd ((hstay ho).symm.trans hon) Bool.false_ne_true
    · exact absurd ((hkeep he).symm.trans hoff) Bool.false_ne_true.symm

/-! ## The radio -/

theorem TickRegistersOnly.radioEn {s t : State} (h : TickRegistersOnly s t) : t.radioEn = s.radioEn := by rw [h]

/-- No micro-operation clears `radio_en` (10_state.md R46). -/
theorem radioEn_of_micro {i : Instr} {s t : State} (hi : i.format = .m) (hs : s.radioEn = true)
    (h : exec i s = .next t) : t.radioEn = true := by
  cases i with
  | rttyNext b =>
    obtain rfl := Host.Outcome.next.inj h
    exact (rttyNextOp_tickRegistersOnly b s).radioEn.trans hs
  | fsk4Next b =>
    obtain rfl := Host.Outcome.next.inj h
    exact (mapperNext_tickRegistersOnly 4 fsk4Field b s).radioEn.trans hs
  | fsk2Next b =>
    obtain rfl := Host.Outcome.next.inj h
    exact (mapperNext_tickRegistersOnly 8 fsk2Field b s).radioEn.trans hs
  | delayStep =>
    obtain rfl := Host.Outcome.next.inj h
    exact (delayStepOp_tickRegistersOnly s).radioEn.trans hs
  | fmtRtty =>
    obtain ⟨m, -, rfl⟩ := fmtRttyOp_eq_next h
    exact hs
  | fmtFsk =>
    obtain ⟨m, -, rfl⟩ := fmtFskOp_eq_next h
    exact hs
  | arm =>
    obtain rfl := Host.Outcome.next.inj h
    rfl
  | crcInit | crcByte | crcStr | snapCapture | endPacket | devWrite =>
    obtain rfl := Host.Outcome.next.inj h
    exact hs
  | reset | tickNone | tickIdle | tickRsvd | tickRtty | tickFsk4 | tickFsk2 | seqNone | seqStartup | seqFsk | seqWrap
  | seqWaitTransmitting | seqWaitDelay => cases hi

/-- Settles O58: a micro-operation by `radioEn_of_micro`; at an edge `ARM` sets `radio_en`, and nothing else writes it. -/
theorem radioStaysKeyed : Obligations.RadioStaysKeyed := by
  intro s t hs hon h
  by_cases hp : s.probe = none
  · have hr : s.ports.rst = false := hs.resolve_left (not_not.2 hp)
    obtain ⟨u, rfl, ⟨-, hu⟩ | ⟨-, hu⟩⟩ := step_edge_cases hp hr h
    · rcases (cycleStep_registers hu).2 with ⟨-, -, -, -, -, -, hkept⟩ | harmed
      · exact hkept.trans hon
      · exact harmed.radioEn
    · exact (selectedTick_tickRegistersOnly hu).radioEn.trans hon
  · obtain ⟨-, ⟨bytes, i, rest, -, hd, -, hi⟩ | ⟨hnone, -⟩⟩ := step_eq_next h
    · exact radioEn_of_micro (format_of_decode_micro hd) (s := takeProbe s) hon hi
    · exact absurd hnone hp

end Sys2Proof.Machine
end

