-- ==== Sys2Proof/Proofs/Port.lean ====
section
/-! PROOF. The model's own micro-operation port (log 4), how a word of the operation map is placed and performed (log 6),
and which parameters are legal (00_scope.md R8). -/

namespace Sys2Proof.Machine

/-! ## The port -/

/-- With legal parameters and bytes at the port, a step performs what they decode to (log 4). -/
theorem step_eq_runProbe {s : State} {bytes : List Byte} (hl : s.params.legal = true) (hp : s.probe = some bytes) :
    step s = runProbe bytes s := by
  simp [step, performStep, hl, hp]

/-- The two micro-operations that write a buffer are the formatters (70_reset_and_hazards.md R266). -/
theorem writesBuffers_of_micro {i : Instr} (hi : i.format = .m) :
    writesBuffers i = true ↔ i = .fmtRtty ∨ i = .fmtFsk := by
  cases i with
  | reset => cases hi
  | seqStartup => cases hi
  | seqFsk => cases hi
  | _ => simp [writesBuffers]

/-- Settles O9: the three cases of `runProbe`. -/
theorem microOperationPortRunsTheDecodedOperation : Obligations.MicroOperationPortRunsTheDecodedOperation := by
  intro s bytes hl hp
  rw [step_eq_runProbe hl hp]
  refine ⟨fun i rest hd hfree => ?_, fun i rest hd ho hfmt => ?_, fun why hd => ?_⟩ <;> unfold runProbe <;> rw [hd]
  · have hwrites := writesBuffers_of_micro (format_of_decode_micro hd)
    refine if_neg fun h => ?_
    obtain ⟨ho, hw⟩ := Bool.and_eq_true_iff.1 h
    rcases hfree with hoff | ⟨hrtty, hfsk⟩
    · exact absurd (hoff.symm.trans ho) Bool.false_ne_true
    · exact (hwrites.1 hw).elim hrtty hfsk
  · exact if_pos (Bool.and_eq_true_iff.2 ⟨ho, (writesBuffers_of_micro (format_of_decode_micro hd)).2 hfmt⟩)

/-! ## Placing a control word -/

/-- A word of seven bits is placed as the control word (log 6). -/
theorem withFetchWord_control (s : State) (cw : ControlWord) : s.withFetchWord 7 cw.toNat = placeControlWord cw s := by
  rw [State.withFetchWord, placeWord, if_neg (by simp [tableWordIsMicro]), BitVec.ofNat_toNat, BitVec.setWidth_eq]

/-- A placed control word is the one of the coming edge (30_encoding.md R80). -/
theorem controlWord_placeControlWord (cw : ControlWord) (s : State) : controlWord (placeControlWord cw s) = cw := by
  obtain ⟨r, t, q, o, e, m, rfl⟩ := exists_eq_packCw cw
  simp [controlWord, placeControlWord]

/-- The first byte of a control word of the table is its control byte (log 6). -/
theorem tableBytes_control (cw : ControlWord) : tableBytes 7 cw.toNat = [controlByte cw, 0, 0] := by
  have hbyte : BitVec.ofNat 8 cw.toNat = controlByte cw := by revert cw; decide
  rw [← hbyte]
  rfl

/-- A control word of the table decodes as the decoder it is taken for says (log 6). -/
theorem decodeTableWord_control {cw : ControlWord} {dec : ControlWord → Except Reject Instr} {i : Instr}
    (hf : decode (decodeCwAsOne cw) = decodeControl dec) (h : dec cw = .ok i) : decodeTableWord 7 cw.toNat = some i := by
  have hword : BitVec.ofNat 7 cw.toNat = cw := by rw [BitVec.ofNat_toNat, BitVec.setWidth_eq]
  simp [decodeTableWord, tableWordIsMicro, tableBytes_control, hword, hf, decodeControl_controlByte h]

/-- It is taken for one of the operations that its edge performs (log 6). -/
theorem decodeTableWord_mem_decodeEdge (cw : ControlWord) : ∃ i ∈ decodeEdge cw, decodeTableWord 7 cw.toNat = some i := by
  cases hr : cwRst cw with
  | true =>
    have hreset : decodeResetCw cw = .ok (.reset (cwTick cw) (cwSeqEn cw) (cwTxOn cw) (cwTxEnable cw) (cwMode cw)) :=
      if_pos hr
    exact ⟨_, by simp [decodeEdge, hreset], decodeTableWord_control (by simp [decodeCwAsOne, hr, decode]) hreset⟩
  | false =>
    obtain ⟨t, ht⟩ := decodeTickCw_isOk hr
    obtain ⟨q, hq⟩ := decodeSeqCw_isOk hr
    rw [decodeEdge_of_rst_clear hr ht hq]
    by_cases hseq : cwTick cw = false ∧ cwSeqEn cw = true
    · obtain ⟨htick, hseqEn⟩ := hseq
      exact ⟨q, by simp, decodeTableWord_control (by simp [decodeCwAsOne, hr, htick, hseqEn, decode]) hq⟩
    · have hformat : decodeCwAsOne cw = .t := by
        cases htick : cwTick cw <;> simp_all [decodeCwAsOne]
      exact ⟨t, by simp, decodeTableWord_control (by rw [hformat]; rfl) ht⟩

/-! ## Placing a micro-operation -/

/-- A word of four bits is placed at the port (log 6). -/
theorem withFetchWord_micro (s : State) (idx : Nat) :
    s.withFetchWord 4 idx = { s with probe := some (tableBytes 4 idx) } := rfl

/-- An index in use decodes to the operation of its row (30_encoding.md R85, log 6). -/
theorem decode_tableBytes_micro {idx : Nat} (h : idx ≤ 12) : ∃ i rest, decode .m (tableBytes 4 idx) = .ok (i, rest)
    ∧ decodeTableWord 4 idx = some i ∧ i.row.format = .m ∧ i.row.bits.toNat = idx := by
  interval_cases idx <;> exact ⟨_, _, rfl, rfl, rfl, rfl⟩

/-- Settles O7: a control word by `controlWord_placeControlWord` and `decodeTableWord_mem_decodeEdge`, a micro-operation by
`decode_tableBytes_micro` and what the port does with it. -/
theorem placedWordIsPerformedNext : Obligations.PlacedWordIsPerformedNext := by
  refine ⟨fun s cw => ?_, fun s idx hidx => ?_⟩
  · rw [withFetchWord_control]
    refine ⟨controlWord_placeControlWord cw s, rfl, rfl, fun hl => ?_, decodeTableWord_mem_decodeEdge cw⟩
    rw [step_eq_clockEdge (s := placeControlWord cw s) hl rfl, clockEdge, controlWord_placeControlWord]
  · obtain ⟨i, rest, hd, htable, hformat, hbits⟩ := decode_tableBytes_micro hidx
    refine ⟨tableBytes 4 idx, i, rest, withFetchWord_micro s idx, hd, htable, hformat, hbits, fun hl hfree => ?_⟩
    rw [withFetchWord_micro]
    refine (microOperationPortRunsTheDecodedOperation { s with probe := some _ } _ hl rfl).1 i rest hd ?_
    refine hfree.imp_right fun ⟨h7, h8⟩ => ⟨?_, ?_⟩
    · rintro rfl
      exact h7 hbits.symm
    · rintro rfl
      exact h8 hbits.symm

/-- Settles O5: each word by evaluation of its decoder. -/
theorem writtenOutWordsDecode : Obligations.WrittenOutWordsDecode := by
  unfold Obligations.WrittenOutWordsDecode
  decide

/-! ## Legal parameters -/

/-- The bytes a callsign may hold, in numbers (00_scope.md R8). -/
theorem legalCallsignByte_iff {b : Byte} : legalCallsignByte b = true ↔
    0x21 ≤ b.toNat ∧ b.toNat ≤ 0x7E ∧ b ≠ 0x2C ∧ b ≠ 0x2A ∧ b ≠ 0x24 := by
  simp [legalCallsignByte, BitVec.le_def, and_assoc]

/-- The legal ranges of 00_scope.md R8, written out. -/
theorem legal_iff {p : Params} : p.legal = true ↔
    1 ≤ p.callsign.length ∧ p.callsign.length ≤ 15
      ∧ (∀ b ∈ p.callsign, 0x21 ≤ b.toNat ∧ b.toNat ≤ 0x7E ∧ b ≠ 0x2C ∧ b ≠ 0x2A ∧ b ≠ 0x24)
      ∧ p.fskFrame.length ≤ 128 ∧ p.ledAltThresholdM ≤ 2147483 ∧ 1 ≤ p.symbolRateHz := by
  simp only [Params.legal, Bool.and_eq_true, decide_eq_true_eq, List.all_eq_true, legalCallsignByte_iff, and_assoc]

section
variable {p : Params} (h : p.legal = true)
include h

/-- With another callsign, legal parameters stay legal exactly when it is a legal one. -/
theorem legal_with_callsign (c : List Byte) : { p with callsign := c }.legal
    = (decide (1 ≤ c.length) && decide (c.length ≤ 15) && c.all legalCallsignByte) := by
  obtain ⟨-, -, -, hframe, hled, hrate⟩ := legal_iff.1 h
  simp [Params.legal, hframe, hled, hrate]

/-- With another frame, only its length. -/
theorem legal_with_fskFrame (f : List Byte) : { p with fskFrame := f }.legal = decide (f.length ≤ 128) := by
  simp only [Params.legal, Bool.and_eq_true] at h
  obtain ⟨⟨⟨hcall, -⟩, hled⟩, hrate⟩ := h
  simp [Params.legal, hcall, hled, hrate]

/-- With another threshold, only the threshold. -/
theorem legal_with_ledAltThresholdM (n : Nat) : { p with ledAltThresholdM := n }.legal = decide (n ≤ 2147483) := by
  simp only [Params.legal, Bool.and_eq_true] at h
  obtain ⟨⟨⟨hcall, hframe⟩, -⟩, hrate⟩ := h
  simp [Params.legal, hcall, hframe, hrate]

/-- With another symbol rate, only the rate. -/
theorem legal_with_symbolRateHz (n : Nat) : { p with symbolRateHz := n }.legal = decide (1 ≤ n) := by
  simp only [Params.legal, Bool.and_eq_true] at h
  obtain ⟨⟨⟨hcall, hframe⟩, hled⟩, -⟩ := h
  simp [Params.legal, hcall, hframe, hled]

end

/-- A step with illegal parameters is refused (93_implementation_defined.md U7, log 10). -/
theorem step_of_illegal {s : State} (h : s.params.legal = false) : step s = .refused .illegalParameters := by
  simp [step, performStep, h]

/-- Settles O10: the ranges by `legal_iff`, each boundary value by the law of its parameter. -/
theorem illegalParametersAreRefused : Obligations.IllegalParametersAreRefused := by
  refine ⟨fun s => step_of_illegal, fun p => legal_iff, fun p h => ?_⟩
  simp only [legal_with_callsign h, legal_with_fskFrame h, legal_with_ledAltThresholdM h, legal_with_symbolRateHz h]
  refine ⟨rfl, rfl, rfl, rfl, by decide, by decide, rfl, fun f hf => ?_, fun f hf => ?_, rfl, rfl, rfl, rfl, rfl⟩
  · rw [hf]; rfl
  · rw [hf]; rfl

end Sys2Proof.Machine
end

