-- ==== Sys2Proof/Proofs/MicroOperations.lean ====
section
/-! PROOF. Micro-operations run alone: `CRC.STR` as `CRC.INIT` and `CRC.BYTE` (40_crc16.md R113), `DEV_WRITE`
(44_tick_engine.md R195); and the addresses of the two buffers (20_memory.md R61, R65). -/

namespace Sys2Proof.Machine

/-! ## The checksum of a string -/

/-- `CRC.INIT` always goes on (40_crc16.md R110). -/
theorem exec_crcInit (s : State) : exec .crcInit s = .next { s with crcReg := 0xFFFF } := rfl

/-- `CRC.INIT` and then `CRC.BYTE` on each byte leave the checksum of the bytes (40_crc16.md R113). -/
theorem runOps_crcInit_map_crcByte (bytes : List Byte) (s : State) :
    runOps (.crcInit :: bytes.map .crcByte) s = .next { s with crcReg := crcOf bytes } := by
  rw [runOps, exec_crcInit, andThen_next, runOps_map_crcByte]
  rfl

/-- A `NUL`, or the end, cuts what precedes it (40_crc16.md R113, log 12). -/
theorem untilNul_append {bytes tail : List Byte} (hb : ∀ b ∈ bytes, b ≠ 0) (ht : tail = [] ∨ tail.head? = some 0) :
    untilNul (bytes ++ tail) = bytes := by
  have htail : tail.takeWhile (· != 0) = [] := by
    rcases ht with rfl | ht
    · rfl
    · cases tail with
      | nil => rfl
      | cons b tail =>
        obtain rfl : b = 0 := Option.some.inj ht
        rfl
  rw [untilNul, List.takeWhile_append_of_pos fun b hmem => bne_iff_ne.2 (hb b hmem), htail, List.append_nil]

/-- `CRC.STR` of a string cut at its `NUL` is that of what precedes it (40_crc16.md R113, log 12). -/
theorem exec_crcStr_append {bytes tail : List Byte} (hb : ∀ b ∈ bytes, b ≠ 0) (ht : tail = [] ∨ tail.head? = some 0)
    (s : State) : exec (.crcStr (bytes ++ tail)) s
      = .next { s with crcReg := crcOf bytes, result := some (.crc (crcOf bytes)) } := by
  change execCrcStr (bytes ++ tail) s = _
  rw [execCrcStr, untilNul_append hb ht, setResult, setCrc]

/-- The check value of the checksum, that of the digits 1 to 9 (40_crc16.md R113). -/
theorem crcOf_digits : crcOf [0x31, 0x32, 0x33, 0x34, 0x35, 0x36, 0x37, 0x38, 0x39] = 0x29B1 := by decide +kernel

/-- Settles O16: `runOps_crcInit_map_crcByte` and `exec_crcStr_append` leave the same checksum. -/
theorem crcStrIsInitThenEachByte : Obligations.CrcStrIsInitThenEachByte := by
  refine ⟨exec_crcInit, fun bytes tail s hb ht => ?_, fun s => ?_, fun s => ?_⟩
  · exact ⟨crcOf bytes, runOps_crcInit_map_crcByte bytes s, exec_crcStr_append hb ht s⟩
  · exact exec_crcStr (List.forall_mem_nil _) s
  · rw [exec_crcStr (by decide), crcOf_digits]

/-! ## The deviation output -/

/-- `DEV_WRITE` always goes on (44_tick_engine.md R195). -/
theorem exec_devWrite (v : Byte) (s : State) : exec (.devWrite v) s = .next { s with
    devReg := if s.ports.disableArmed then s.devReg else v, devWe := !s.ports.disableArmed } := rfl

/-- Settles O27: the two values of `disable_armed`. -/
theorem devWriteIsGatedByDisableArm : Obligations.DevWriteIsGatedByDisableArm := by
  refine fun v s => ⟨fun hd => ?_, fun hd => ?_⟩
  · rw [exec_devWrite, hd]
    rfl
  · rw [exec_devWrite, hd]
    rfl

/-! ## Buffer addresses -/

/-- Settles O14: `bufAddr_eq_some` and the two bases. -/
theorem bufferAddressesStayInTheirBuffer : Obligations.BufferAddressesStayInTheirBuffer := by
  refine ⟨fun k hk => ⟨?_, ?_⟩, fun sel k hk => ?_, fun j k a hj hk => ?_⟩
  · exact bufAddr_eq_some.2 ⟨hk, (Nat.zero_add k).symm⟩
  · exact bufAddr_eq_some.2 ⟨hk, rfl⟩
  · exact if_neg (Nat.not_lt.2 hk)
  · obtain ⟨hj128, rfl⟩ := bufAddr_eq_some.1 hj
    obtain ⟨-, hka⟩ := bufAddr_eq_some.1 hk
    simp only [BufSel.base] at hka
    omega

end Sys2Proof.Machine
end

