-- ==== Sys2Proof/Proofs/Noninterference.lean ====
section
/-! PROOF. What the ports reach: a tick operation treats two states alike that differ in the ports and in the output only
(44_tick_engine.md R197, R201); and no operation but those that capture depends on the data ports (20_memory.md R75). -/

namespace Sys2Proof.Machine

open Sys2Proof.Safety

/-! ## States that a tick treats alike -/

/-- Two states that differ in the ports and in what the tick engine puts out only; with `same`, the ports agree in
`disable_armed`, and so does the output. -/
structure TickAlike (same : Bool) (s s' : State) : Prop where
  rest : ∃ p r w l, s' = { s with ports := p, devReg := r, devWe := w, markLed := l }
  output : same = true → s'.ports.disableArmed = s.ports.disableArmed ∧ s'.devReg = s.devReg ∧ s'.devWe = s.devWe
    ∧ s'.markLed = s.markLed

/-- Two outcomes alike: both go on in states alike, or both stop for one reason. -/
def OutcomesAlike (same : Bool) : Res → Res → Prop
  | .next t, .next t' => TickAlike same t t'
  | .fault r, .fault r' => r = r'
  | .refused r, .refused r' => r = r'
  | _, _ => False

section
variable {same : Bool} {s s' : State} (h : TickAlike same s s')
include h

/-! ## The shared operations -/

theorem TickAlike.bufRead (k : Nat) : bufRead s' k = bufRead s k := by
  obtain ⟨⟨p, r, w, l, rfl⟩, -⟩ := h
  rfl

theorem TickAlike.byteAtCursor : byteAtCursor s' = byteAtCursor s := by
  obtain ⟨⟨p, r, w, l, rfl⟩, -⟩ := h
  rfl

theorem TickAlike.clearDevWe : TickAlike same (clearDevWe s) (clearDevWe s') := by
  obtain ⟨⟨p, r, w, l, rfl⟩, hout⟩ := h
  refine ⟨⟨p, r, false, l, rfl⟩, fun hs => ?_⟩
  obtain ⟨hd, hr, -, hl⟩ := hout hs
  exact ⟨hd, hr, rfl, hl⟩

theorem TickAlike.devWriteOp (v : Byte) : TickAlike same (devWriteOp v s) (devWriteOp v s') := by
  obtain ⟨⟨p, r, w, l, rfl⟩, hout⟩ := h
  refine ⟨⟨p, _, _, l, rfl⟩, fun hs => ?_⟩
  obtain ⟨hd, hr, -, hl⟩ := hout hs
  simp only [devWriteOp_writes, devWriteOp_keeps] at hd hr hl ⊢
  exact ⟨hd, by rw [hd, hr], by rw [hd], hl⟩

theorem TickAlike.setMarkLed (v : Bool) : TickAlike same (setMarkLed v s) (setMarkLed v s') := by
  obtain ⟨⟨p, r, w, l, rfl⟩, hout⟩ := h
  refine ⟨⟨p, r, w, _, rfl⟩, fun hs => ?_⟩
  obtain ⟨hd, hr, hw, hl⟩ := hout hs
  simp only [setMarkLed_writes, setMarkLed_keeps] at hd hr hw hl ⊢
  exact ⟨hd, hr, hw, by rw [hd, hl]⟩

theorem TickAlike.endPacketOp : TickAlike same (endPacketOp s) (endPacketOp s') := by
  obtain ⟨⟨p, r, w, l, rfl⟩, hout⟩ := h
  exact ⟨⟨p, r, w, l, rfl⟩, hout⟩

theorem TickAlike.advanceCursor : TickAlike same (advanceCursor s) (advanceCursor s') := by
  obtain ⟨⟨p, r, w, l, rfl⟩, hout⟩ := h
  exact ⟨⟨p, r, w, l, rfl⟩, hout⟩

theorem TickAlike.delayStepOp : TickAlike same (delayStepOp s) (delayStepOp s') := by
  obtain ⟨⟨p, r, w, l, rfl⟩, hout⟩ := h
  unfold Machine.delayStepOp
  dsimp only
  split_ifs <;> exact ⟨⟨p, r, w, l, rfl⟩, hout⟩

theorem TickAlike.rttyNextOp (b : Byte) : (rttyNextOp b s').1 = (rttyNextOp b s).1
    ∧ TickAlike same (rttyNextOp b s).2 (rttyNextOp b s').2 := by
  obtain ⟨⟨p, r, w, l, rfl⟩, hout⟩ := h
  unfold Machine.rttyNextOp
  dsimp only
  split_ifs <;> exact ⟨rfl, ⟨p, r, w, l, rfl⟩, hout⟩

theorem TickAlike.mapperNext (count : Nat) (field : Bool → Byte → Nat → BitVec 2) (b : Byte) :
    (mapperNext count field b s').1 = (mapperNext count field b s).1
      ∧ TickAlike same (mapperNext count field b s).2 (mapperNext count field b s').2 := by
  obtain ⟨⟨p, r, w, l, rfl⟩, hout⟩ := h
  unfold Machine.mapperNext
  dsimp only
  split_ifs <;> exact ⟨rfl, ⟨p, r, w, l, rfl⟩, hout⟩

theorem TickAlike.markSymbol : TickAlike same (markSymbol s) (markSymbol s') := by
  have hdev : markDev s' = markDev s := by
    obtain ⟨⟨p, r, w, l, rfl⟩, -⟩ := h
    rfl
  rw [Machine.markSymbol, Machine.markSymbol, hdev]
  exact (h.devWriteOp _).setMarkLed true

theorem TickAlike.spaceSymbol : TickAlike same (spaceSymbol s) (spaceSymbol s') := (h.devWriteOp _).setMarkLed false

/-! ## The modulation steps -/

/-- What follows an `End` (44_tick_engine.md R184, R186). -/
theorem rttyCharacterEnd_alike (offset : Nat) :
    OutcomesAlike same (rttyCharacterEnd offset s) (rttyCharacterEnd offset s') := by
  have hparams : s'.params = s.params := by
    obtain ⟨⟨p, r, w, l, rfl⟩, -⟩ := h
    rfl
  unfold rttyCharacterEnd
  rw [h.bufRead, hparams]
  cases bufRead s offset with
  | none => exact rfl
  | some c =>
    dsimp only
    split_ifs
    · exact h.advanceCursor.endPacketOp
    · exact (h.advanceCursor.rttyNextOp c).2.spaceSymbol
    · exact h.advanceCursor

/-- The modulation step of `TICK.RTTY` (44_tick_engine.md R182 to R186). -/
theorem rttyModulation_alike : OutcomesAlike same (rttyModulation s) (rttyModulation s') := by
  have hregs : s'.bitIdx = s.bitIdx ∧ s'.cursor = s.cursor := by
    obtain ⟨⟨p, r, w, l, rfl⟩, -⟩ := h
    exact ⟨rfl, rfl⟩
  unfold rttyModulation
  rw [h.byteAtCursor, hregs.1, hregs.2]
  cases byteAtCursor s with
  | none => exact rfl
  | some b =>
    dsimp only
    obtain ⟨hres, hnext⟩ := h.rttyNextOp b
    rw [hres]
    split_ifs
    · exact h.endPacketOp
    · cases (rttyNextOp b s).1 with
      | zero => exact hnext.spaceSymbol
      | one => exact hnext.markSymbol
      | fin => exact rttyCharacterEnd_alike hnext _

/-- What follows a `NoSym` (44_tick_engine.md R189). -/
theorem fskByteEnd_alike (count : Nat) (field : Bool → Byte → Nat → BitVec 2) (offset : Nat) :
    OutcomesAlike same (fskByteEnd (mapperNext count field) offset s) (fskByteEnd (mapperNext count field) offset s') := by
  have hlen : s'.pktLen = s.pktLen := by
    obtain ⟨⟨p, r, w, l, rfl⟩, -⟩ := h
    rfl
  unfold fskByteEnd
  rw [h.bufRead, hlen]
  split
  · exact h.advanceCursor.endPacketOp
  · cases bufRead s offset with
    | none => exact rfl
    | some c =>
      obtain ⟨hres, hnext⟩ := h.advanceCursor.mapperNext count field c
      dsimp only
      rw [hres]
      exact hnext.devWriteOp _

/-- The modulation step of an FSK tick (44_tick_engine.md R187 to R191). -/
theorem fskModulation_alike (count : Nat) (field : Bool → Byte → Nat → BitVec 2) :
    OutcomesAlike same (fskModulation (mapperNext count field) s) (fskModulation (mapperNext count field) s') := by
  have hregs : s'.pktLen = s.pktLen ∧ s'.cursor = s.cursor := by
    obtain ⟨⟨p, r, w, l, rfl⟩, -⟩ := h
    exact ⟨rfl, rfl⟩
  unfold fskModulation
  rw [h.byteAtCursor, hregs.1, hregs.2]
  split
  · exact h.endPacketOp
  · cases byteAtCursor s with
    | none => exact rfl
    | some b =>
      obtain ⟨hres, hnext⟩ := h.mapperNext count field b
      dsimp only
      rw [hres]
      cases (mapperNext count field b s).1 with
      | symbol sym => exact hnext.devWriteOp _
      | noSym => exact fskByteEnd_alike hnext count field _

/-- A tick is alike where its modulation step is (44_tick_engine.md R194). -/
theorem tickWith_alike {modulation : State → Res}
    (hmod : ∀ {u u'}, TickAlike same u u' → OutcomesAlike same (modulation u) (modulation u')) :
    OutcomesAlike same (tickWith modulation s) (tickWith modulation s') := by
  have hclear := hmod h.clearDevWe
  unfold tickWith
  revert hclear
  cases modulation (clearDevWe s) <;> cases modulation (clearDevWe s') <;> intro hclear
  case next.next => exact TickAlike.delayStepOp hclear
  all_goals exact hclear

/-- Every tick operation treats alike what differs in the ports and in the output only. -/
theorem exec_tick_alike {i : Instr} (hi : i.format = .t) : OutcomesAlike same (exec i s) (exec i s') := by
  cases i with
  | tickNone => exact h.clearDevWe
  | tickIdle => exact h.clearDevWe.delayStepOp
  | tickRsvd => exact rfl
  | tickRtty => exact tickWith_alike h rttyModulation_alike
  | tickFsk4 => exact tickWith_alike h fun hu => fskModulation_alike hu 4 fsk4Field
  | tickFsk2 => exact tickWith_alike h fun hu => fskModulation_alike hu 8 fsk2Field
  | reset | seqNone | seqStartup | seqFsk | seqWrap | seqWaitTransmitting | seqWaitDelay | crcInit | crcByte | crcStr
  | rttyNext | fsk4Next | fsk2Next | snapCapture | fmtRtty | fmtFsk | arm | endPacket | devWrite | delayStep => cases hi

end

/-! ## Disarmed output -/

/-- The output and the ports are the same. -/
structure SameOutput (s t : State) : Prop where
  ports : t.ports = s.ports
  devReg : t.devReg = s.devReg
  devWe : t.devWe = s.devWe
  markLed : t.markLed = s.markLed

theorem SameOutput.trans {s u t : State} (hu : SameOutput s u) (ht : SameOutput u t) : SameOutput s t :=
  ⟨ht.ports.trans hu.ports, ht.devReg.trans hu.devReg, ht.devWe.trans hu.devWe, ht.markLed.trans hu.markLed⟩

/-- `disable_armed` is 1, and no write shows. -/
structure Disarmed (s : State) : Prop where
  port : s.ports.disableArmed = true
  devWe : s.devWe = false

theorem Disarmed.of_sameOutput {s t : State} (h : Disarmed s) (ht : SameOutput s t) : Disarmed t :=
  ⟨by rw [ht.ports, h.port], ht.devWe.trans h.devWe⟩

theorem endPacketOp_sameOutput (s : State) : SameOutput s (endPacketOp s) := ⟨rfl, rfl, rfl, rfl⟩

theorem advanceCursor_sameOutput (s : State) : SameOutput s (advanceCursor s) := ⟨rfl, rfl, rfl, rfl⟩

theorem delayStepOp_sameOutput (s : State) : SameOutput s (delayStepOp s) := by
  unfold delayStepOp
  split_ifs <;> exact ⟨rfl, rfl, rfl, rfl⟩

theorem rttyNextOp_sameOutput (b : Byte) (s : State) : SameOutput s (rttyNextOp b s).2 := by
  unfold rttyNextOp
  split_ifs <;> exact ⟨rfl, rfl, rfl, rfl⟩

theorem mapperNext_sameOutput (count : Nat) (field : Bool → Byte → Nat → BitVec 2) (b : Byte) (s : State) :
    SameOutput s (mapperNext count field b s).2 := by
  unfold mapperNext
  split_ifs <;> exact ⟨rfl, rfl, rfl, rfl⟩

section
variable {s : State} (h : Disarmed s)
include h

/-- `DEV_WRITE` is suppressed (44_tick_engine.md R195). -/
theorem Disarmed.devWriteOp (v : Byte) : SameOutput s (devWriteOp v s) :=
  ⟨rfl, if_pos h.port, by rw [h.devWe, devWriteOp_writes v s |>.2, h.port]; rfl, rfl⟩

/-- So is a write to the LED (44_tick_engine.md R197). -/
theorem Disarmed.setMarkLed (v : Bool) : SameOutput s (setMarkLed v s) := ⟨rfl, rfl, rfl, if_pos h.port⟩

theorem Disarmed.markSymbol : SameOutput s (markSymbol s) :=
  have hwrite := h.devWriteOp (markDev s)
  hwrite.trans ((h.of_sameOutput hwrite).setMarkLed true)

theorem Disarmed.spaceSymbol : SameOutput s (spaceSymbol s) :=
  have hwrite := h.devWriteOp spaceDev
  hwrite.trans ((h.of_sameOutput hwrite).setMarkLed false)

/-- What follows an `End` (44_tick_engine.md R184, R186). -/
theorem rttyCharacterEnd_sameOutput {offset : Nat} {t : State} (ht : rttyCharacterEnd offset s = .next t) :
    SameOutput s t := by
  have hadvance := advanceCursor_sameOutput s
  obtain ⟨c, -, ⟨-, rfl⟩ | ⟨-, -, rfl⟩ | ⟨-, -, rfl⟩⟩ := rttyCharacterEnd_eq_next ht
  · exact hadvance.trans (endPacketOp_sameOutput _)
  · have hnext := hadvance.trans (rttyNextOp_sameOutput c _)
    exact hnext.trans (h.of_sameOutput hnext).spaceSymbol
  · exact hadvance

/-- The modulation step of `TICK.RTTY` (44_tick_engine.md R182 to R186). -/
theorem rttyModulation_sameOutput {t : State} (ht : rttyModulation s = .next t) : SameOutput s t := by
  obtain ⟨b, -, ⟨-, -, rfl⟩ | hquery⟩ := rttyModulation_eq_next ht
  · exact endPacketOp_sameOutput s
  have hnext := rttyNextOp_sameOutput b s
  have hdisarmed := h.of_sameOutput hnext
  rcases hquery with ⟨-, -, rfl⟩ | ⟨-, -, rfl⟩ | ⟨-, -, hend⟩
  · exact hnext.trans hdisarmed.markSymbol
  · exact hnext.trans hdisarmed.spaceSymbol
  · exact hnext.trans (rttyCharacterEnd_sameOutput hdisarmed hend)

/-- The modulation step of an FSK tick (44_tick_engine.md R187 to R191). -/
theorem fskModulation_sameOutput {count : Nat} {field : Bool → Byte → Nat → BitVec 2} {t : State}
    (ht : fskModulation (mapperNext count field) s = .next t) : SameOutput s t := by
  obtain ⟨-, rfl⟩ | ⟨-, b, -, hquery⟩ := fskModulation_eq_next ht
  · exact endPacketOp_sameOutput s
  have hnext := mapperNext_sameOutput count field b s
  rcases hquery with ⟨sym, -, rfl⟩ | ⟨-, hend⟩
  · exact hnext.trans ((h.of_sameOutput hnext).devWriteOp _)
  have hadvance := hnext.trans (advanceCursor_sameOutput _)
  obtain ⟨-, rfl⟩ | ⟨-, c, -, rfl⟩ := fskByteEnd_eq_next hend
  · exact hadvance.trans (endPacketOp_sameOutput _)
  · have hagain := hadvance.trans (mapperNext_sameOutput count field c _)
    exact hagain.trans ((h.of_sameOutput hagain).devWriteOp _)

end

/-- A tick with `disable_armed = 1` holds the output, and shows no write (44_tick_engine.md R197, R201). -/
theorem exec_tick_sameOutput {i : Instr} {s t : State} (hi : i.format = .t) (hd : s.ports.disableArmed = true)
    (ht : exec i s = .next t) : SameOutput (clearDevWe s) t := by
  have hdisarmed : Disarmed (clearDevWe s) := ⟨hd, rfl⟩
  have htick {modulation : State → Res} (hmod : ∀ {u}, modulation (clearDevWe s) = .next u → SameOutput (clearDevWe s) u)
      (h : tickWith modulation s = .next t) : SameOutput (clearDevWe s) t := by
    obtain ⟨u, hu, rfl⟩ := tickWith_eq_next.1 h
    exact (hmod hu).trans (delayStepOp_sameOutput u)
  cases i with
  | tickNone =>
    obtain rfl := Host.Outcome.next.inj ht
    exact ⟨rfl, rfl, rfl, rfl⟩
  | tickIdle =>
    obtain rfl := Host.Outcome.next.inj ht
    exact delayStepOp_sameOutput _
  | tickRsvd => cases ht
  | tickRtty => exact htick (rttyModulation_sameOutput hdisarmed) ht
  | tickFsk4 => exact htick (fskModulation_sameOutput (count := 4) (field := fsk4Field) hdisarmed) ht
  | tickFsk2 => exact htick (fskModulation_sameOutput (count := 8) (field := fsk2Field) hdisarmed) ht
  | reset | seqNone | seqStartup | seqFsk | seqWrap | seqWaitTransmitting | seqWaitDelay | crcInit | crcByte | crcStr
  | rttyNext | fsk4Next | fsk2Next | snapCapture | fmtRtty | fmtFsk | arm | endPacket | devWrite | delayStep => cases hi

/-! ## The two noninterference statements -/

/-- Outcomes alike, if one is known. -/
theorem OutcomesAlike.of_next {same : Bool} {t : State} {o : Res} (h : OutcomesAlike same (.next t) o) :
    ∃ t', o = .next t' ∧ TickAlike same t t' := by
  cases o with
  | next t' => exact ⟨t', rfl, h⟩
  | fault r => cases h
  | refused r => cases h

theorem OutcomesAlike.of_fault {same : Bool} {r : Fault} {o : Res} (h : OutcomesAlike same (.fault r) o) :
    o = .fault r := by
  cases o with
  | next t => cases h
  | fault r' => rw [show r = r' from h]
  | refused r' => cases h

theorem OutcomesAlike.of_refused {same : Bool} {r : Refusal} {o : Res} (h : OutcomesAlike same (.refused r) o) :
    o = .refused r := by
  cases o with
  | next t => cases h
  | fault r' => cases h
  | refused r' => rw [show r = r' from h]

/-- A tick operation writes no port (10_state.md R35). -/
theorem TickRegistersOnly.ports {s t : State} (h : TickRegistersOnly s t) : t.ports = s.ports := by rw [h]

/-- Settles O36: the two runs are alike by `exec_tick_alike`, and a disarmed one holds the output by
`exec_tick_sameOutput`. -/
theorem disableArmReachesOnlyTheOutput : Obligations.DisableArmReachesOnlyTheOutput := by
  intro i s d hi
  have hstates : TickAlike false s { s with ports := { s.ports with disableArmed := d } } :=
    ⟨⟨_, _, _, _, rfl⟩, nofun⟩
  have halike := exec_tick_alike hstates hi
  refine ⟨fun t ht => ?_, fun r hr => (hr ▸ halike).of_fault, fun r hr => (hr ▸ halike).of_refused⟩
  rw [ht] at halike
  obtain ⟨t', ht', ⟨p, r, w, l, rfl⟩, -⟩ := halike.of_next
  have hports : t.ports = s.ports := (exec_tick_tickRegistersOnly hi ht).ports
  have hports' : p = { s.ports with disableArmed := d } := (exec_tick_tickRegistersOnly hi ht').ports
  refine ⟨_, ht', rfl, by rw [hports, ← hports'], ?_⟩
  rintro rfl
  obtain ⟨-, hreg, hwe, hled⟩ := exec_tick_sameOutput hi rfl ht'
  exact ⟨hreg, hled, hwe⟩

/-- What a tick makes of states that differ in the data ports differs in the data ports. -/
theorem TickAlike.eq_withData {gps : GpsFix} {volt : Half} {temp : Byte} {s t t' : State} (h : TickAlike true t t')
    (ht : t.ports = s.ports) (ht' : t'.ports = (withData gps volt temp s).ports) : t' = withData gps volt temp t := by
  obtain ⟨⟨p, r, w, l, rfl⟩, hout⟩ := h
  obtain ⟨-, rfl, rfl, rfl⟩ := hout rfl
  simp only at ht'
  rw [ht', withData, withData, ht]

/-- A change of the data ports reaches nothing that a tick reads. -/
theorem withData_alike (gps : GpsFix) (volt : Half) (temp : Byte) (s : State) :
    TickAlike true s (withData gps volt temp s) := ⟨⟨_, _, _, _, rfl⟩, fun _ => ⟨rfl, rfl, rfl, rfl⟩⟩

/-- A tick operation does not depend on the data ports. -/
theorem exec_tick_withData (gps : GpsFix) (volt : Half) (temp : Byte) {i : Instr} (hi : i.format = .t) (s : State) :
    exec i (withData gps volt temp s) = andThen (exec i s) (fun t => .next (withData gps volt temp t)) := by
  have halike := exec_tick_alike (withData_alike gps volt temp s) hi
  cases ht : exec i s with
  | next t =>
    rw [ht] at halike
    obtain ⟨t', ht', htt⟩ := halike.of_next
    rw [ht', andThen_next, htt.eq_withData (exec_tick_tickRegistersOnly hi ht).ports
      (exec_tick_tickRegistersOnly hi ht').ports]
  | fault r => exact (ht ▸ halike).of_fault
  | refused r => exact (ht ▸ halike).of_refused

/-- Settles O48: a tick by `exec_tick_withData`, a formatter by its law of commuting, the generators and `DELAY.STEP` as in
a tick; the other operations read no port, or only `disable_armed`. -/
theorem onlyCaptureReadsTheDataPorts : Obligations.OnlyCaptureReadsTheDataPorts := by
  intro i s gps volt temp hsnap hstartup
  have halike := withData_alike gps volt temp s
  cases i with
  | tickNone | tickIdle | tickRsvd | tickRtty | tickFsk4 | tickFsk2 => exact exec_tick_withData gps volt temp rfl s
  | snapCapture => exact absurd rfl hsnap
  | seqStartup t => exact absurd rfl (hstartup t)
  | seqFsk =>
    have hfmt := fmtFskOp_comm (withData gps volt temp) (s := setMode (fskMode s.params.fskSelect) s) rfl rfl
      fun _ _ => rfl
    exact (congrArg (andThen · _) hfmt).trans (andThen_armOp_comm (withData gps volt temp) fun _ => rfl)
  | fmtRtty => exact fmtRttyOp_comm (withData gps volt temp) rfl rfl rfl fun _ _ => rfl
  | fmtFsk => exact fmtFskOp_comm (withData gps volt temp) rfl rfl fun _ _ => rfl
  | rttyNext b =>
    obtain ⟨hres, hnext⟩ := halike.rttyNextOp b
    rw [exec_rttyNext, exec_rttyNext, andThen_next, hres,
      hnext.eq_withData (rttyNextOp_sameOutput b s).ports (rttyNextOp_sameOutput b _).ports]
    rfl
  | fsk4Next b =>
    obtain ⟨hres, hnext⟩ := halike.mapperNext 4 fsk4Field b
    rw [exec_fsk4Next, exec_fsk4Next, andThen_next, hres,
      hnext.eq_withData (mapperNext_sameOutput _ _ b s).ports (mapperNext_sameOutput _ _ b _).ports]
    rfl
  | fsk2Next b =>
    obtain ⟨hres, hnext⟩ := halike.mapperNext 8 fsk2Field b
    rw [exec_fsk2Next, exec_fsk2Next, andThen_next, hres,
      hnext.eq_withData (mapperNext_sameOutput _ _ b s).ports (mapperNext_sameOutput _ _ b _).ports]
    rfl
  | delayStep =>
    rw [exec_delayStep, exec_delayStep, andThen_next,
      halike.delayStepOp.eq_withData (delayStepOp_sameOutput s).ports (delayStepOp_sameOutput _).ports]
  | reset | seqNone | seqWrap | seqWaitTransmitting | seqWaitDelay | crcInit | crcByte | crcStr | arm | endPacket
  | devWrite => rfl

end Sys2Proof.Machine
end

