-- ==== Sys2Proof/Proofs/PacketLength.lean ====
section
/-! PROOF. How many ticks a packet takes (30_encoding.md R90, R93): in both formats the cursor and the generator's position
together count the ticks made, up to the one that ends the packet. -/

namespace Sys2Proof.Machine

open Sys2Proof.Safety

/-! ## Runs with a measure -/

/-- A packet whose state is known after `m` ticks, for every `m` up to its last one. -/
theorem packet_ticks {i : Instr} {Progress : Nat → State → Prop} {s : State} {n : Nat} (hstart : Progress 0 s)
    (hon : ∀ {m t}, Progress m t → t.txOn = true)
    (hstep : ∀ {m t}, m < n → Progress m t → ∃ u, exec i t = .next u ∧ Progress (m + 1) u)
    (hlast : ∀ {t}, Progress n t → ∃ u, exec i t = .next u ∧ u.txOn = false) :
    (∀ m, m < n + 1 → ∃ t, execTimes i m s = .next t ∧ t.txOn = true)
    ∧ ∃ t, execTimes i (n + 1) s = .next t ∧ t.txOn = false := by
  have hrun (m : Nat) (hm : m ≤ n) : ∃ t, execTimes i m s = .next t ∧ Progress m t := by
    induction m with
    | zero => exact ⟨s, rfl, hstart⟩
    | succ m ih =>
      obtain ⟨t, ht, hp⟩ := ih (by omega)
      obtain ⟨u, hu, hp'⟩ := hstep (by omega) hp
      exact ⟨u, by rw [execTimes_succ, ht, andThen_next, hu], hp'⟩
  refine ⟨fun m hm => ?_, ?_⟩
  · obtain ⟨t, ht, hp⟩ := hrun m (by omega)
    exact ⟨t, ht, hon hp⟩
  · obtain ⟨t, ht, hp⟩ := hrun n le_rfl
    obtain ⟨u, hu, hoff⟩ := hlast hp
    exact ⟨u, by rw [execTimes_succ, ht, andThen_next, hu], hoff⟩

/-- A cursor in the buffer stands on a byte (20_memory.md R65). -/
theorem exists_bufRead {s : State} {k : Nat} (h : k < 128) : ∃ b, bufRead s k = some b :=
  ⟨_, bufRead_eq_some.2 ⟨h, rfl⟩⟩

/-! ## FSK -/

/-- `m` ticks of an FSK packet of `n` bytes are made and it is on air: `count` for each byte passed, and one for each symbol
of the byte at the cursor. -/
structure FskProgress (count n m : Nat) (t : State) : Prop where
  txOn : t.txOn = true
  pktLen : t.pktLen.toNat = n
  symIdx : t.symIdx.toNat ≤ count
  started : 0 < m → 0 < t.symIdx.toNat
  position : t.cursor.toNat * count + t.symIdx.toNat = m

/-- Until the packet's symbols are sent, the cursor stands before its end. -/
theorem FskProgress.cursor_lt {count n m : Nat} {t : State} (h : FskProgress count n m t) (hm : m < n * count) :
    t.cursor.toNat < n := by
  have hpos := h.position
  exact Nat.lt_of_mul_lt_mul_right (a := count) (by omega)

/-- Once they are sent, the cursor stands on the last byte, after its last symbol. -/
theorem last_of_position {c i n count : Nat} (hpos : c * count + i = n * count) (hle : i ≤ count) (hlt : 0 < i) :
    c + 1 = n ∧ count ≤ i := by
  obtain ⟨d, rfl⟩ := Nat.exists_eq_add_of_lt (Nat.lt_of_mul_lt_mul_right (a := count) (show c * count < n * count by omega))
  have hmul : (c + d + 1) * count = c * count + d * count + count := by ring
  have hd : d * count = 0 := by omega
  obtain rfl : d = 0 := (Nat.mul_eq_zero.1 hd).resolve_right (by omega)
  exact ⟨rfl, by omega⟩

section
variable {count n m : Nat} {t : State} (h : FskProgress count n m t) (hn : n ≤ 128) (hcount : 0 < count) (hcount8 : count ≤ 8)
include h hn hcount hcount8

/-- A tick before the last one sends a symbol, of the byte at the cursor or of the next. -/
theorem FskProgress.step (field : Bool → Byte → Nat → BitVec 2) (hm : m < n * count) :
    ∃ u, tickWith (fskModulation (mapperNext count field)) t = .next u ∧ FskProgress count n (m + 1) u := by
  obtain ⟨ho, hlen, hsym, hstarted, hpos⟩ := h
  have hlt := FskProgress.cursor_lt ⟨ho, hlen, hsym, hstarted, hpos⟩ hm
  have hc : t.cursor ≠ t.pktLen := fun heq => by rw [heq] at hlt; omega
  obtain ⟨b, hb⟩ := exists_bufRead (s := t) (k := t.cursor.toNat) (by omega)
  by_cases hi : t.symIdx.toNat < count
  · have hsucc : (t.symIdx + 1).toNat = t.symIdx.toNat + 1 := by
      rw [BitVec.toNat_add]
      exact Nat.mod_eq_of_lt (by simp; omega)
    refine ⟨_, tickWith_fskModulation_symbol field ho hc hb hi, ho, hlen, ?_, fun _ => ?_, ?_⟩ <;>
      simp only [hsucc] <;> omega
  · have hsucc : (t.cursor + 1).toNat = t.cursor.toNat + 1 := by
      rw [BitVec.toNat_add]
      exact Nat.mod_eq_of_lt (by simp; omega)
    have hmul : (t.cursor.toNat + 1) * count = t.cursor.toNat * count + count := Nat.succ_mul _ _
    have hl : t.cursor.toNat + 1 ≠ t.pktLen.toNat := by
      intro heq
      rw [hlen] at heq
      rw [← heq] at hm
      omega
    obtain ⟨c, hnext⟩ := exists_bufRead (s := t) (k := t.cursor.toNat + 1) (by omega)
    refine ⟨_, tickWith_fskModulation_nextByte field hc hb (by omega) ho hcount hl hnext, ho, hlen, ?_, fun _ => ?_, ?_⟩
    · exact hcount
    · exact Nat.one_pos
    · exact (congrArg (· * count + 1) hsucc).trans (by omega)

/-- The last tick ends the packet: at once if it is empty, else after the last symbol of the last byte. -/
theorem FskProgress.last (field : Bool → Byte → Nat → BitVec 2) (hm : m = n * count) :
    ∃ u, tickWith (fskModulation (mapperNext count field)) t = .next u ∧ u.txOn = false := by
  obtain ⟨ho, hlen, hsym, hstarted, hpos⟩ := h
  by_cases hc : t.cursor = t.pktLen
  · exact ⟨_, tickWith_endPacket (fskModulation_zeroLength _ (s := clearDevWe t) hc), rfl⟩
  · have hne : t.cursor.toNat ≠ n := fun heq => hc (BitVec.eq_of_toNat_eq (heq.trans hlen.symm))
    have hm0 : 0 < m := by
      rw [hm, Nat.mul_pos_iff_of_pos_right hcount]
      by_contra h0
      obtain rfl : n = 0 := by omega
      have hzero := (Nat.add_eq_zero_iff.1 (hpos.trans (hm.trans (Nat.zero_mul _)))).1
      exact hne ((Nat.mul_eq_zero.1 hzero).resolve_right (by omega))
    obtain ⟨hl, hi⟩ := last_of_position (hpos.trans hm) hsym (hstarted hm0)
    obtain ⟨b, hb⟩ := exists_bufRead (s := t) (k := t.cursor.toNat) (by omega)
    exact ⟨_, tickWith_fskModulation_last field hc hb hi (hl.trans hlen.symm), rfl⟩

end

/-- An FSK packet of `n` bytes of `count` symbols takes `n * count + 1` ticks (30_encoding.md R93). -/
theorem fskPacket_ticks {i : Instr} {s : State} {count : Nat} {field : Bool → Byte → Nat → BitVec 2}
    (hexec : ∀ t, exec i t = tickWith (fskModulation (mapperNext count field)) t) (hcount : 0 < count) (hcount8 : count ≤ 8)
    (ho : s.txOn = true) (hc : s.cursor = 0) (hi : s.symIdx = 0) (hn : s.pktLen.toNat ≤ 128) :
    (∀ m, m < s.pktLen.toNat * count + 1 → ∃ t, execTimes i m s = .next t ∧ t.txOn = true)
    ∧ ∃ t, execTimes i (s.pktLen.toNat * count + 1) s = .next t ∧ t.txOn = false := by
  have hstart : FskProgress count s.pktLen.toNat 0 s := ⟨ho, rfl, by simp [hi], by simp, by simp [hc, hi]⟩
  refine packet_ticks hstart FskProgress.txOn (fun hm hp => ?_) fun hp => ?_
  · rw [hexec]
    exact hp.step hn hcount hcount8 field hm
  · rw [hexec]
    exact hp.last hn hcount hcount8 field rfl

/-- Settles O37: both mappers by `fskPacket_ticks`. -/
theorem fskPacketTakesItsTicks : Obligations.FskPacketTakesItsTicks := by
  rintro q e s i k ticks (⟨rfl, rfl⟩ | ⟨rfl, rfl⟩) ho hc hi hn rfl
  · exact fskPacket_ticks (exec_tickFsk4 q e) (by decide) (by decide) ho hc hi hn
  · exact fskPacket_ticks (exec_tickFsk2 q e) (by decide) (by decide) ho hc hi hn

/-! ## RTTY -/

/-- The ticks from the start bit of a character to that of the next one (44_tick_engine.md R184, R186). -/
def characterTicks (p : Params) : Nat := if p.rttyEndRequery then p.dataBits.toNat + 2 else p.dataBits.toNat + 3

/-- `m` ticks of an RTTY packet of `n` bytes in the buffer of `s` are made and it is on air: one for each pre-start bit
sent, `characterTicks` for each byte passed, and `bit_idx` for the byte at the cursor. -/
structure RttyProgress (s : State) (n m : Nat) (t : State) : Prop where
  txOn : t.txOn = true
  params : t.params = s.params
  buffer : t.bufSel = s.bufSel ∧ t.mem = s.mem
  cursor : t.cursor.toNat < n
  bitIdx : t.bitIdx.toNat ≤ s.params.dataBits.toNat + 2
  position : t.cursor.toNat * characterTicks s.params + t.bitIdx.toNat + s.prestartCnt.toNat = m + t.prestartCnt.toNat

/-- The ticks of a packet of `k + 1` bytes before its last one. -/
def ticksBeforeLast (s : State) (k : Nat) : Nat :=
  s.prestartCnt.toNat + k * characterTicks s.params + (s.params.dataBits.toNat + 2)

section
variable {s t : State} {k m : Nat} (h : RttyProgress s (k + 1) m t)
include h

theorem RttyProgress.bufRead (j : Nat) : bufRead t j = bufRead s j := by
  unfold Machine.bufRead
  rw [h.buffer.1, h.buffer.2]

/-- A tick that moves the registers of the tick agent, and counts. -/
theorem RttyProgress.of_registers {cursor : Byte} {prestartCnt : Byte} {bitIdx : Nibble} (hc : cursor.toNat < k + 1)
    (hb : bitIdx.toNat ≤ s.params.dataBits.toNat + 2)
    (hpos : cursor.toNat * characterTicks s.params + bitIdx.toNat + s.prestartCnt.toNat = m + 1 + prestartCnt.toNat)
    (r : Byte) (w l : Bool) : RttyProgress s (k + 1) (m + 1) { t with
      cursor := cursor, prestartCnt := prestartCnt, bitIdx := bitIdx, devReg := r, devWe := w, markLed := l } :=
  ⟨h.txOn, h.params, h.buffer, hc, hb, hpos⟩

variable (hk : k + 1 < 128) (hbytes : ∀ j, j < k + 1 → ∃ b, Machine.bufRead s j = some b ∧ b ≠ 0)
include hk hbytes

/-- The tick after a stop bit passes to the next byte, if there is one (44_tick_engine.md R184, R186). -/
theorem RttyProgress.step_end (q e : Bool) (hm : m < ticksBeforeLast s k) (hp : t.prestartCnt.toNat = 0)
    (hend : t.bitIdx.toNat = s.params.dataBits.toNat + 2) :
    ∃ u, exec (.tickRtty q e) t = .next u ∧ RttyProgress s (k + 1) (m + 1) u := by
  obtain ⟨b, hb, -⟩ := hbytes _ h.cursor
  have hpos := h.position
  have hdata : t.params.dataBits.toNat = s.params.dataBits.toNat := by rw [h.params]
  have hlt : t.cursor.toNat + 1 < k + 1 := by
    have hc := h.cursor
    by_contra hlast
    rw [show t.cursor.toNat = k by omega] at hpos
    unfold ticksBeforeLast at hm
    omega
  have hsucc : (t.cursor + 1).toNat = t.cursor.toNat + 1 := by
    rw [BitVec.toNat_add]
    exact Nat.mod_eq_of_lt (by simp; omega)
  have hmul : (t.cursor + 1).toNat * characterTicks s.params
      = t.cursor.toNat * characterTicks s.params + characterTicks s.params := by rw [hsucc, Nat.succ_mul]
  obtain ⟨c, hc, hcne⟩ := hbytes _ hlt
  obtain ⟨-, hsilent, hrequery⟩ := tickRttyEndsTheCharacter q e t b c h.txOn ((h.bufRead _).trans hb)
    ((h.bufRead _).trans hc) (BitVec.eq_of_toNat_eq hp) (by omega)
  cases hq : s.params.rttyEndRequery with
  | false =>
    have hticks : characterTicks s.params = s.params.dataBits.toNat + 3 := by simp [characterTicks, hq]
    refine ⟨_, hsilent hcne (by rw [h.params, hq]), h.of_registers (by omega) (Nat.zero_le _) ?_ _ _ _⟩
    rw [hmul]
    simp
    omega
  | true =>
    have hticks : characterTicks s.params = s.params.dataBits.toNat + 2 := by simp [characterTicks, hq]
    refine ⟨_, hrequery hcne (by rw [h.params, hq]), h.of_registers (by omega) (by simp) ?_ _ _ _⟩
    rw [hmul]
    simp
    omega

/-- A tick before the last one sends a symbol, or passes to the next byte. -/
theorem RttyProgress.step (q e : Bool) (hm : m < ticksBeforeLast s k) :
    ∃ u, exec (.tickRtty q e) t = .next u ∧ RttyProgress s (k + 1) (m + 1) u := by
  obtain ⟨b, hb, hne⟩ := hbytes _ h.cursor
  have hpos := h.position
  have hdata8 := toNat_dataBits_le s.params.dataBits
  have hdata : t.params.dataBits.toNat = s.params.dataBits.toNat := by rw [h.params]
  have hsucc (hle : t.bitIdx.toNat ≤ s.params.dataBits.toNat + 1) : (t.bitIdx + 1).toNat = t.bitIdx.toNat + 1 := by
    rw [BitVec.toNat_add]
    exact Nat.mod_eq_of_lt (by simp; omega)
  obtain ⟨hpreStart, hstartBit, hdataBit, hstopBit⟩ :=
    tickRttySendsOneSymbol q e t b h.txOn ((h.bufRead _).trans hb)
  by_cases hp : t.prestartCnt = 0
  · by_cases hi : t.bitIdx = 0
    · have hi0 : t.bitIdx.toNat = 0 := by rw [hi]; rfl
      exact ⟨_, hstartBit hp hi hne, h.of_registers h.cursor (by simp) (by simp; omega) _ _ _⟩
    by_cases hle : t.bitIdx.toNat ≤ s.params.dataBits.toNat
    · have hsucc := hsucc (by omega)
      exact ⟨_, hdataBit hp hi (by omega), h.of_registers h.cursor (by omega) (by omega) _ _ _⟩
    by_cases heq : t.bitIdx.toNat = s.params.dataBits.toNat + 1
    · have hsucc := hsucc (by omega)
      exact ⟨_, hstopBit hp (by omega), h.of_registers h.cursor (by omega) (by omega) _ _ _⟩
    · have hbit := h.bitIdx
      exact h.step_end hk hbytes q e hm (by rw [hp]; rfl) (by omega)
  · have hp1 : 1 ≤ t.prestartCnt.toNat := Nat.one_le_iff_ne_zero.2 fun h0 => hp (BitVec.eq_of_toNat_eq h0)
    have hpred : (t.prestartCnt - 1).toNat = t.prestartCnt.toNat - 1 := BitVec.toNat_sub_of_le hp1
    exact ⟨_, hpreStart hp fun ⟨_, h0⟩ => hne h0, h.of_registers h.cursor h.bitIdx (by omega) _ _ _⟩

omit hk in
/-- The last tick follows the stop bit of the last byte, and ends the packet. -/
theorem RttyProgress.last (q e : Bool) (hnul : Machine.bufRead s (k + 1) = some 0) (hm : m = ticksBeforeLast s k) :
    ∃ u, exec (.tickRtty q e) t = .next u ∧ u.txOn = false := by
  obtain ⟨b, hb, -⟩ := hbytes _ h.cursor
  have hpos := h.position
  have hbit := h.bitIdx
  have hdata : t.params.dataBits.toNat = s.params.dataBits.toNat := by rw [h.params]
  have hticks : s.params.dataBits.toNat + 2 ≤ characterTicks s.params := by
    unfold characterTicks
    split <;> omega
  have hcur : t.cursor.toNat = k := by
    by_contra hne
    have hc := h.cursor
    have hmul := Nat.mul_le_mul_right (characterTicks s.params) (show t.cursor.toNat + 1 ≤ k by omega)
    rw [Nat.succ_mul] at hmul
    unfold ticksBeforeLast at hm
    omega
  rw [hcur] at hpos
  unfold ticksBeforeLast at hm
  have hp : t.prestartCnt.toNat = 0 := by omega
  obtain ⟨hend, -⟩ := tickRttyEndsTheCharacter q e t b 0 h.txOn ((h.bufRead _).trans hb)
    (by rw [h.bufRead, hcur, hnul]) (BitVec.eq_of_toNat_eq hp) (by omega)
  exact ⟨_, hend rfl, rfl⟩

end

/-- Settles O38: an empty packet ends at its first tick; another one by `RttyProgress`. -/
theorem rttyPacketTakesItsTicks : Obligations.RttyPacketTakesItsTicks := by
  rintro q e s n ticks ho hc hi hn hbytes hnul rfl
  cases n with
  | zero =>
    have hbyte : byteAtCursor s = some 0 := by rw [byteAtCursor, hc]; exact hnul
    obtain ⟨hend, -⟩ := zeroLengthPacketEndsAtOnce q e s ho
    refine packet_ticks (Progress := fun m t => m = 0 ∧ t = s) (n := 0) ⟨rfl, rfl⟩ ?_ ?_ ?_
    · rintro m t ⟨-, rfl⟩
      exact ho
    · exact fun hm => absurd hm (Nat.not_lt_zero _)
    · rintro t ⟨-, rfl⟩
      exact ⟨_, hend hi hbyte, rfl⟩
  | succ k =>
    have hticks : (if k + 1 = 0 then 1
        else if s.params.rttyEndRequery then s.prestartCnt.toNat + (k + 1) * (s.params.dataBits.toNat + 2) + 1
        else s.prestartCnt.toNat + (k + 1) * (s.params.dataBits.toNat + 3)) = ticksBeforeLast s k + 1 := by
      rw [if_neg k.succ_ne_zero, ticksBeforeLast, characterTicks]
      split <;> ring
    have hstart : RttyProgress s (k + 1) 0 s := ⟨ho, rfl, ⟨rfl, rfl⟩, by simp [hc], by simp [hi], by simp [hc, hi]⟩
    rw [hticks]
    exact packet_ticks hstart RttyProgress.txOn (fun hm hp => hp.step hn hbytes q e hm)
      fun hp => hp.last hbytes q e hnul rfl

end Sys2Proof.Machine
end

