-- ==== Sys2Proof/Proofs/SentenceInjective.lean ====
section
/-! PROOF. The body of a sentence determines the fields it carries (43_formatter.md R169): no field contains the comma that
follows it, so the body splits into its fields, and each field determines its number. -/

namespace Sys2Proof.Machine

open Sys2Proof.Safety

/-! ## Splitting -/

/-- A text splits in one way at the first place of a byte. -/
theorem append_cons_inj_of_notMem_left {c : Byte} {a a' b b' : List Byte} (h : c ∉ a) (h' : c ∉ a')
    (heq : a ++ c :: b = a' ++ c :: b') : a = a' ∧ b = b' := by
  induction a generalizing a' with
  | nil =>
    cases a' with
    | nil => exact ⟨rfl, (List.cons.inj heq).2⟩
    | cons d a' =>
      obtain ⟨rfl, -⟩ := List.cons.inj heq
      exact absurd List.mem_cons_self h'
  | cons d a ih =>
    cases a' with
    | nil =>
      obtain ⟨rfl, -⟩ := List.cons.inj heq
      exact absurd List.mem_cons_self h
    | cons d' a' =>
      obtain ⟨rfl, htail⟩ := List.cons.inj heq
      obtain ⟨rfl, hb⟩ := ih (List.not_mem_of_not_mem_cons h) (List.not_mem_of_not_mem_cons h') htail
      exact ⟨rfl, hb⟩

/-- Fields without a comma are read back from the text that joins them (43_formatter.md R164). -/
theorem joinComma_inj : ∀ {fs gs : List (List Byte)}, fs.length = gs.length → (∀ f ∈ fs, 0x2C ∉ f) →
    (∀ g ∈ gs, 0x2C ∉ g) → joinComma fs = joinComma gs → fs = gs
  | [], [], _, _, _, _ => rfl
  | [f], [g], _, _, _, h => by rw [show f = g from h]
  | f :: f' :: fs, g :: g' :: gs, hlen, hf, hg, h => by
    obtain ⟨hf0, hfs⟩ := List.forall_mem_cons.1 hf
    obtain ⟨hg0, hgs⟩ := List.forall_mem_cons.1 hg
    obtain ⟨rfl, hrest⟩ := append_cons_inj_of_notMem_left hf0 hg0 h
    rw [joinComma_inj (Nat.succ.inj hlen) hfs hgs hrest]

/-- A sign in front of digits is told from them. -/
theorem sign_append_inj {neg neg' : Prop} [Decidable neg] [Decidable neg'] {ds ds' : List Byte} (h : 0x2D ∉ ds)
    (h' : 0x2D ∉ ds') (heq : (if neg then [0x2D] else []) ++ ds = (if neg' then [0x2D] else []) ++ ds') :
    (neg ↔ neg') ∧ ds = ds' := by
  split_ifs at heq with hneg hneg' hneg'
  · exact ⟨iff_of_true hneg hneg', (List.cons.inj heq).2⟩
  · have hds' : ds' = 0x2D :: ds := heq.symm
    exact absurd (hds' ▸ List.mem_cons_self) h'
  · have hds : ds = 0x2D :: ds' := heq
    exact absurd (hds ▸ List.mem_cons_self) h
  · exact ⟨iff_of_false hneg hneg', heq⟩

/-! ## Numbers -/

/-- A digit is none of the marks of the sentence (30_encoding.md R94). -/
theorem ne_of_isDigit {b c : Byte} (hb : isDigit b) (hc : c.toNat < 0x30 ∨ 0x39 < c.toNat) : b ≠ c := by
  rintro rfl
  obtain ⟨hlo, hhi⟩ := hb
  omega

/-- Nor do digits contain one. -/
theorem notMem_of_isDigit {ds : List Byte} {c : Byte} (h : ∀ b ∈ ds, isDigit b) (hc : c.toNat < 0x30 ∨ 0x39 < c.toNat) :
    c ∉ ds := fun hmem => ne_of_isDigit (h c hmem) hc rfl

/-- `dec_u` determines its number (43_formatter.md R155). -/
theorem decU_inj {m n : Nat} (h : decU m = decU n) : m = n := by
  rw [← decValue_decU m, h, decValue_decU]

/-- So does `pad` (43_formatter.md R157). -/
theorem pad_inj {m n w : Nat} (h : pad m w = pad n w) : m = n := by
  rw [← decValue_pad m w, h, decValue_pad]

/-- So does `dec_s` (43_formatter.md R156). -/
theorem decS_inj {y z : Int} (h : decS y = decS z) : y = z := by
  have hform (x : Int) : decS x = (if x < 0 then [0x2D] else []) ++ decU x.natAbs := by
    rw [decS_eq]
    split <;> rfl
  have hsign (n : Nat) : (0x2D : Byte) ∉ decU n := notMem_of_isDigit (fun _ => isDigit_of_mem_decU) (by decide)
  rw [hform, hform] at h
  obtain ⟨hneg, hdigits⟩ := sign_append_inj (hsign _) (hsign _) h
  have habs := decU_inj hdigits
  omega

/-- `coord` determines the sign and the magnitude in units of 0.0001 degree (43_formatter.md R158). -/
theorem coord_inj {x y : Word} (h : coord x = coord y) :
    x.toInt.natAbs / 1000 = y.toInt.natAbs / 1000 ∧ (x.toInt < 0 ↔ y.toInt < 0) := by
  obtain ⟨whole, frac, hx, hdigits, -, -, hvalue⟩ := coordinateForm x
  obtain ⟨whole', frac', hy, hdigits', -, -, hvalue'⟩ := coordinateForm y
  have hnoSign {w f : List Byte} (hd : ∀ b ∈ w ++ f, isDigit b) : (0x2D : Byte) ∉ w ++ 0x2E :: f := by
    have hnot := notMem_of_isDigit (c := 0x2D) hd (by decide)
    simp_all
  have hnoPoint {w f : List Byte} (hd : ∀ b ∈ w ++ f, isDigit b) : (0x2E : Byte) ∉ w :=
    notMem_of_isDigit (fun b hb => hd b (List.mem_append_left f hb)) (by decide)
  rw [hx, hy, List.append_assoc, List.append_assoc, List.append_assoc, List.append_assoc] at h
  obtain ⟨hneg, hrest⟩ := sign_append_inj (hnoSign hdigits) (hnoSign hdigits') h
  obtain ⟨rfl, rfl⟩ := append_cons_inj_of_notMem_left (hnoPoint hdigits) (hnoPoint hdigits') hrest
  exact ⟨hvalue.symm.trans hvalue', hneg⟩

/-! ## The fields -/

/-- The time field gives digits and colons (43_formatter.md R162). -/
theorem mem_timeField {n : Snapshot} {b : Byte} (h : b ∈ timeField n) : b = 0x3A ∨ isDigit b := by
  simp only [timeField, List.mem_append, List.mem_singleton] at h
  rcases h with (((h | h) | h) | h) | h
  · exact .inr (isDigit_of_mem_pad h)
  · exact .inl h
  · exact .inr (isDigit_of_mem_pad h)
  · exact .inl h
  · exact .inr (isDigit_of_mem_pad h)

/-- The time field determines hours, minutes and seconds (43_formatter.md R162). -/
theorem timeField_inj {n n' : Snapshot} (h : timeField n = timeField n') : n.hh = n'.hh ∧ n.mm = n'.mm ∧ n.ss = n'.ss := by
  have hform (n : Snapshot) : timeField n
      = pad n.hh.toNat 2 ++ 0x3A :: (pad n.mm.toNat 2 ++ 0x3A :: pad n.ss.toNat 2) := by
    simp [timeField, ascii]
  have hnoColon (m : Nat) : (0x3A : Byte) ∉ pad m 2 := notMem_of_isDigit (fun _ => isDigit_of_mem_pad) (by decide)
  rw [hform, hform] at h
  obtain ⟨hhh, h⟩ := append_cons_inj_of_notMem_left (hnoColon _) (hnoColon _) h
  obtain ⟨hmm, hss⟩ := append_cons_inj_of_notMem_left (hnoColon _) (hnoColon _) h
  exact ⟨BitVec.eq_of_toNat_eq (pad_inj hhh), BitVec.eq_of_toNat_eq (pad_inj hmm), BitVec.eq_of_toNat_eq (pad_inj hss)⟩

/-- A legal callsign contains no comma (00_scope.md R8). -/
theorem comma_notMem_callsign {p : Params} (hp : p.legal = true) : 0x2C ∉ p.callsign := by
  obtain ⟨-, -, hbytes, -⟩ := legal_iff.1 hp
  intro hmem
  obtain ⟨-, -, hne, -⟩ := hbytes _ hmem
  exact hne rfl

/-- No field contains a comma (43_formatter.md R164). -/
theorem comma_notMem_bodyFields {p : Params} (hp : p.legal = true) {n : Snapshot} {f : List Byte}
    (hf : f ∈ bodyFields p.callsign n) : 0x2C ∉ f := by
  have hdecU (m : Nat) : (0x2C : Byte) ∉ decU m := notMem_of_isDigit (fun _ => isDigit_of_mem_decU) (by decide)
  have hcomma : ¬isDigit 0x2C := by decide
  have hdecS (z : Int) : (0x2C : Byte) ∉ decS z := fun h => (mem_decS h).elim (by decide) hcomma
  have hcoord (x : Word) : (0x2C : Byte) ∉ coord x := fun h =>
    (mem_coord h).elim (by decide) fun h => h.elim (by decide) hcomma
  simp only [bodyFields, List.mem_cons, List.not_mem_nil, or_false] at hf
  rcases hf with rfl | rfl | rfl | rfl | rfl | rfl | rfl | rfl | rfl | rfl
  · exact comma_notMem_callsign hp
  · exact hdecU _
  · exact fun h => (mem_timeField h).elim (by decide) hcomma
  · exact hcoord _
  · exact hcoord _
  · exact hdecS _
  · exact hdecU _
  · exact hdecU _
  · exact hdecU _
  · exact hdecS _

/-- Settles O47: the body gives the fields by `joinComma_inj`, and each field its number. -/
theorem sentenceBodyDeterminesTheFieldsItCarries : Obligations.SentenceBodyDeterminesTheFieldsItCarries := by
  intro p n n' hp h
  have hfields : bodyFields p.callsign n = bodyFields p.callsign n' :=
    joinComma_inj rfl (fun _ => comma_notMem_bodyFields hp) (fun _ => comma_notMem_bodyFields hp) h
  simp only [bodyFields, List.cons.injEq, and_true, true_and] at hfields
  obtain ⟨hframe, htime, hlat, hlon, halt, hspeed, hsats, hvolt, htemp⟩ := hfields
  obtain ⟨hhh, hmm, hss⟩ := timeField_inj htime
  obtain ⟨hlat, hlatSign⟩ := coord_inj hlat
  obtain ⟨hlon, hlonSign⟩ := coord_inj hlon
  have hvolt : n.volt.toNat = n'.volt.toNat := Nat.eq_of_mul_eq_mul_right (by decide) (decU_inj hvolt)
  exact ⟨BitVec.eq_of_toNat_eq (decU_inj hframe), hhh, hmm, hss, BitVec.eq_of_toNat_eq (decU_inj hspeed),
    BitVec.eq_of_toNat_eq (decU_inj hsats), BitVec.eq_of_toNat_eq hvolt, BitVec.eq_of_toInt_eq (decS_inj htemp),
    decS_inj halt, hlat, hlatSign, hlon, hlonSign⟩

end Sys2Proof.Machine
end
